-- ==== Sys2Proof/Word.lean ====
section
/-! DEFINITION. The word and channel types of the xdrv-spi CSR block. -/

namespace Sys2Proof

/-- A register, argument or result word: `XLEN` = 32 bits (00_scope.md R7). -/
abbrev Word := BitVec 32

/-- A channel index. Two bits, so that "Channel index ∈ {0,1,2,3} always" holds by construction (10_state.md R37). -/
abbrev Chan := BitVec 2

end Sys2Proof
end

