-- ==== Sys2Proof/Config.lean ====
section
/-! DEFINITION. The implementation parameters of 00_scope.md R8 as plain data, the descriptor table's types (00_scope.md
R12), and the free values: constants WITHOUT a body, which nothing in Lean can evaluate. -/

namespace Sys2Proof

/-- The scope of a descriptor: "whether a descriptor's register address depends on channel index" (00_scope.md R13). -/
inductive Scope where
  | global
  | perChannel
  deriving DecidableEq, Repr

/-- The codec of a descriptor, `enc` and `dec` of 00_scope.md R12, as plain data (log 3).
`offset k` stores `v - k` and reads back `f + k` (the identity is `offset 0`).
`listed enc dec other` stores the code that `enc` lists for the value, and reads back the value that `dec` lists for the
field, `other` for a field value it does not list (so `dec` is total, 40_engine.md R101 condition 6). -/
inductive Codec where
  | offset (k : Word)
  | listed (enc dec : List (Word × Word)) (other : Word)
  deriving DecidableEq, Repr

/-- A bitfield descriptor (00_scope.md R12). Its register identifier is not a field of its own: 40_engine.md R101
condition 2 fixes it from the scope (MODULCTRL when Global, the conf register when PerChannel; log 2). -/
structure Descriptor where
  scope : Scope
  /-- Bit offset of the field's least significant bit. -/
  pos   : Nat
  /-- Width of the field in bits. -/
  w     : Nat
  /-- The set of legal logical values. -/
  dom   : List Word
  codec : Codec
  deriving DecidableEq, Repr

/-- The ids of the 14 descriptors of `FIELD_TABLE` (40_engine.md R102). -/
inductive FieldId where
  | csgm | ms | chmode | initdly
  | ffe | trm | layout | wl | tcs | epol | force | clkd | pha | pol
  deriving DecidableEq, Repr

/-- `FIELD_TABLE`: one descriptor per parameter (40_engine.md R100, R102). -/
structure FieldTable where
  csgm    : Descriptor
  ms      : Descriptor
  chmode  : Descriptor
  initdly : Descriptor
  ffe     : Descriptor
  trm     : Descriptor
  layout  : Descriptor
  wl      : Descriptor
  tcs     : Descriptor
  epol    : Descriptor
  force   : Descriptor
  clkd    : Descriptor
  pha     : Descriptor
  pol     : Descriptor
  deriving DecidableEq, Repr

/-- `RESET_VALUE(off)`, for every non-volatile register (10_state.md R33). -/
structure ResetValues where
  sysconfig : Word
  modulctrl : Word
  conf      : Vector Word 4
  deriving DecidableEq, Repr

/-- The open parameters of 00_scope.md R8, which "the model takes as arguments" (log 1). `POLL_DELAY` is not among them:
"no rule depends on it" (44_lifecycle_reset.md R165, log 17). -/
structure Params where
  /-- `RESET_POLL_MAX`, N. -/
  resetPollMax    : Nat
  /-- `SOFTRESET_BIT` of SYSCONFIG. -/
  softresetBit    : Nat
  /-- `RESETDONE_BIT` of SYSSTATUS. -/
  resetdoneBit    : Nat
  /-- `FIELD_TABLE`. -/
  table           : FieldTable
  /-- `RESET_VALUE(off)`. -/
  resetValue      : ResetValues
  /-- `HW_REVISION`. -/
  hwRevision      : Word
  /-- `DEVICE_STATUS_OFF`, the register GETDEVSTAT reads. -/
  deviceStatusOff : Nat
  /-- `CURCH_POWERON`. -/
  curchPowerOn    : Chan
  deriving DecidableEq, Repr

/-- One choice of the environment, made at one bus access: whether it takes ResetComplete just before the access
(10_state.md R35), and the word a `draw()` of that access gives (00_scope.md R11). -/
structure EnvMove where
  complete : Bool
  draw     : Word
  deriving DecidableEq, Repr, Inhabited

/-- FREE VALUE (log 10). The constant value of REVISION: "The source gives no value" (10_state.md R24). -/
opaque Config.hwRevision : Word

/-- FREE VALUE (log 9). The power-on draw of the register at an offset (10_state.md R43). -/
opaque Config.powerOnWord : Nat → Word

/-- FREE VALUE (log 4). The environment's n-th choice where the state's `moves` names none (10_state.md R32, R35). -/
opaque Config.envMove : Nat → EnvMove

/-- FREE VALUE (log 7). The port's n-th choice among several waiting commands where the state's `picks` names none
(60_exceptions.md R200). -/
opaque Config.acceptChoice : Nat → Nat

end Sys2Proof
end

