-- ==== Sys2Proof/Machine/Fields.lean ====
section
/-! DEFINITION. Addressing and bitfields: the channel offset (20_memory.md R53), the register map (10_state.md R21, R22),
a descriptor's mask, codec, insertion and extraction (00_scope.md R12; 40_engine.md R105, R108), and the default
parameters (40_engine.md R102; 10_state.md R33). -/

namespace Sys2Proof

/-! ### Addressing -/

/-- `CHANNEL_BASE` (00_scope.md R7). -/
def channelBase : Nat := 0x12c

/-- `CHANNEL_STRIDE` (00_scope.md R7). -/
def channelStride : Nat := 0x14

/-- `channelOffset(c, rel)` of 20_memory.md R53, in exact integer arithmetic. -/
def channelOffset (c rel : Nat) : Nat := channelBase + c * channelStride + rel

/-- Channel-relative offsets (10_state.md R22). -/
def relConf : Nat := 0x00
def relStat : Nat := 0x04
def relCtrl : Nat := 0x08
def relTx : Nat := 0x0c
def relRx : Nat := 0x10

/-- Global register offsets (10_state.md R21). -/
def offRevision : Nat := 0x000
def offSysconfig : Nat := 0x110
def offSysstatus : Nat := 0x114
def offIrqstatus : Nat := 0x118
def offIrqenable : Nat := 0x11c
def offSyst : Nat := 0x124
def offModulctrl : Nat := 0x128
def offXferLevel : Nat := 0x17c
def offDmaTx : Nat := 0x180
def offDmaRx : Nat := 0x1a0

/-! ### Descriptors -/

/-- The word with the low `w` bits set, computed in exact integers (40_engine.md R112). -/
def lowMask (w : Nat) : Word := BitVec.ofNat 32 (2 ^ w - 1)

/-- `enc(v)` of a codec. A value that `listed` does not list gets 0: no rule encodes one (the domain check comes first). -/
def Codec.enc : Codec → Word → Word
  | .offset k, v => v - k
  | .listed enc _ _, v => (enc.lookup v).getD 0

/-- `dec(f)` of a codec, total on every field value. -/
def Codec.dec : Codec → Word → Word
  | .offset k, f => f + k
  | .listed _ dec other, f => (dec.lookup f).getD other

/-- `Valid(d, u)`: `u ∈ d.dom`, `u` read as unsigned (40_engine.md R103). -/
def Descriptor.valid (d : Descriptor) (u : Word) : Bool := d.dom.contains u

/-- `mask(d) = ((1 << w) - 1) << pos` (00_scope.md R12). -/
def Descriptor.mask (d : Descriptor) : Word := lowMask d.w <<< d.pos

/-- `zext_32(d.enc(u)) << d.pos`: the bits a set puts into the field (40_engine.md R105). -/
def Descriptor.bits (d : Descriptor) (u : Word) : Word := d.codec.enc u <<< d.pos

/-- The field value `v[pos + w - 1 : pos]` (00_scope.md R10). -/
def Descriptor.field (d : Descriptor) (v : Word) : Word := (v >>> d.pos) &&& lowMask d.w

/-- `d.dec(v[pos + w - 1 : pos])`: the logical value a get returns (40_engine.md R108). -/
def Descriptor.extract (d : Descriptor) (v : Word) : Word := d.codec.dec (d.field v)

/-- "clear the field via mask, OR in the new value": the word an RMW writes back (40_engine.md R105). -/
def rmwWord (old mask bits : Word) : Word := (old &&& ~~~mask) ||| bits

/-- The word `FieldWrite(d, c, u)` writes over `old` (40_engine.md R105). -/
def Descriptor.insert (d : Descriptor) (old u : Word) : Word := rmwWord old d.mask (d.bits u)

/-- The register identifier of a descriptor (40_engine.md R101 condition 2): the global offset of MODULCTRL, or the
channel-relative offset of conf. -/
def Descriptor.reg (d : Descriptor) : Nat :=
  match d.scope with
  | .global => offModulctrl
  | .perChannel => relConf

/-- `addr(d, c)` of 20_memory.md R54. -/
def Descriptor.addr (d : Descriptor) (c : Nat) : Nat :=
  match d.scope with
  | .global => d.reg
  | .perChannel => channelOffset c d.reg

/-! ### The table -/

/-- The 14 ids, in the order of 40_engine.md R102. -/
def FieldId.all : List FieldId :=
  [.csgm, .ms, .chmode, .initdly, .ffe, .trm, .layout, .wl, .tcs, .epol, .force, .clkd, .pha, .pol]

/-- The row of a table. -/
def FieldTable.get (t : FieldTable) : FieldId → Descriptor
  | .csgm => t.csgm
  | .ms => t.ms
  | .chmode => t.chmode
  | .initdly => t.initdly
  | .ffe => t.ffe
  | .trm => t.trm
  | .layout => t.layout
  | .wl => t.wl
  | .tcs => t.tcs
  | .epol => t.epol
  | .force => t.force
  | .clkd => t.clkd
  | .pha => t.pha
  | .pol => t.pol

/-- The scope column of 30_encoding.md R72: the four MODULCTRL parameters are Global, the others PerChannel. -/
def FieldId.scope : FieldId → Scope
  | .csgm | .ms | .chmode | .initdly => .global
  | .ffe | .trm | .layout | .wl | .tcs | .epol | .force | .clkd | .pha | .pol => .perChannel

/-- The values `lo, lo + 1, …, hi`. -/
def valuesFrom (lo hi : Nat) : List Word := (List.range (hi + 1 - lo)).map fun i => BitVec.ofNat 32 (lo + i)

/-- The codec that stores the value itself. -/
def Codec.identity : Codec := .offset 0

/-- FFE: 0 → 0b00, 1 → 0b11; any non-zero field reads as enabled (40_engine.md R102; D13). -/
def Codec.fifoEnable : Codec := .listed [(0, 0b00), (1, 0b11)] [(0, 0)] 1

/-- LAYOUT: 0 → 0b110, 1 → 0b001; `dec(f) = 1 - f[2]`, so the four field values with bit 2 set read as 0 and the others
as 1 (40_engine.md R102; D12). -/
def Codec.pinLayout : Codec := .listed [(0, 0b110), (1, 0b001)] [(0b100, 0), (0b101, 0), (0b110, 0), (0b111, 0)] 1

/-- The default `FIELD_TABLE`, row by row (40_engine.md R102; the positions, widths and codecs are the spec's choice D10-D13). -/
def FieldTable.default : FieldTable where
  csgm    := ⟨.global, 1, 1, valuesFrom 0 1, .identity⟩
  ms      := ⟨.global, 2, 1, valuesFrom 0 1, .identity⟩
  chmode  := ⟨.global, 0, 1, valuesFrom 0 1, .identity⟩
  initdly := ⟨.global, 4, 3, valuesFrom 0 4, .identity⟩
  ffe     := ⟨.perChannel, 27, 2, valuesFrom 0 1, .fifoEnable⟩
  trm     := ⟨.perChannel, 12, 2, valuesFrom 0 2, .identity⟩
  layout  := ⟨.perChannel, 16, 3, valuesFrom 0 1, .pinLayout⟩
  wl      := ⟨.perChannel, 7, 5, valuesFrom 4 32, .offset 1⟩
  tcs     := ⟨.perChannel, 25, 2, valuesFrom 0 3, .identity⟩
  epol    := ⟨.perChannel, 6, 1, valuesFrom 0 1, .identity⟩
  force   := ⟨.perChannel, 20, 1, valuesFrom 0 1, .identity⟩
  clkd    := ⟨.perChannel, 2, 4, valuesFrom 0 15, .identity⟩
  pha     := ⟨.perChannel, 0, 1, valuesFrom 0 1, .identity⟩
  pol     := ⟨.perChannel, 1, 1, valuesFrom 0 1, .identity⟩

/-- The default `RESET_VALUE` (10_state.md R33). -/
def ResetValues.default : ResetValues where
  sysconfig := 0x00000000
  modulctrl := 0x00000004
  conf := #v[0x00060000, 0x00060000, 0x00060000, 0x00060000]

/-- The default parameters (00_scope.md R8; log 11). `HW_REVISION` has none and is a free value (log 10). -/
def Params.default : Params where
  resetPollMax := 1000
  softresetBit := 1
  resetdoneBit := 0
  table := .default
  resetValue := .default
  hwRevision := Config.hwRevision
  deviceStatusOff := offSysstatus
  curchPowerOn := 0

end Sys2Proof
end

