-- ==== Sys2Proof/Syntax.lean ====
section
/-! DEFINITION. The command record (30_encoding.md R70) and the 34 commands it can stand for (R71, R72), one constructor
per row of spec/opcode_table.json. -/

namespace Sys2Proof

/-- The command record accepted on the command port (30_encoding.md R70). -/
structure Cmd where
  kind : BitVec 2
  op   : Word
  arg  : Word
  chv  : Bool
  ch   : Word
  deriving DecidableEq, Repr

/-- The commands. `arg` is the record's argument, kept only where the operation reads it (30_encoding.md R73). `ch` is the
explicit channel of a per-channel operation: `some c` for `chv = 1, ch = c`, `none` for `chv = 0` (R74). -/
inductive Instr where
  -- current channel (40_engine.md R106, R107)
  | setCh (arg : Word)
  | getCh
  -- FIFO assignment (43_fifo.md R151, R152)
  | setFifo (arg : Word)
  | getFifo
  -- global parameters (41_global_params.md R120-R127)
  | setCsgm (arg : Word)
  | getCsgm
  | setMs (arg : Word)
  | getMs
  | setChmode (arg : Word)
  | getChmode
  | setInitdly (arg : Word)
  | getInitdly
  -- per-channel parameters (42_channel_params.md R130-R147)
  | setTrm (arg : Word) (ch : Option Word)
  | getTrm (ch : Option Word)
  | setLayout (arg : Word) (ch : Option Word)
  | getLayout (ch : Option Word)
  | setWl (arg : Word) (ch : Option Word)
  | getWl (ch : Option Word)
  | setTcs (arg : Word) (ch : Option Word)
  | getTcs (ch : Option Word)
  | setEpol (arg : Word) (ch : Option Word)
  | getEpol (ch : Option Word)
  | setForce (arg : Word) (ch : Option Word)
  | getForce (ch : Option Word)
  | setClkd (arg : Word) (ch : Option Word)
  | getClkd (ch : Option Word)
  | setPha (arg : Word) (ch : Option Word)
  | getPha (ch : Option Word)
  | setPol (arg : Word) (ch : Option Word)
  | getPol (ch : Option Word)
  -- status reporter (45_status.md R180, R181)
  | getDevStat
  | getChStat (arg : Word)
  -- lifecycle (44_lifecycle_reset.md R166, R168)
  | init
  | term
  deriving DecidableEq, Repr

end Sys2Proof
end

