-- ==== Sys2Proof/Machine/State.lean ====
section
/-! DEFINITION. The state of the block as plain data: the register bank (10_state.md R21-R33), the control state (R34),
the environment's bit (R35), the ports (20_memory.md R58; 30_encoding.md R70), the parameters, and the model's own fields
that carry the free choices; the power-on state (R43); the reasons a step can stop. -/

namespace Sys2Proof.Machine

/-! ### Registers -/

/-- The non-volatile registers: "one that holds the last value written, until a soft reset completes" (10_state.md R32).
They are the only registers the block writes (R31). -/
inductive NvReg where
  | sysconfig
  | modulctrl
  | conf (c : Chan)
  deriving DecidableEq, Repr

/-- The registers the block reads (10_state.md R31). -/
inductive Reg where
  | revision
  | nv (r : NvReg)
  | sysstatus
  | stat (c : Chan)
  deriving DecidableEq, Repr

/-- The opaque registers: "no operation of the block reads or writes them" (10_state.md R30). -/
inductive OpaqueReg where
  | irqstatus
  | irqenable
  | syst
  | ctrl (c : Chan)
  | tx (c : Chan)
  | rx (c : Chan)
  | xferLevel
  | dmaTx
  | dmaRx
  deriving DecidableEq, Repr

/-- What stands at an offset of the register map (10_state.md R21). -/
inductive MapEntry where
  | reg (r : Reg)
  | opaq (r : OpaqueReg)
  deriving DecidableEq, Repr

/-- The stored words of the non-volatile registers, `bank[off]` (10_state.md R32). -/
structure Bank where
  sysconfig : Word
  modulctrl : Word
  conf      : Vector Word 4
  deriving DecidableEq, Repr

/-- The words of the opaque registers (10_state.md R30; log 12). -/
structure OpaqueBank where
  irqstatus : Word
  irqenable : Word
  syst      : Word
  ctrl      : Vector Word 4
  tx        : Vector Word 4
  rx        : Vector Word 4
  xferLevel : Word
  dmaTx     : Word
  dmaRx     : Word
  deriving DecidableEq, Repr

/-! ### Control state -/

/-- `st.life` (10_state.md R36). -/
inductive Life where
  | uninitialized
  | ready
  | terminated
  deriving DecidableEq, Repr

/-- `st.seq`, the reset sequencer's phase (10_state.md R39). -/
inductive Seq where
  | idle
  | resetting (k : Nat)
  | done
  | failed
  deriving DecidableEq, Repr

/-- The two lifecycle commands, the only ones that run the reset sequencer (44_lifecycle_reset.md R160). -/
inductive LifeCmd where
  | init
  | term
  deriving DecidableEq, Repr

/-- What follows the write of an RMW in the command being executed. -/
inductive After where
  /-- The command is complete: `return 0` (40_engine.md R105; 43_fifo.md R151). -/
  | done
  /-- The disable loop of SETFIFO goes on after channel `c` (43_fifo.md R151). -/
  | disable (c : Chan)
  /-- The reset sequencer starts to poll (44_lifecycle_reset.md R162). -/
  | polling (l : LifeCmd)
  deriving DecidableEq, Repr

/-- `st.phase`: which bus access of the current command is next (10_state.md R34, R40). -/
inductive Phase where
  /-- No command is executing. -/
  | idle
  /-- `old <- MemRead(r, 4)` of an RMW (40_engine.md R105; 44_lifecycle_reset.md R161). -/
  | rmwRead (r : NvReg) (mask bits : Word) (k : After)
  /-- `MemWrite(r, 4, (old & ~mask) | bits)`: `old` is the word read and not yet written back (10_state.md R44). -/
  | rmwWrite (r : NvReg) (mask bits old : Word) (k : After)
  /-- `FieldRead` of the descriptor `f` at the register `r` (40_engine.md R108). -/
  | fieldRead (f : FieldId) (r : NvReg)
  /-- `e[c] <- FieldRead(FFE, c)` of SETFIFO n (`target = some n`, 43_fifo.md R151) or GETFIFO (`none`, R152); `on` lists
  the channels below `c` found enabled, lowest first. -/
  | fifoScan (target : Option Chan) (c : Chan) (on : List Chan)
  /-- `rev <- MemRead(0x000, 4)` of INIT (44_lifecycle_reset.md R166). -/
  | revRead
  /-- One poll of SYSSTATUS (44_lifecycle_reset.md R162). -/
  | poll (l : LifeCmd)
  /-- `return MemRead(r, 4)` (45_status.md R180, R181). -/
  | wordRead (r : Reg)
  deriving DecidableEq, Repr

/-! ### Ports -/

/-- The status of a response (30_encoding.md R76). -/
inductive Status where
  | ok
  | invalidChannel
  | invalidValue
  | fifoConflict
  | deviceNotReady
  | resetTimeout
  | unknownOperation
  deriving DecidableEq, Repr

/-- The response to a command: the record {status, result} (30_encoding.md R70), and beside it the diagnostic `info` of
60_exceptions.md R194, which is no part of the record (log 15). -/
structure Response where
  status : Status
  result : Word
  info   : Option Word
  deriving DecidableEq, Repr

/-- An event of the log port (20_memory.md R58). -/
inductive Event where
  | read (off : Nat) (v : Word)
  | write (off : Nat) (v : Word)
  | rev (major : BitVec 2) (minor : BitVec 5)
  | timeout
  deriving DecidableEq, Repr

/-! ### State -/

/-- The state of the machine. -/
structure State where
  /-- The parameters of 00_scope.md R8; no step changes them (log 1). -/
  params    : Params
  /-- The non-volatile registers (10_state.md R32). -/
  bank      : Bank
  /-- The opaque registers (10_state.md R30). -/
  opaq      : OpaqueBank
  /-- The environment bit: a soft reset is in progress (10_state.md R35). -/
  pend      : Bool
  life      : Life
  curch     : Chan
  revMajor  : BitVec 2
  revMinor  : BitVec 5
  seq       : Seq
  busy      : Bool
  phase     : Phase
  /-- The command records that wait at the command port (60_exceptions.md R200). -/
  waiting   : List Cmd
  /-- The responses given, oldest first (30_encoding.md R70). -/
  responses : List Response
  /-- The log port's events, oldest first (20_memory.md R58). -/
  log       : List Event
  /-- MODEL'S OWN: the environment's coming choices, one per bus access (log 4). -/
  moves     : List EnvMove
  /-- MODEL'S OWN: how many choices the environment has made (log 4). -/
  tick      : Nat
  /-- MODEL'S OWN: the port's coming choices among several waiting commands (log 7). -/
  picks     : List Nat
  /-- MODEL'S OWN: how many such choices the port has made (log 7). -/
  pickTick  : Nat
  deriving DecidableEq, Repr

/-- The four words that a function of the channel's group offset gives, one for each channel. -/
def perChannel (word : Nat → Word) (rel : Nat) : Vector Word 4 :=
  #v[word (channelOffset 0 rel), word (channelOffset 1 rel), word (channelOffset 2 rel), word (channelOffset 3 rel)]

/-- The power-on state (10_state.md R43) under the parameters `p`, with `word off` as the unspecified content of the
register at `off`. The command port holds nothing: the block "waits for a command" (70_reset_and_hazards.md R211). -/
def State.powerOn (p : Params) (word : Nat → Word) : State where
  params := p
  bank := {
    sysconfig := word offSysconfig
    modulctrl := word offModulctrl
    conf := perChannel word relConf }
  opaq := {
    irqstatus := word offIrqstatus
    irqenable := word offIrqenable
    syst := word offSyst
    ctrl := perChannel word relCtrl
    tx := perChannel word relTx
    rx := perChannel word relRx
    xferLevel := word offXferLevel
    dmaTx := word offDmaTx
    dmaRx := word offDmaRx }
  pend := false
  life := .uninitialized
  curch := p.curchPowerOn
  revMajor := 0
  revMinor := 0
  seq := .idle
  busy := false
  phase := .idle
  waiting := []
  responses := []
  log := []
  moves := []
  tick := 0
  picks := []
  pickTick := 0

/-- The machine right after reset: construction with the default parameters; every unspecified word is the free value
`Config.powerOnWord` (log 9). -/
def State.reset : State := State.powerOn Params.default Config.powerOnWord

/-! ### Stops -/

/-- The faults of the machine: NONE. Every error of the spec is a status code on the response, after which the block
accepts the next command (60_exceptions.md R190), so no step raises a fault (log 21; safe). -/
inductive Fault where
  deriving DecidableEq, Repr

/-- The refusals. -/
inductive Refusal where
  /-- Raised by exec's arm of an instruction that has no meaning yet; no arm of this model raises it. Safe. -/
  | notModelled (mnemonic : String)
  /-- Raised by GETDEVSTAT when `DEVICE_STATUS_OFF` is no offset of the register map: "any other offset ... has no step: it
  is refused" (20_memory.md R56; U17; log 13). Not raised under the default parameter. Safe. -/
  | offsetNotInMap (off : Nat)
  /-- Raised by GETDEVSTAT when `DEVICE_STATUS_OFF` names an opaque register: "refuse. The block never accesses them and
  gives them no meaning" (U18; log 13). Not raised under the default parameter. Safe. -/
  | opaqueRegister (off : Nat)
  /-- Raised by the construction of a block whose `FIELD_TABLE` fails a condition of 40_engine.md R101: "a model refuses any
  other table" (U22, "refuse at build time"). Raised by no step. Safe. -/
  | tableRefused
  /-- Raised by the construction of a block with another parameter outside the range its rule gives (00_scope.md R8;
  10_state.md R33; log 22). Raised by no step. Safe. -/
  | valueRefused
  deriving DecidableEq, Repr

end Sys2Proof.Machine
end

