-- ==== Sys2Proof/Machine/Flags.lean ====
section
/-! DEFINITION. "Status outputs in place of flags" (10_state.md R41): the status codes and the response record
(30_encoding.md R70, R76), and the one status bit the block tests, the ready bit of SYSSTATUS (10_state.md R26, R32). -/

namespace Sys2Proof.Machine

/-- The status codes (30_encoding.md R76). -/
def Status.code : Status → Word
  | .ok => 0
  | .invalidChannel => 1
  | .invalidValue => 2
  | .fifoConflict => 3
  | .deviceNotReady => 4
  | .resetTimeout => 5
  | .unknownOperation => 6

/-- The response record `{status, result}` (30_encoding.md R70). -/
def Response.record (r : Response) : Word × Word := (r.status.code, r.result)

/-- The one-bit word `1 << n`. -/
def bitWord (n : Nat) : Word := 1 <<< n

/-- The word a read of SYSSTATUS returns: a draw whose ready bit is `~pend`, in R32's words `zext_32(~pend & 1) <<
RESETDONE_BIT` (10_state.md R32). -/
def statusWord (p : Params) (pend : Bool) (draw : Word) : Word :=
  (draw &&& ~~~bitWord p.resetdoneBit) ||| (if pend then 0 else bitWord p.resetdoneBit)

/-- The ready bit of a SYSSTATUS word (44_lifecycle_reset.md R162). -/
def readyBit (p : Params) (v : Word) : Bool := v.getLsbD p.resetdoneBit

/-- Whether a SYSCONFIG word starts a soft reset when it is written (10_state.md R35). -/
def startsReset (p : Params) (v : Word) : Bool := v.getLsbD p.softresetBit

/-- `rev[9:8]` (10_state.md R23, R38). -/
def revisionMajor (rev : Word) : BitVec 2 := rev.extractLsb' 8 2

/-- `rev[4:0]` (10_state.md R23, R38). -/
def revisionMinor (rev : Word) : BitVec 5 := rev.extractLsb' 0 5

end Sys2Proof.Machine
end

