-- ==== Sys2Proof/Machine/Ops.lean ====
section
/-! DEFINITION. The named operations over the register bank: the register map (10_state.md R21, R22), the environment's
choice before a bus access (R35), `MemRead` and `MemWrite` (R32; 20_memory.md R52, R58), and the completion of a command:
`return` and `raise` (00_scope.md R11; 60_exceptions.md R192, R196). -/

namespace Sys2Proof.Machine

/-! ### The register map -/

/-- The offset of a non-volatile register (10_state.md R21, R22). -/
def NvReg.offset : NvReg → Nat
  | .sysconfig => offSysconfig
  | .modulctrl => offModulctrl
  | .conf c => channelOffset c.toNat relConf

/-- The offset of a register the block reads (10_state.md R21, R22). -/
def Reg.offset : Reg → Nat
  | .revision => offRevision
  | .nv r => r.offset
  | .sysstatus => offSysstatus
  | .stat c => channelOffset c.toNat relStat

/-- The offset of an opaque register (10_state.md R21, R22). -/
def OpaqueReg.offset : OpaqueReg → Nat
  | .irqstatus => offIrqstatus
  | .irqenable => offIrqenable
  | .syst => offSyst
  | .ctrl c => channelOffset c.toNat relCtrl
  | .tx c => channelOffset c.toNat relTx
  | .rx c => channelOffset c.toNat relRx
  | .xferLevel => offXferLevel
  | .dmaTx => offDmaTx
  | .dmaRx => offDmaRx

/-- The offset of an entry of the map. -/
def MapEntry.offset : MapEntry → Nat
  | .reg r => r.offset
  | .opaq r => r.offset

/-- The four channels, lowest first. -/
def allChans : List Chan := [0, 1, 2, 3]

/-- The five registers of a channel's group (10_state.md R22). -/
def channelGroup (c : Chan) : List MapEntry :=
  [.reg (.nv (.conf c)), .reg (.stat c), .opaq (.ctrl c), .opaq (.tx c), .opaq (.rx c)]

/-- Every register of the map (10_state.md R21). -/
def registerMap : List MapEntry :=
  [.reg .revision, .reg (.nv .sysconfig), .reg .sysstatus, .opaq .irqstatus, .opaq .irqenable, .opaq .syst,
    .reg (.nv .modulctrl)] ++ allChans.flatMap channelGroup ++ [.opaq .xferLevel, .opaq .dmaTx, .opaq .dmaRx]

/-- The register at an offset; `none` for an offset that holds no register (20_memory.md R56, R59). -/
def mapAt (off : Nat) : Option MapEntry := registerMap.find? fun e => e.offset == off

/-! ### The bank -/

/-- `bank[off]` of a non-volatile register. -/
def Bank.word (b : Bank) : NvReg → Word
  | .sysconfig => b.sysconfig
  | .modulctrl => b.modulctrl
  | .conf c => b.conf[c.toNat]'c.isLt

/-- `bank[off] <- v`. -/
def Bank.put (b : Bank) (r : NvReg) (v : Word) : Bank :=
  match r with
  | .sysconfig => { b with sysconfig := v }
  | .modulctrl => { b with modulctrl := v }
  | .conf c => { b with conf := b.conf.set c.toNat v c.isLt }

/-- The bank whose every word is `RESET_VALUE(off)` (10_state.md R33). -/
def ResetValues.bank (v : ResetValues) : Bank := ⟨v.sysconfig, v.modulctrl, v.conf⟩

/-! ### The environment -/

/-- The environment's k-th coming choice, from 0: the one `moves` lists, else the free value (log 4). -/
def State.moveAt (s : State) (k : Nat) : EnvMove := s.moves.getD k (Config.envMove (s.tick + k))

/-- The environment's choice at the next bus access. -/
def State.move (s : State) : EnvMove := s.moveAt 0

/-- The environment's choice is used up. -/
def State.useMove (s : State) : State := { s with moves := s.moves.tail, tick := s.tick + 1 }

/-- ResetComplete: every non-volatile register takes its `RESET_VALUE` and `pend` becomes 0, all in one step; the block's
control state is not touched (10_state.md R35). -/
def resetComplete (s : State) : State := { s with bank := ResetValues.bank s.params.resetValue, pend := false }

/-- What the environment does before the next bus access: ResetComplete if it chooses it and it is enabled (`pend = 1`),
or nothing (10_state.md R35; log 5). -/
def environment (s : State) : State :=
  if s.pend && s.move.complete then resetComplete s.useMove else s.useMove

/-! ### Control state -/

/-- `st.seq <- q` (10_state.md R39). -/
def State.setSeq (s : State) (q : Seq) : State := { s with seq := q }

/-- `st.phase <- p` (10_state.md R40). -/
def State.setPhase (s : State) (p : Phase) : State := { s with phase := p }

/-- The command lock is taken (60_exceptions.md R200). -/
def State.lock (s : State) : State := { s with busy := true }

/-! ### Bus accesses -/

/-- One event on the log port (20_memory.md R58). -/
def State.emit (s : State) (e : Event) : State := { s with log := s.log ++ [e] }

/-- The word a read of `r` returns in the state `s` when the access's draw is `draw` (10_state.md R32). -/
def regWord (r : Reg) (draw : Word) (s : State) : Word :=
  match r with
  | .revision => s.params.hwRevision
  | .nv r => if s.pend then draw else s.bank.word r
  | .sysstatus => statusWord s.params s.pend draw
  | .stat _ => draw

/-- The word that `MemRead(r, 4)`, issued in the state `s`, returns: the environment makes its choice first. -/
def readWord (r : Reg) (s : State) : Word := regWord r s.move.draw (environment s)

/-- `MemRead(r, 4)`: the word and the state after the access, with its log event (20_memory.md R52, R58). -/
def memRead (r : Reg) (s : State) : Word × State :=
  (readWord r s, (environment s).emit (.read r.offset (readWord r s)))

/-- The write itself: the word is stored, and a SYSCONFIG write with `SOFTRESET_BIT` set starts a soft reset in the same
step (10_state.md R32, R35). -/
def store (r : NvReg) (v : Word) (s : State) : State :=
  { s with
    bank := s.bank.put r v
    pend := s.pend || (r == .sysconfig && startsReset s.params v) }

/-- `MemWrite(r, 4, v)`: the state after the access, with its log event (20_memory.md R52, R58). -/
def memWrite (r : NvReg) (v : Word) (s : State) : State := (store r v (environment s)).emit (.write r.offset v)

/-! ### The completion of a command -/

/-- The command in progress ends with a response: the lock is released and `st.phase` returns to Idle (10_state.md R40;
60_exceptions.md R200). -/
def respond (r : Response) (s : State) : State :=
  { s with busy := false, phase := .idle, responses := s.responses ++ [r] }

/-- `return v`: status OK and result `v` (00_scope.md R11; 30_encoding.md R77). -/
def returnWord (v : Word) (s : State) : State := respond ⟨.ok, v, none⟩ s

/-- `raise E(info)`: TAKING AN ERROR, the one shared operation for it. Status E and result 0; nothing is saved, nothing is
rolled back, no mode changes (00_scope.md R11; 60_exceptions.md R190, R192, R196). There is no return from an error: the
next command is accepted as usual (R190, R197). -/
def raise (e : Status) (info : Option Word) (s : State) : State := respond ⟨e, 0, info⟩ s

end Sys2Proof.Machine
end

