-- ==== Sys2Proof/Machine/Sequencer.lean ====
section
/-! DEFINITION. `st.phase` at work (10_state.md R40): each phase makes ONE bus access and names what comes next. The phases
are the lines of the pseudocode of 40_engine.md R105 and R108, 43_fifo.md R151 and R152, 44_lifecycle_reset.md R161, R162,
R166 and R168, and 45_status.md R180 and R181. A command is run by its phases until it is complete. -/

namespace Sys2Proof.Machine

/-! ### The engine -/

/-- The register a descriptor reaches with the channel `c`, at `addr(d, c)` (20_memory.md R54; 40_engine.md R101, R104). -/
def target (d : Descriptor) (c : Chan) : NvReg :=
  match d.scope with
  | .global => .modulctrl
  | .perChannel => .conf c

/-- `FieldWrite(d, c, u)` begins: its RMW reads the register (40_engine.md R105). -/
def fieldWrite (d : Descriptor) (c : Chan) (u : Word) (k : After) : Phase := .rmwRead (target d c) d.mask (d.bits u) k

/-- `FieldRead(d, c)` begins (40_engine.md R108). -/
def fieldRead (f : FieldId) (d : Descriptor) (c : Chan) : Phase := .fieldRead f (target d c)

/-! ### The FIFO operations -/

/-- The disable loop of SETFIFO at channel `c`: `FieldWrite(FFE, c, 0)` (43_fifo.md R151). -/
def disableFifo (c : Chan) (s : State) : State :=
  s.setPhase (fieldWrite s.params.table.ffe c 0 (.disable c))

/-- The disable loop after the write of channel `c`: the next channel, or `return 0` (43_fifo.md R151). -/
def afterDisable (c : Chan) (s : State) : State := if c = 3 then returnWord 0 s else disableFifo (c + 1) s

/-- After the four reads of SETFIFO n: FifoConflict with the lowest other enabled channel, or the RMW of channel n
(43_fifo.md R151). -/
def enableFifo (n : Chan) (on : List Chan) (s : State) : State :=
  match on.find? (· != n) with
  | some c => raise .fifoConflict (some (c.setWidth 32)) s
  | none => s.setPhase (fieldWrite s.params.table.ffe n 1 .done)

/-- After the four reads of GETFIFO: the lowest enabled channel, or −1 (43_fifo.md R152). -/
def reportFifo (on : List Chan) (s : State) : State :=
  match on with
  | c :: _ => returnWord (c.setWidth 32) s
  | [] => returnWord 0xFFFFFFFF s

/-- After the four reads. -/
def decideFifo (t : Option Chan) (on : List Chan) (s : State) : State :=
  match t with
  | some n => enableFifo n on s
  | none => reportFifo on s

/-- `e[c] <- FieldRead(FFE, c)`: channel `c` joins the enabled ones when `e[c] = 1` (43_fifo.md R150-R152). -/
def fifoEnabled (p : Params) (c : Chan) (v : Word) (on : List Chan) : List Chan :=
  if p.table.ffe.extract v = 1 then on ++ [c] else on

/-- The scan after the read of channel `c`, whose register held `v`. -/
def afterScan (t : Option Chan) (c : Chan) (v : Word) (on : List Chan) (s : State) : State :=
  if c = 3 then decideFifo t (fifoEnabled s.params c v on) s
  else s.setPhase (.fifoScan t (c + 1) (fifoEnabled s.params c v on))

/-! ### The reset sequencer -/

/-- `ResetSequence()` begins: `st.seq <- Resetting(0)` and the RMW of SYSCONFIG that ORs in the soft-reset bit and clears no
other (44_lifecycle_reset.md R161). -/
def startReset (l : LifeCmd) (s : State) : State :=
  (s.setSeq (.resetting 0)).setPhase (.rmwRead .sysconfig 0 (bitWord s.params.softresetBit) (.polling l))

/-- The number of polls made so far (10_state.md R39). -/
def Seq.polls : Seq → Nat
  | .resetting k => k
  | .idle | .done | .failed => 0

/-- The end of INIT and TERM: `res` is read off `st.seq`, then `st.seq <- Idle`, then `st.life` and the response
(44_lifecycle_reset.md R164, R166, R168). -/
def conclude (l : LifeCmd) (s : State) : State :=
  match l, s.seq with
  | .init, .done => returnWord 0 { s with seq := .idle, life := .ready }
  | .init, _ => raise .resetTimeout none { s with seq := .idle, life := .uninitialized }
  | .term, .done => returnWord 0 { s with seq := .idle, life := .terminated }
  | .term, _ => raise .resetTimeout none { s with seq := .idle, life := .terminated }

/-- The poll loop's head: another poll while fewer than N were made, else Failed with one TIMEOUT event
(44_lifecycle_reset.md R162, R163). -/
def pollOrFail (l : LifeCmd) (s : State) : State :=
  if s.seq.polls < s.params.resetPollMax then s.setPhase (.poll l) else conclude l ((s.emit .timeout).setSeq .failed)

/-- After a poll that read `r`: the count goes up; Done if the ready bit is set (44_lifecycle_reset.md R162). -/
def afterPoll (l : LifeCmd) (r : Word) (s : State) : State :=
  if readyBit s.params r then conclude l (s.setSeq .done) else pollOrFail l (s.setSeq (.resetting (s.seq.polls + 1)))

/-- INIT's capture of the fields of REVISION (10_state.md R38; 44_lifecycle_reset.md R166). -/
def captureRevision (rev : Word) (s : State) : State :=
  { s with revMajor := revisionMajor rev, revMinor := revisionMinor rev }

/-- INIT after its REVISION read: the fields are captured and logged, then the reset begins (44_lifecycle_reset.md R166). -/
def afterRevision (rev : Word) (s : State) : State :=
  startReset .init ((captureRevision rev s).emit (.rev (revisionMajor rev) (revisionMinor rev)))

/-! ### One access -/

/-- What follows the write of an RMW. -/
def afterWrite (k : After) (s : State) : State :=
  match k with
  | .done => returnWord 0 s
  | .disable c => afterDisable c s
  | .polling l => pollOrFail l s

/-- The command in progress makes its next bus access. With no access to make (`idle`), the lock is released. -/
def access (s : State) : State :=
  match s.phase with
  | .idle => { s with busy := false }
  | .rmwRead r mask bits k => (memRead (.nv r) s).2.setPhase (.rmwWrite r mask bits (memRead (.nv r) s).1 k)
  | .rmwWrite r mask bits old k => afterWrite k (memWrite r (rmwWord old mask bits) s)
  | .fieldRead f r => returnWord ((s.params.table.get f).extract (memRead (.nv r) s).1) (memRead (.nv r) s).2
  | .fifoScan t c on =>
    afterScan t c (memRead (.nv (target s.params.table.ffe c)) s).1 on (memRead (.nv (target s.params.table.ffe c)) s).2
  | .revRead => afterRevision (memRead .revision s).1 (memRead .revision s).2
  | .poll l => afterPoll l (memRead .sysstatus s).1 (memRead .sysstatus s).2
  | .wordRead r => returnWord (memRead r s).1 (memRead r s).2

/-! ### A whole command -/

/-- "Every command performs at most max(8, 3 + N) bus accesses" (44_lifecycle_reset.md R169). -/
def accessBound (p : Params) : Nat := max 8 (3 + p.resetPollMax)

/-- Up to `n` accesses, until no command is in progress. -/
def runAccesses : Nat → State → State
  | 0, s => s
  | n + 1, s => if s.busy then runAccesses n (access s) else s

/-- The command whose first phase is in `s` takes the lock and runs to its completion (60_exceptions.md R200; log 20). -/
def runCommand (s : State) : State := runAccesses (accessBound s.params) s.lock

/-- A command whose first access is that of the phase `p`. -/
def runFrom (p : Phase) (s : State) : State := runCommand (s.setPhase p)

end Sys2Proof.Machine
end

