-- ==== Sys2Proof/Machine/Operands.lean ====
section
/-! DEFINITION. The operand forms (30_encoding.md R73, R74), the readiness check of every control operation
(60_exceptions.md R191), and the two shared operations of the parameter commands: `SetParam` and `GetParam` (40_engine.md
R105, R108). -/

namespace Sys2Proof.Machine

/-- The readiness check: a control operation outside Ready completes with DeviceNotReady, with no bus access
(60_exceptions.md R191, R193). -/
def whenReady (s : State) (run : State → Host.Outcome State Fault Refusal) : Host.Outcome State Fault Refusal :=
  if s.life = .ready then run s else .next (raise .deviceNotReady none s)

/-- An argument that is a channel index, read as unsigned: `none` above 3 (30_encoding.md R73). -/
def chanOfWord (w : Word) : Option Chan := if w ≤ 3 then some (w.setWidth 2) else none

/-- `ResolveChannel(cmd)` (30_encoding.md R74): the current channel, or the explicit one; `none` where it raises
InvalidChannel. -/
def resolveChannel (ch : Option Word) (s : State) : Option Chan :=
  match ch with
  | none => some s.curch
  | some w => chanOfWord w

/-- The channel of a descriptor access (40_engine.md R104): a Global descriptor uses none (0 stands for it and is not
used), a PerChannel descriptor the resolved one. -/
def descriptorChannel (d : Descriptor) (ch : Option Word) (s : State) : Option Chan :=
  match d.scope with
  | .global => some 0
  | .perChannel => resolveChannel ch s

/-- `SetParam(d, cmd)` (40_engine.md R105): the domain check, then the channel, then `FieldWrite`. -/
def setParam (f : FieldId) (arg : Word) (ch : Option Word) (s : State) : Host.Outcome State Fault Refusal :=
  whenReady s fun s =>
    let d := s.params.table.get f
    if d.valid arg then
      match descriptorChannel d ch s with
      | some c => .next (runFrom (fieldWrite d c arg .done) s)
      | none => .next (raise .invalidChannel ch s)
    else .next (raise .invalidValue (some arg) s)

/-- `GetParam(d, cmd)` (40_engine.md R108): the channel, then `FieldRead`. -/
def getParam (f : FieldId) (ch : Option Word) (s : State) : Host.Outcome State Fault Refusal :=
  whenReady s fun s =>
    let d := s.params.table.get f
    match descriptorChannel d ch s with
    | some c => .next (runFrom (fieldRead f d c) s)
    | none => .next (raise .invalidChannel ch s)

end Sys2Proof.Machine
end

