-- ==== Sys2Proof/Machine/Channel.lean ====
section
/-! DEFINITION. The current-channel operations SETCH and GETCH, which stand outside the descriptor table (40_engine.md
R106, R107). -/

namespace Sys2Proof.Machine

/-- SETCH (40_engine.md R106). -/
def execSetCh (arg : Word) (s : State) : Host.Outcome State Fault Refusal :=
  whenReady s fun s =>
    match chanOfWord arg with
    | some c => .next (returnWord 0 { s with curch := c })
    | none => .next (raise .invalidChannel (some arg) s)

/-- GETCH (40_engine.md R107). -/
def execGetCh (s : State) : Host.Outcome State Fault Refusal :=
  whenReady s fun s => .next (returnWord (s.curch.setWidth 32) s)

end Sys2Proof.Machine
end

