-- ==== Sys2Proof/Machine/Fifo.lean ====
section
/-! DEFINITION. The FIFO assignment operations SETFIFO and GETFIFO (43_fifo.md R151, R152). -/

namespace Sys2Proof.Machine

/-- SETFIFO (43_fifo.md R151): `s32(arg)` is −1 (disable globally) or a channel 0–3 (enable there, exclusively). -/
def execSetFifo (arg : Word) (s : State) : Host.Outcome State Fault Refusal :=
  whenReady s fun s =>
    if arg.toInt < -1 ∨ 3 < arg.toInt then .next (raise .invalidValue (some arg) s)
    else if arg.toInt = -1 then .next (runCommand (disableFifo 0 s))
    else .next (runFrom (.fifoScan (some (arg.setWidth 2)) 0 []) s)

/-- GETFIFO (43_fifo.md R152). -/
def execGetFifo (s : State) : Host.Outcome State Fault Refusal :=
  whenReady s fun s => .next (runFrom (.fifoScan none 0 []) s)

end Sys2Proof.Machine
end

