-- ==== Sys2Proof/Machine/Global.lean ====
section
/-! DEFINITION. The global parameters, four Global descriptors on MODULCTRL (41_global_params.md R120-R127): each is
`SetParam` or `GetParam` of its row of `FIELD_TABLE` (40_engine.md R111). `chv` and `ch` are ignored. -/

namespace Sys2Proof.Machine

/-- SETCSGM: set CS global mode (41_global_params.md R120). -/
def execSetCsgm (arg : Word) (s : State) : Host.Outcome State Fault Refusal := setParam .csgm arg none s

/-- GETCSGM: get CS global mode (41_global_params.md R121). -/
def execGetCsgm (s : State) : Host.Outcome State Fault Refusal := getParam .csgm none s

/-- SETMS: set master/slave mode (41_global_params.md R122). -/
def execSetMs (arg : Word) (s : State) : Host.Outcome State Fault Refusal := setParam .ms arg none s

/-- GETMS: get master/slave mode (41_global_params.md R123). -/
def execGetMs (s : State) : Host.Outcome State Fault Refusal := getParam .ms none s

/-- SETCHMODE: set channel mode (41_global_params.md R124). -/
def execSetChmode (arg : Word) (s : State) : Host.Outcome State Fault Refusal := setParam .chmode arg none s

/-- GETCHMODE: get channel mode (41_global_params.md R125). -/
def execGetChmode (s : State) : Host.Outcome State Fault Refusal := getParam .chmode none s

/-- SETINITDLY: set initial data delay (41_global_params.md R126). -/
def execSetInitdly (arg : Word) (s : State) : Host.Outcome State Fault Refusal := setParam .initdly arg none s

/-- GETINITDLY: get initial data delay (41_global_params.md R127). -/
def execGetInitdly (s : State) : Host.Outcome State Fault Refusal := getParam .initdly none s

end Sys2Proof.Machine
end

