-- ==== Sys2Proof/Machine/Lifecycle.lean ====
section
/-! DEFINITION. The lifecycle commands INIT and TERM (44_lifecycle_reset.md R166-R168). They do not pass the readiness
check of the control operations (60_exceptions.md R191). -/

namespace Sys2Proof.Machine

/-- INIT (44_lifecycle_reset.md R166); from Terminated it is DeviceNotReady (R167). -/
def execInit (s : State) : Host.Outcome State Fault Refusal :=
  if s.life = .terminated then .next (raise .deviceNotReady none s) else .next (runFrom .revRead s)

/-- TERM (44_lifecycle_reset.md R168): the reset sequence runs unconditionally, from any lifecycle state. -/
def execTerm (s : State) : Host.Outcome State Fault Refusal := .next (runCommand (startReset .term s))

end Sys2Proof.Machine
end

