-- ==== Sys2Proof/Machine/PerChannel.lean ====
section
/-! DEFINITION. The per-channel parameters, nine PerChannel descriptors on CHxCONF (42_channel_params.md R130-R148): each
is `SetParam` or `GetParam` of its row of `FIELD_TABLE` (40_engine.md R111), on the channel the command resolves
(30_encoding.md R74). -/

namespace Sys2Proof.Machine

/-- SETTRM: set transfer mode (42_channel_params.md R130). -/
def execSetTrm (arg : Word) (ch : Option Word) (s : State) : Host.Outcome State Fault Refusal := setParam .trm arg ch s

/-- GETTRM: get transfer mode (42_channel_params.md R131). -/
def execGetTrm (ch : Option Word) (s : State) : Host.Outcome State Fault Refusal := getParam .trm ch s

/-- SETLAYOUT: set pin layout (42_channel_params.md R132). -/
def execSetLayout (arg : Word) (ch : Option Word) (s : State) : Host.Outcome State Fault Refusal := setParam .layout arg ch s

/-- GETLAYOUT: get pin layout (42_channel_params.md R133). -/
def execGetLayout (ch : Option Word) (s : State) : Host.Outcome State Fault Refusal := getParam .layout ch s

/-- SETWL: set word length (42_channel_params.md R134). -/
def execSetWl (arg : Word) (ch : Option Word) (s : State) : Host.Outcome State Fault Refusal := setParam .wl arg ch s

/-- GETWL: get word length (42_channel_params.md R135). -/
def execGetWl (ch : Option Word) (s : State) : Host.Outcome State Fault Refusal := getParam .wl ch s

/-- SETTCS: set chip-select delay (42_channel_params.md R136). -/
def execSetTcs (arg : Word) (ch : Option Word) (s : State) : Host.Outcome State Fault Refusal := setParam .tcs arg ch s

/-- GETTCS: get chip-select delay (42_channel_params.md R137). -/
def execGetTcs (ch : Option Word) (s : State) : Host.Outcome State Fault Refusal := getParam .tcs ch s

/-- SETEPOL: set chip-select polarity (42_channel_params.md R138). -/
def execSetEpol (arg : Word) (ch : Option Word) (s : State) : Host.Outcome State Fault Refusal := setParam .epol arg ch s

/-- GETEPOL: get chip-select polarity (42_channel_params.md R139). -/
def execGetEpol (ch : Option Word) (s : State) : Host.Outcome State Fault Refusal := getParam .epol ch s

/-- SETFORCE: set chip-select forced state (42_channel_params.md R140). -/
def execSetForce (arg : Word) (ch : Option Word) (s : State) : Host.Outcome State Fault Refusal := setParam .force arg ch s

/-- GETFORCE: get chip-select forced state (42_channel_params.md R141). -/
def execGetForce (ch : Option Word) (s : State) : Host.Outcome State Fault Refusal := getParam .force ch s

/-- SETCLKD: set clock frequency divisor (42_channel_params.md R142). -/
def execSetClkd (arg : Word) (ch : Option Word) (s : State) : Host.Outcome State Fault Refusal := setParam .clkd arg ch s

/-- GETCLKD: get clock frequency divisor (42_channel_params.md R143). -/
def execGetClkd (ch : Option Word) (s : State) : Host.Outcome State Fault Refusal := getParam .clkd ch s

/-- SETPHA: set clock phase (42_channel_params.md R144). -/
def execSetPha (arg : Word) (ch : Option Word) (s : State) : Host.Outcome State Fault Refusal := setParam .pha arg ch s

/-- GETPHA: get clock phase (42_channel_params.md R145). -/
def execGetPha (ch : Option Word) (s : State) : Host.Outcome State Fault Refusal := getParam .pha ch s

/-- SETPOL: set clock polarity (42_channel_params.md R146). -/
def execSetPol (arg : Word) (ch : Option Word) (s : State) : Host.Outcome State Fault Refusal := setParam .pol arg ch s

/-- GETPOL: get clock polarity (42_channel_params.md R147). -/
def execGetPol (ch : Option Word) (s : State) : Host.Outcome State Fault Refusal := getParam .pol ch s

end Sys2Proof.Machine
end

