-- ==== Sys2Proof/Machine/Status.lean ====
section
/-! DEFINITION. The status reporter GETDEVSTAT and GETCHSTAT (45_status.md R180, R181). -/

namespace Sys2Proof.Machine

/-- GETDEVSTAT (45_status.md R180): the whole word at `DEVICE_STATUS_OFF`. The offset is a parameter, so the bus's own
check stands here: it admits only the offsets of the map (20_memory.md R56) and gives an opaque register no meaning (U18).
The default, SYSSTATUS, passes it. -/
def execGetDevStat (s : State) : Host.Outcome State Fault Refusal :=
  whenReady s fun s =>
    match mapAt s.params.deviceStatusOff with
    | some (.reg r) => .next (runFrom (.wordRead r) s)
    | some (.opaq _) => .refused (.opaqueRegister s.params.deviceStatusOff)
    | none => .refused (.offsetNotInMap s.params.deviceStatusOff)

/-- GETCHSTAT (45_status.md R181): the channel is the argument, not the current one. -/
def execGetChStat (arg : Word) (s : State) : Host.Outcome State Fault Refusal :=
  whenReady s fun s =>
    match chanOfWord arg with
    | some c => .next (runFrom (.wordRead (.stat c)) s)
    | none => .next (raise .invalidChannel (some arg) s)

end Sys2Proof.Machine
end

