-- ==== Sys2Proof/Machine/Dispatch.lean ====
section
/-! DEFINITION. exec: one arm per constructor of Instr, each one direct call of that instruction's meaning. -/

namespace Sys2Proof.Machine

def exec (i : Instr) (s : State) : Host.Outcome State Fault Refusal :=
  match i with
  | .setCh arg => Sys2Proof.Machine.execSetCh arg s
  | .getCh => Sys2Proof.Machine.execGetCh s
  | .setFifo arg => Sys2Proof.Machine.execSetFifo arg s
  | .getFifo => Sys2Proof.Machine.execGetFifo s
  | .setCsgm arg => Sys2Proof.Machine.execSetCsgm arg s
  | .getCsgm => Sys2Proof.Machine.execGetCsgm s
  | .setMs arg => Sys2Proof.Machine.execSetMs arg s
  | .getMs => Sys2Proof.Machine.execGetMs s
  | .setChmode arg => Sys2Proof.Machine.execSetChmode arg s
  | .getChmode => Sys2Proof.Machine.execGetChmode s
  | .setInitdly arg => Sys2Proof.Machine.execSetInitdly arg s
  | .getInitdly => Sys2Proof.Machine.execGetInitdly s
  | .setTrm arg ch => Sys2Proof.Machine.execSetTrm arg ch s
  | .getTrm ch => Sys2Proof.Machine.execGetTrm ch s
  | .setLayout arg ch => Sys2Proof.Machine.execSetLayout arg ch s
  | .getLayout ch => Sys2Proof.Machine.execGetLayout ch s
  | .setWl arg ch => Sys2Proof.Machine.execSetWl arg ch s
  | .getWl ch => Sys2Proof.Machine.execGetWl ch s
  | .setTcs arg ch => Sys2Proof.Machine.execSetTcs arg ch s
  | .getTcs ch => Sys2Proof.Machine.execGetTcs ch s
  | .setEpol arg ch => Sys2Proof.Machine.execSetEpol arg ch s
  | .getEpol ch => Sys2Proof.Machine.execGetEpol ch s
  | .setForce arg ch => Sys2Proof.Machine.execSetForce arg ch s
  | .getForce ch => Sys2Proof.Machine.execGetForce ch s
  | .setClkd arg ch => Sys2Proof.Machine.execSetClkd arg ch s
  | .getClkd ch => Sys2Proof.Machine.execGetClkd ch s
  | .setPha arg ch => Sys2Proof.Machine.execSetPha arg ch s
  | .getPha ch => Sys2Proof.Machine.execGetPha ch s
  | .setPol arg ch => Sys2Proof.Machine.execSetPol arg ch s
  | .getPol ch => Sys2Proof.Machine.execGetPol ch s
  | .getDevStat => Sys2Proof.Machine.execGetDevStat s
  | .getChStat arg => Sys2Proof.Machine.execGetChStat arg s
  | .init => Sys2Proof.Machine.execInit s
  | .term => Sys2Proof.Machine.execTerm s

end Sys2Proof.Machine
end

