-- ==== Sys2Proof/WellFormed.lean ====
section
/-! DEFINITION. Well-formedness checks, each a Bool: of a command record (30_encoding.md R70-R75), of `FIELD_TABLE`
(40_engine.md R101; the "build-time check" of D39, which Machine/Construct.lean makes and the running block does not repeat)
and of the parameters (00_scope.md R8; 10_state.md R33). Every term of Instr is well-formed: its record is (Laws/PerInstr.lean). -/

namespace Sys2Proof

/-! ### Command records -/

/-- The operation codes of 30_encoding.md R72. -/
def namedOps : List Nat := List.range' 1 15 ++ List.range' 101 15 ++ [200, 201]

/-- The operations that read `arg`: the sets and GETCHSTAT (30_encoding.md R73). -/
def argOps : List Nat := List.range' 1 15 ++ [201]

/-- The per-channel operations, "ops 7–15 and 107–115" (30_encoding.md R74). -/
def channelOps : List Nat := List.range' 7 9 ++ List.range' 107 9

/-- The record names a command: `kind` and `op` are not reserved (30_encoding.md R71, R75). -/
def Cmd.named (c : Cmd) : Bool :=
  c.kind == 1 || c.kind == 2 || (c.kind == 0 && namedOps.contains c.op.toNat)

/-- `op` is 0 where the command ignores it (30_encoding.md R70). -/
def Cmd.opPlain (c : Cmd) : Bool := c.kind == 0 || c.op == 0

/-- `arg` is 0 where the command ignores it (30_encoding.md R73). -/
def Cmd.argPlain (c : Cmd) : Bool := (c.kind == 0 && argOps.contains c.op.toNat) || c.arg == 0

/-- `chv` is 0 where the command ignores it (30_encoding.md R74). -/
def Cmd.chvPlain (c : Cmd) : Bool := (c.kind == 0 && channelOps.contains c.op.toNat) || !c.chv

/-- `ch` is 0 where `chv = 0`: it is "read only when chv = 1" (30_encoding.md R70). -/
def Cmd.chPlain (c : Cmd) : Bool := c.chv || c.ch == 0

/-- A well-formed record: it names a command, and the fields the command ignores are written 0 (95_test_vectors.md,
Conventions). The decoder accepts every record that names a command, well-formed or not. -/
def Cmd.wellFormed (c : Cmd) : Bool := c.named && c.opPlain && c.argPlain && c.chvPlain && c.chPlain

/-! ### The descriptor table -/

/-- 40_engine.md R101 condition 1. -/
def Descriptor.fits (d : Descriptor) : Bool := decide (1 ≤ d.w) && decide (d.pos + d.w ≤ 32)

/-- 40_engine.md R101 condition 3. -/
def Descriptor.encFits (d : Descriptor) : Bool := d.dom.all fun v => decide ((d.codec.enc v).toNat < 2 ^ d.w)

/-- 40_engine.md R101 condition 4. -/
def Descriptor.roundTrips (d : Descriptor) : Bool := d.dom.all fun v => d.codec.dec (d.codec.enc v) == v

/-- Conditions 1, 3 and 4 of 40_engine.md R101. Conditions 2 and 6 hold of every `Descriptor` by its type (logs 2, 3). -/
def Descriptor.wellFormed (d : Descriptor) : Bool := d.fits && d.encFits && d.roundTrips

/-- Two descriptors of the same register have disjoint masks (40_engine.md R101 condition 5). -/
def FieldTable.disjointAt (t : FieldTable) (f g : FieldId) : Bool :=
  f == g || (t.get f).scope != (t.get g).scope || (t.get f).mask &&& (t.get g).mask == 0

/-- 40_engine.md R101 condition 5. -/
def FieldTable.disjoint (t : FieldTable) : Bool := FieldId.all.all fun f => FieldId.all.all fun g => t.disjointAt f g

/-- Every row has the scope the operation map gives it (30_encoding.md R72; log 18). -/
def FieldTable.scoped (t : FieldTable) : Bool := FieldId.all.all fun f => (t.get f).scope == f.scope

/-- FFE is the FIFO enable: its domain is {0 = disabled, 1 = enabled} and it reads 1 exactly when the field is non-zero
(40_engine.md R102; 43_fifo.md R150; log 18). -/
def FieldTable.fifoRow (t : FieldTable) : Bool :=
  t.ffe.dom == [0, 1] &&
    (List.range (2 ^ t.ffe.w)).all fun f => t.ffe.codec.dec (BitVec.ofNat 32 f) == if f = 0 then 0 else 1

/-- A table that meets the six conditions: the others are refused at build time (40_engine.md R101; U22). -/
def FieldTable.admitted (t : FieldTable) : Bool := (FieldId.all.all fun f => (t.get f).wellFormed) && t.disjoint

/-- An admitted table whose rows are those of the 14 parameters the commands name (log 18). -/
def FieldTable.wellFormed (t : FieldTable) : Bool := t.admitted && t.scoped && t.fifoRow

/-! ### The parameters -/

/-- At most one of four conf words has a non-zero FFE field: FIFO exclusivity (10_state.md R33, R42). -/
def FieldTable.exclusive (t : FieldTable) (conf : Vector Word 4) : Bool :=
  decide ((conf.toList.countP fun v => t.ffe.field v != 0) ≤ 1)

/-- The constraints on `RESET_VALUE` (10_state.md R33). -/
def Params.resetValueAdmitted (p : Params) : Bool :=
  !p.resetValue.sysconfig.getLsbD p.softresetBit && p.table.exclusive p.resetValue.conf

/-- The bits are bits of a 32-bit word, and `RESET_POLL_MAX` is an "integer ≥ 1" (00_scope.md R8). -/
def Params.ranged (p : Params) : Bool :=
  decide (1 ≤ p.resetPollMax) && decide (p.softresetBit < 32) && decide (p.resetdoneBit < 32)

/-- The values beside the table are ones the spec admits (00_scope.md R8; 10_state.md R33). -/
def Params.valuesAdmitted (p : Params) : Bool := p.resetValueAdmitted && p.ranged

/-- Parameters the spec admits, with a table of the commands' parameters (log 18). -/
def Params.wellFormed (p : Params) : Bool := p.table.wellFormed && p.valuesAdmitted

end Sys2Proof
end

