-- ==== Sys2Proof/Decode.lean ====
section
/-! DEFINITION. The decoder, total on every command record (30_encoding.md R78), the encoder, written from the same tables
(R71, R72), and the command an opcode-table word stands for. -/

namespace Sys2Proof

/-! ### Decoding -/

/-- The explicit channel of a record: `ch` where `chv = 1` (30_encoding.md R74). -/
def Cmd.explicit (c : Cmd) : Option Word := if c.chv then some c.ch else none

/-- The control operation codes (30_encoding.md R72); every other code is reserved (R75). -/
def decodeOp (op : Nat) (arg : Word) (ch : Option Word) : Option Instr :=
  match op with
  | 1 => some (.setCh arg)
  | 2 => some (.setFifo arg)
  | 3 => some (.setCsgm arg)
  | 4 => some (.setMs arg)
  | 5 => some (.setChmode arg)
  | 6 => some (.setInitdly arg)
  | 7 => some (.setTrm arg ch)
  | 8 => some (.setLayout arg ch)
  | 9 => some (.setWl arg ch)
  | 10 => some (.setTcs arg ch)
  | 11 => some (.setEpol arg ch)
  | 12 => some (.setForce arg ch)
  | 13 => some (.setClkd arg ch)
  | 14 => some (.setPha arg ch)
  | 15 => some (.setPol arg ch)
  | 101 => some .getCh
  | 102 => some .getFifo
  | 103 => some .getCsgm
  | 104 => some .getMs
  | 105 => some .getChmode
  | 106 => some .getInitdly
  | 107 => some (.getTrm ch)
  | 108 => some (.getLayout ch)
  | 109 => some (.getWl ch)
  | 110 => some (.getTcs ch)
  | 111 => some (.getEpol ch)
  | 112 => some (.getForce ch)
  | 113 => some (.getClkd ch)
  | 114 => some (.getPha ch)
  | 115 => some (.getPol ch)
  | 200 => some .getDevStat
  | 201 => some (.getChStat arg)
  | _ => none

/-- `Decode(cmd)` (30_encoding.md R78): `none` is RESERVED, which completes with UnknownOperation (R75). Decoding reads no
state; `op` is not read unless `kind = 0` (R70). -/
def decode (c : Cmd) : Option Instr :=
  match c.kind.toNat with
  | 0 => decodeOp c.op.toNat c.arg c.explicit
  | 1 => some .init
  | 2 => some .term
  | _ => none

/-! ### Encoding -/

/-- A control operation with an argument and no channel. -/
def Cmd.ctrl (op : Nat) (arg : Word) : Cmd := ⟨0, BitVec.ofNat 32 op, arg, false, 0⟩

/-- A per-channel control operation. -/
def Cmd.ctrlCh (op : Nat) (arg : Word) (ch : Option Word) : Cmd := ⟨0, BitVec.ofNat 32 op, arg, ch.isSome, ch.getD 0⟩

/-- A lifecycle command. -/
def Cmd.life (kind : Nat) : Cmd := ⟨BitVec.ofNat 2 kind, 0, 0, false, 0⟩

/-- The record of a command (30_encoding.md R71, R72); "fields the command ignores are written 0" (95_test_vectors.md). -/
def encode : Instr → Cmd
  | .setCh arg => .ctrl 1 arg
  | .getCh => .ctrl 101 0
  | .setFifo arg => .ctrl 2 arg
  | .getFifo => .ctrl 102 0
  | .setCsgm arg => .ctrl 3 arg
  | .getCsgm => .ctrl 103 0
  | .setMs arg => .ctrl 4 arg
  | .getMs => .ctrl 104 0
  | .setChmode arg => .ctrl 5 arg
  | .getChmode => .ctrl 105 0
  | .setInitdly arg => .ctrl 6 arg
  | .getInitdly => .ctrl 106 0
  | .setTrm arg ch => .ctrlCh 7 arg ch
  | .getTrm ch => .ctrlCh 107 0 ch
  | .setLayout arg ch => .ctrlCh 8 arg ch
  | .getLayout ch => .ctrlCh 108 0 ch
  | .setWl arg ch => .ctrlCh 9 arg ch
  | .getWl ch => .ctrlCh 109 0 ch
  | .setTcs arg ch => .ctrlCh 10 arg ch
  | .getTcs ch => .ctrlCh 110 0 ch
  | .setEpol arg ch => .ctrlCh 11 arg ch
  | .getEpol ch => .ctrlCh 111 0 ch
  | .setForce arg ch => .ctrlCh 12 arg ch
  | .getForce ch => .ctrlCh 112 0 ch
  | .setClkd arg ch => .ctrlCh 13 arg ch
  | .getClkd ch => .ctrlCh 113 0 ch
  | .setPha arg ch => .ctrlCh 14 arg ch
  | .getPha ch => .ctrlCh 114 0 ch
  | .setPol arg ch => .ctrlCh 15 arg ch
  | .getPol ch => .ctrlCh 115 0 ch
  | .getDevStat => .ctrl 200 0
  | .getChStat arg => .ctrl 201 arg
  | .init => .life 1
  | .term => .life 2

/-! ### The bits of spec/opcode_table.json -/

/-- The record whose table bits are `w` (log 16). The table numbers the bits of a control operation from bit 0 of `op`
("match_field": "op (with kind = 0)") and gives it 32 bits; it numbers those of INIT and TERM from bit 0 of `kind`
("match_field": "kind") and gives them fewer. The record's later fields, `arg`, `chv` and `ch`, count on from bit 32. -/
def Cmd.ofTableWord (nbits w : Nat) : Cmd :=
  let v := w % 2 ^ nbits
  if nbits < 32 then ⟨BitVec.ofNat 2 v, 0, 0, false, 0⟩
  else ⟨0, BitVec.ofNat 32 v, BitVec.ofNat 32 (v >>> 32), v.testBit 64, BitVec.ofNat 32 (v >>> 65)⟩

/-- The instruction the decoder reads from an opcode-table word. -/
def decodeTableWord (nbits w : Nat) : Option Instr := decode (Cmd.ofTableWord nbits w)

end Sys2Proof
end

