-- ==== Sys2Proof/Machine/Port.lean ====
section
/-! DEFINITION. The command port: submitting a command record and accepting one of those that wait (60_exceptions.md R200,
R206). -/

namespace Sys2Proof.Machine

/-- A context submits a command record: it joins those that wait (60_exceptions.md R206; log 8). -/
def submit (c : Cmd) (s : State) : State := { s with waiting := s.waiting ++ [c] }

/-- The port's choice at the next acceptance among several: the head of `picks`, else the free value (log 7). -/
def State.pick (s : State) : Nat :=
  match s.picks with
  | n :: _ => n
  | [] => Config.acceptChoice s.pickTick

/-- The command accepted next and the state without it: "one waiting command, any one, is accepted next"
(60_exceptions.md R200). A single waiting command needs no choice. -/
def accept (s : State) : Option (Cmd × State) :=
  match s.waiting with
  | [] => none
  | [c] => some (c, { s with waiting := [] })
  | c :: d :: rest =>
    let cs := c :: d :: rest
    some (cs.getD (s.pick % cs.length) c,
      { s with
        waiting := cs.eraseIdx (s.pick % cs.length)
        picks := s.picks.tail
        pickTick := s.pickTick + 1 })

end Sys2Proof.Machine
end

