-- ==== Sys2Proof/Machine/Step.lean ====
section
/-! DEFINITION. One step of the machine. -/

namespace Sys2Proof.Machine

/-- An accepted record is decoded and run; a reserved one completes with UnknownOperation, with no bus access and no
state change (30_encoding.md R75, R78). -/
def execCmd (c : Cmd) (s : State) : Host.Outcome State Fault Refusal :=
  match decode c with
  | some i => exec i s
  | none => .next (raise .unknownOperation none s)

/-- One step (log 6).
While a command holds the lock it makes its next bus access, and every waiting command waits (60_exceptions.md R200).
Otherwise one waiting command is accepted and run to its completion.
With none waiting, the environment alone may act (10_state.md R35). -/
def step (s : State) : Host.Outcome State Fault Refusal :=
  if s.busy then .next (access s)
  else
    match accept s with
    | some (c, t) => execCmd c t
    | none => .next (environment s)

/-- The state whose next step accepts exactly the command of an opcode-table word: no command is in progress and this one
alone waits (log 16). -/
def State.withFetchWord (s : State) (nbits w : Nat) : State :=
  { s with busy := false, phase := .idle, waiting := [Cmd.ofTableWord nbits w] }

end Sys2Proof.Machine
end

