-- ==== Sys2Proof/Machine/Construct.lean ====
section
/-! DEFINITION. The construction of a block, with the build-time check of its parameters (40_engine.md R101; D39, D42). -/

namespace Sys2Proof.Machine

/-- "The block is constructed once at bind time" (10_state.md R43): a table that fails R101 is refused (U22), a value outside
its range too (log 22), and any other parameters give the power-on state. The running block does not check again (D39). -/
def State.construct (p : Params) (word : Nat → Word) : Host.Outcome State Fault Refusal :=
  if p.table.admitted = false then .refused .tableRefused
  else if p.valuesAdmitted = false then .refused .valueRefused
  else .next (State.powerOn p word)

end Sys2Proof.Machine
end

