-- ==== Sys2Proof/Safety.lean ====
section
/-! DEFINITION. What counts as a safe run, in the terms the statements use: the invariant of the states between commands
(10_state.md R39, R40, R42; 44_lifecycle_reset.md R170), and the names the statements share. -/

namespace Sys2Proof.Machine

/-! ### The invariant -/

/-- No command is executing: the lock is free, and `st.phase` and `st.seq` are Idle (10_state.md R39, R40, R44). -/
abbrev State.Quiet (s : State) : Prop := s.busy = false ∧ s.phase = .idle ∧ s.seq = .idle

/-- The parameters are ones the spec admits, with a table of the commands' parameters (40_engine.md R101; 10_state.md R33;
00_scope.md R8; log 18). -/
abbrev State.Admitted (s : State) : Prop := s.params.wellFormed = true

/-- At most one channel has a non-zero FFE field (10_state.md R42). -/
abbrev State.FifoExclusive (s : State) : Prop := s.params.table.exclusive s.bank.conf = true

/-- In a Ready state no soft reset is in progress (44_lifecycle_reset.md R170) and the FIFO is exclusive (10_state.md
R42). -/
abbrev State.ReadySound (s : State) : Prop := s.life = .ready → s.pend = false ∧ s.FifoExclusive

/-- The invariant of every state between two commands. -/
abbrev State.Inv (s : State) : Prop := s.Quiet ∧ s.Admitted ∧ s.ReadySound

/-! ### Safe steps -/

end Sys2Proof.Machine

/-- `DEVICE_STATUS_OFF` is the offset of a register the block reads (log 13). -/
def Sys2Proof.Params.statusReadable (p : Sys2Proof.Params) : Bool :=
  match Sys2Proof.Machine.mapAt p.deviceStatusOff with
  | some (.reg _) => true
  | _ => false

namespace Sys2Proof.Machine

/-- The step ends in a next state: no fault and no refusal. -/
def State.StepsOn (s : State) : Prop := ∃ t, step s = .next t

/-! ### Names the statements share -/

/-- The settable parameters of the table, each with its set command; FFE has none of its own (40_engine.md R102). -/
def setCommand (f : FieldId) (arg : Word) (ch : Option Word) : Option Instr :=
  match f with
  | .csgm => some (.setCsgm arg)
  | .ms => some (.setMs arg)
  | .chmode => some (.setChmode arg)
  | .initdly => some (.setInitdly arg)
  | .ffe => none
  | .trm => some (.setTrm arg ch)
  | .layout => some (.setLayout arg ch)
  | .wl => some (.setWl arg ch)
  | .tcs => some (.setTcs arg ch)
  | .epol => some (.setEpol arg ch)
  | .force => some (.setForce arg ch)
  | .clkd => some (.setClkd arg ch)
  | .pha => some (.setPha arg ch)
  | .pol => some (.setPol arg ch)

/-- The same parameters, each with its get command. -/
def getCommand (f : FieldId) (ch : Option Word) : Option Instr :=
  match f with
  | .csgm => some .getCsgm
  | .ms => some .getMs
  | .chmode => some .getChmode
  | .initdly => some .getInitdly
  | .ffe => none
  | .trm => some (.getTrm ch)
  | .layout => some (.getLayout ch)
  | .wl => some (.getWl ch)
  | .tcs => some (.getTcs ch)
  | .epol => some (.getEpol ch)
  | .force => some (.getForce ch)
  | .clkd => some (.getClkd ch)
  | .pha => some (.getPha ch)
  | .pol => some (.getPol ch)

/-- An event of a bus access, not a diagnostic one (20_memory.md R58). -/
def Event.isBus : Event → Bool
  | .read _ _ | .write _ _ => true
  | .rev _ _ | .timeout => false

/-- A write event. -/
def Event.isWrite : Event → Bool
  | .write _ _ => true
  | .read _ _ | .rev _ _ | .timeout => false

end Sys2Proof.Machine
end

