-- ==== Sys2Proof/Certificates/Slice0/Obligations.lean ====
section
/-! DEFINITION. The statements for the provers. "Quiet" parts of a next state (`busy := false`, `phase := .idle`) are those of
the completed command. A statement that is not marked otherwise holds under every parameter record and for every choice of
the environment. "An admitted table" is one under `State.Admitted`: it meets 40_engine.md R101 and the two checks of log 18.
Where a rule is the spec's own decision or derivation, the docstring names it. -/

open Sys2Proof Sys2Proof.Machine

/-! ### Encoding -/

/-- Records decode as the spec writes them (30_encoding.md R71-R74, R78, R80; 95_test_vectors.md L2.1). -/
def Obligations.RecordsDecodeAsWritten : Prop :=
  decode ⟨0, 1, 2, false, 0⟩ = some (.setCh 2) ∧
  decode ⟨0, 2, 0xFFFFFFFF, false, 0⟩ = some (.setFifo 0xFFFFFFFF) ∧
  decode ⟨0, 9, 8, false, 0⟩ = some (.setWl 8 none) ∧
  decode ⟨0, 13, 5, false, 9⟩ = some (.setClkd 5 none) ∧
  decode ⟨0, 114, 0, true, 2⟩ = some (.getPha (some 2)) ∧
  decode ⟨0, 109, 0xDEADBEEF, false, 0⟩ = some (.getWl none) ∧
  decode ⟨0, 4, 0, true, 9⟩ = some (.setMs 0) ∧
  decode ⟨0, 200, 0, false, 0⟩ = some .getDevStat ∧
  decode ⟨0, 201, 1, true, 3⟩ = some (.getChStat 1) ∧
  decode ⟨1, 9, 8, true, 2⟩ = some .init ∧
  decode ⟨2, 0, 0, false, 0⟩ = some .term

/-- Decoding an encoded command gives it back, with every argument and every channel operand (30_encoding.md R70-R74). -/
def Obligations.DecodeOfEncodeIsTheCommand : Prop := ∀ i : Instr, decode (encode i) = some i

/-- Every well-formed record is the encoding of the command it decodes to: the table has no two spellings. -/
def Obligations.WellFormedRecordsAreEncodings : Prop :=
  ∀ c : Cmd, c.wellFormed = true → ∃ i, decode c = some i ∧ encode i = c

/-- The decoder refuses exactly the reserved encodings (30_encoding.md R75, R78; the decision D6). -/
def Obligations.DecoderRefusesExactlyTheReserved : Prop :=
  ∀ c : Cmd, decode c = none ↔
    c.kind = 3 ∨ c.kind = 0 ∧
      (c.op.toNat = 0 ∨ (16 ≤ c.op.toNat ∧ c.op.toNat ≤ 100) ∨ (116 ≤ c.op.toNat ∧ c.op.toNat ≤ 199) ∨
        202 ≤ c.op.toNat)

/-- A reserved record completes with UnknownOperation and result 0, with no bus access and no state change
(30_encoding.md R71, R75; the decision D6). -/
def Obligations.ReservedRecordAnswersUnknownOperation : Prop :=
  ∀ (s t : State) (c : Cmd), s.busy = false → accept s = some (c, t) → decode c = none →
    step s = .next { t with
      busy := false
      phase := .idle
      responses := t.responses ++ [⟨.unknownOperation, 0, none⟩] }

/-! ### One step -/

/-- A step runs the decoded command: with the lock free, the accepted record's command is executed on the state the port
leaves (30_encoding.md R78; 60_exceptions.md R200), the whole command in one step, which is the model's choice (log 6); and the
command of an opcode-table word is the one `withFetchWord` makes the next step run, which is the model's choice too (log 16). -/
def Obligations.StepRunsTheDecodedCommand : Prop :=
  (∀ (s t : State) (c : Cmd) (i : Instr), s.busy = false → accept s = some (c, t) → decode c = some i →
    step s = exec i t) ∧
  (∀ (s : State) (nbits w : Nat) (i : Instr), decodeTableWord nbits w = some i →
    step (s.withFetchWord nbits w) = exec i { s with busy := false, phase := .idle, waiting := [] })

/-- The port accepts a command whenever one waits, and none otherwise; the one accepted was waiting and waits no more, and
nothing but the port's own choice changes; with several waiting every one can be the next, the choice is free
(60_exceptions.md R200; the decision D28). -/
def Obligations.AnyWaitingCommandCanBeNext : Prop :=
  (∀ s : State, s.waiting ≠ [] → ∃ c t, accept s = some (c, t)) ∧
  (∀ s : State, s.waiting = [] → accept s = none) ∧
  (∀ (s t : State) (c : Cmd), accept s = some (c, t) →
    ∃ pre post, s.waiting = pre ++ c :: post ∧
      t = { s with waiting := pre ++ post, picks := t.picks, pickTick := t.pickTick }) ∧
  (∀ (s : State) (pre post : List Cmd) (c : Cmd), s.waiting = pre ++ c :: post →
    ∃ n t, accept { s with picks := n :: s.picks } = some (c, t) ∧ t.waiting = pre ++ post)

/-- While a command holds the lock, a step makes exactly one bus access of that command and every waiting command waits
(10_state.md R40; 60_exceptions.md R200). That a step from a state in the middle of a command is ONE access is the model's choice
(log 6): no run has such a state between two steps. -/
def Obligations.LockedStepMakesOneBusAccess : Prop :=
  ∀ s : State, s.busy = true → s.phase ≠ .idle →
    ∃ t e diag, step s = .next t ∧ t.waiting = s.waiting ∧ t.moves = s.moves.tail ∧
      t.log = s.log ++ e :: diag ∧ e.isBus = true ∧ ∀ d ∈ diag, d.isBus = false

/-- With no command executing and none waiting, only the environment can act: ResetComplete when it is enabled and chosen,
else nothing. ResetComplete loads every non-volatile register, clears `pend` and touches no control state (10_state.md R35;
the decision D19). -/
def Obligations.IdleStepIsTheEnvironments : Prop :=
  ∀ s : State, s.busy = false → s.waiting = [] →
    step s = .next { s with
      bank := if s.pend && s.move.complete
        then ⟨s.params.resetValue.sysconfig, s.params.resetValue.modulctrl, s.params.resetValue.conf⟩ else s.bank
      pend := s.pend && !s.move.complete
      moves := s.moves.tail
      tick := s.tick + 1 }

/-! ### Bus accesses and addressing -/

/-- `MemRead` and `MemWrite` are each one access of an offset of the map, with the value of the register's class and one
log event, after the environment's choice; neither can fail (20_memory.md R52; 10_state.md R32, R35). -/
def Obligations.BusAccessesFollowTheRegisterClasses : Prop :=
  (∀ (r : Reg) (s : State), let e := environment s; let v := (memRead r s).1
    (memRead r s).2 = { e with log := s.log ++ [.read r.offset v] } ∧
    (∃ m, mapAt r.offset = some m) ∧
    v = match r with
      | .revision => s.params.hwRevision
      | .nv q => if e.pend then s.move.draw else e.bank.word q
      | .sysstatus => (s.move.draw &&& ~~~(1#32 <<< s.params.resetdoneBit)) |||
          ((if e.pend then 0#32 else 1#32) <<< s.params.resetdoneBit)
      | .stat _ => s.move.draw) ∧
  (∀ (r : NvReg) (v : Word) (s : State), let e := environment s; let t := memWrite r v s
    t = { e with bank := t.bank, pend := t.pend, log := s.log ++ [.write r.offset v] } ∧
    (∃ m, mapAt r.offset = some m) ∧
    (∀ q, t.bank.word q = if q = r then v else e.bank.word q) ∧
    (t.pend = true ↔ e.pend = true ∨ r = .sysconfig ∧ v.getLsbD s.params.softresetBit = true))

/-- The channel offset formula, its range and the source's worked example (20_memory.md R53). -/
def Obligations.ChannelOffsetFormula : Prop :=
  (∀ c rel, channelOffset c rel = 0x12c + c * 0x14 + rel) ∧
  (∀ c ≤ 3, ∀ rel ≤ 0x10, channelOffset c rel ≤ 0x178 ∧ channelOffset c rel < offXferLevel) ∧
  channelOffset 2 relConf = 0x154

/-- Descriptor address resolution, and the register the engine accesses stands at that address (20_memory.md R54). -/
def Obligations.DescriptorAddressResolution : Prop :=
  ∀ (d : Descriptor) (c : Chan),
    (d.scope = .global → d.addr c.toNat = d.reg) ∧
    (d.scope = .perChannel → d.addr c.toNat = channelOffset c.toNat d.reg) ∧
    (target d c).offset = d.addr c.toNat

/-- The register map is the table, register by register: each named register stands at its listed offset, every register of the
map at its own, a multiple of 4, and no other offset holds one (10_state.md R21, R22; 20_memory.md R56, R59). -/
def Obligations.RegisterMapIsTheTable : Prop :=
  (∀ p ∈ [(0x000, MapEntry.reg .revision), (0x110, .reg (.nv .sysconfig)), (0x114, .reg .sysstatus),
      (0x118, .opaq .irqstatus), (0x11c, .opaq .irqenable), (0x124, .opaq .syst), (0x128, .reg (.nv .modulctrl)),
      (0x12c, .reg (.nv (.conf 0))), (0x130, .reg (.stat 0)), (0x134, .opaq (.ctrl 0)), (0x138, .opaq (.tx 0)),
      (0x13c, .opaq (.rx 0)),
      (0x140, .reg (.nv (.conf 1))), (0x144, .reg (.stat 1)), (0x148, .opaq (.ctrl 1)), (0x14c, .opaq (.tx 1)),
      (0x150, .opaq (.rx 1)),
      (0x154, .reg (.nv (.conf 2))), (0x158, .reg (.stat 2)), (0x15c, .opaq (.ctrl 2)), (0x160, .opaq (.tx 2)),
      (0x164, .opaq (.rx 2)),
      (0x168, .reg (.nv (.conf 3))), (0x16c, .reg (.stat 3)), (0x170, .opaq (.ctrl 3)), (0x174, .opaq (.tx 3)),
      (0x178, .opaq (.rx 3)),
      (0x17c, .opaq .xferLevel), (0x180, .opaq .dmaTx), (0x1a0, .opaq .dmaRx)],
    mapAt p.1 = some p.2 ∧ p.2.offset = p.1) ∧
  (∀ m : MapEntry, mapAt m.offset = some m) ∧
  (∀ off m, mapAt off = some m → m.offset = off ∧ off % 4 = 0 ∧ off < 0x200) ∧
  (∀ off, mapAt off = none ↔
    off ∉ [0x000, 0x110, 0x114, 0x118, 0x11c, 0x124, 0x128,
      0x12c, 0x130, 0x134, 0x138, 0x13c, 0x140, 0x144, 0x148, 0x14c, 0x150,
      0x154, 0x158, 0x15c, 0x160, 0x164, 0x168, 0x16c, 0x170, 0x174, 0x178, 0x17c, 0x180, 0x1a0])

/-! ### The engine -/

/-- A control operation outside Ready completes with DeviceNotReady, with no bus access and no state change
(60_exceptions.md R191; the decision D22). -/
def Obligations.ControlOperationsNeedReady : Prop :=
  ∀ (i : Instr) (s : State), i ≠ .init → i ≠ .term → s.life ≠ .ready →
    exec i s = .next { s with
      busy := false
      phase := .idle
      responses := s.responses ++ [⟨.deviceNotReady, 0, none⟩] }

/-- The global sets under any table: in Ready, a value of the domain is encoded and inserted into MODULCTRL by one RMW, the
bits outside the mask keep what was read, and nothing else changes (40_engine.md R105, R109, R111). -/
def Obligations.GlobalSetsWriteTheirField : Prop :=
  ∀ (s : State) (u : Word) (i : Instr) (f : FieldId),
    (i, f) ∈ [(Instr.setCsgm u, FieldId.csgm), (.setMs u, .ms), (.setChmode u, .chmode), (.setInitdly u, .initdly)] →
    s.params.table.scoped = true → s.life = .ready → s.pend = false → u ∈ (s.params.table.get f).dom →
    let d := s.params.table.get f
    let old := s.bank.modulctrl
    let new := (old &&& ~~~d.mask) ||| (d.codec.enc u <<< d.pos)
    exec i s = .next { s with
      bank := { s.bank with modulctrl := new }
      busy := false
      phase := .idle
      responses := s.responses ++ [⟨.ok, 0, none⟩]
      log := s.log ++ [.read 0x128 old, .write 0x128 new]
      moves := s.moves.drop 2
      tick := s.tick + 2 }

/-- The per-channel sets under any table: as the global ones, on the conf register of the explicit channel or of the
current one, which stays as it is (40_engine.md R104, R105, R109, R111; 30_encoding.md R74; 42_channel_params.md R148). -/
def Obligations.PerChannelSetsWriteTheirField : Prop :=
  ∀ (s : State) (u : Word) (ch : Option Word) (c : Chan) (i : Instr) (f : FieldId),
    (i, f) ∈ [(Instr.setTrm u ch, FieldId.trm), (.setLayout u ch, .layout), (.setWl u ch, .wl), (.setTcs u ch, .tcs),
      (.setEpol u ch, .epol), (.setForce u ch, .force), (.setClkd u ch, .clkd), (.setPha u ch, .pha),
      (.setPol u ch, .pol)] →
    s.params.table.scoped = true → s.life = .ready → s.pend = false → u ∈ (s.params.table.get f).dom →
    (ch = none ∧ c = s.curch ∨ ch = some (c.setWidth 32)) →
    let d := s.params.table.get f
    let old := s.bank.conf[c.toNat]'c.isLt
    let new := (old &&& ~~~d.mask) ||| (d.codec.enc u <<< d.pos)
    exec i s = .next { s with
      bank := { s.bank with conf := s.bank.conf.set c.toNat new c.isLt }
      busy := false
      phase := .idle
      responses := s.responses ++ [⟨.ok, 0, none⟩]
      log := s.log ++ [.read (0x12c + c.toNat * 0x14) old, .write (0x12c + c.toNat * 0x14) new]
      moves := s.moves.drop 2
      tick := s.tick + 2 }

/-- The global gets under any table: the decoded field of MODULCTRL is the result, and nothing but the log changes
(40_engine.md R108, R111). -/
def Obligations.GlobalGetsReturnTheirField : Prop :=
  ∀ (s : State) (i : Instr) (f : FieldId),
    (i, f) ∈ [(Instr.getCsgm, FieldId.csgm), (.getMs, .ms), (.getChmode, .chmode), (.getInitdly, .initdly)] →
    s.params.table.scoped = true → s.life = .ready → s.pend = false →
    let d := s.params.table.get f
    exec i s = .next { s with
      busy := false
      phase := .idle
      responses := s.responses ++ [⟨.ok, d.codec.dec ((s.bank.modulctrl >>> d.pos) &&& lowMask d.w), none⟩]
      log := s.log ++ [.read 0x128 s.bank.modulctrl]
      moves := s.moves.tail
      tick := s.tick + 1 }

/-- The per-channel gets under any table, on the explicit or the current channel (40_engine.md R104, R108, R111). -/
def Obligations.PerChannelGetsReturnTheirField : Prop :=
  ∀ (s : State) (ch : Option Word) (c : Chan) (i : Instr) (f : FieldId),
    (i, f) ∈ [(Instr.getTrm ch, FieldId.trm), (.getLayout ch, .layout), (.getWl ch, .wl), (.getTcs ch, .tcs),
      (.getEpol ch, .epol), (.getForce ch, .force), (.getClkd ch, .clkd), (.getPha ch, .pha), (.getPol ch, .pol)] →
    s.params.table.scoped = true → s.life = .ready → s.pend = false →
    (ch = none ∧ c = s.curch ∨ ch = some (c.setWidth 32)) →
    let d := s.params.table.get f
    let v := s.bank.conf[c.toNat]'c.isLt
    exec i s = .next { s with
      busy := false
      phase := .idle
      responses := s.responses ++ [⟨.ok, d.codec.dec ((v >>> d.pos) &&& lowMask d.w), none⟩]
      log := s.log ++ [.read (0x12c + c.toNat * 0x14) v]
      moves := s.moves.tail
      tick := s.tick + 1 }

/-- A set is rejected with InvalidValue exactly when its argument is outside the domain, whatever its channel operand, and
then with no bus access and no state change; a value is never clamped, rounded or masked into range (40_engine.md R103).
That a value of the domain is written as it is encoded, GlobalSetsWriteTheirField and PerChannelSetsWriteTheirField say. -/
def Obligations.SetsRejectExactlyTheValuesOutsideTheDomain : Prop :=
  ∀ (s : State) (f : FieldId) (u : Word) (ch : Option Word) (i : Instr), setCommand f u ch = some i → s.life = .ready →
    (u ∉ (s.params.table.get f).dom →
      exec i s = .next { s with
        busy := false
        phase := .idle
        responses := s.responses ++ [⟨.invalidValue, 0, some u⟩] }) ∧
    (u ∈ (s.params.table.get f).dom →
      ∃ t r, exec i s = .next t ∧ t.responses = s.responses ++ [r] ∧ r.status ≠ .invalidValue)

/-- The channel of a descriptor access: a Global descriptor's command ignores `chv` and `ch`, and every command ignores `ch`
when `chv = 0`; a PerChannel descriptor's set checks its value first and then raises InvalidChannel for an explicit channel
above 3, its get for the same channels, with no bus access and no state change; an explicit channel up to 3 is the one
accessed, else the current one (40_engine.md R104; 30_encoding.md R74, the decision D8). -/
def Obligations.ChannelOfADescriptorAccess : Prop :=
  (∀ (op arg ch : Word) (chv : Bool), op.toNat ∈ [3, 4, 5, 6, 103, 104, 105, 106] →
    decode ⟨0, op, arg, chv, ch⟩ = decode ⟨0, op, arg, false, 0⟩) ∧
  (∀ op arg ch : Word, decode ⟨0, op, arg, false, ch⟩ = decode ⟨0, op, arg, false, 0⟩) ∧
  (∀ (s : State) (f : FieldId) (u : Word) (ch : Option Word) (i : Instr), s.params.table.scoped = true →
    s.life = .ready → (setCommand f u ch = some i ∧ u ∈ (s.params.table.get f).dom ∨ getCommand f ch = some i) →
    (f.scope = .global → ∃ t r, exec i s = .next t ∧ t.responses = s.responses ++ [r] ∧ r.status = .ok) ∧
    (f.scope = .perChannel →
      (∀ w, ch = some w → 3 < w.toNat →
        exec i s = .next { s with
          busy := false
          phase := .idle
          responses := s.responses ++ [⟨.invalidChannel, 0, some w⟩] }) ∧
      (∀ c : Chan, (ch = none ∧ c = s.curch ∨ ch = some (c.setWidth 32)) →
        ∃ t r es, exec i s = .next t ∧ t.responses = s.responses ++ [r] ∧ r.status = .ok ∧ t.curch = s.curch ∧
          t.log = s.log ++ es ∧ es ≠ [] ∧
          ∀ e ∈ es, ∃ v, e = .read (0x12c + c.toNat * 0x14) v ∨ e = .write (0x12c + c.toNat * 0x14) v)))

/-- Round trip: under any admitted table, the get that follows a set on the same channel returns the value set
(40_engine.md R110, derived there). -/
def Obligations.GetAfterSetReturnsTheValue : Prop :=
  ∀ (s : State) (f : FieldId) (u : Word) (ch : Option Word) (c : Chan) (i j : Instr),
    s.Admitted → s.life = .ready → s.pend = false → u ∈ (s.params.table.get f).dom →
    (ch = none ∧ c = s.curch ∨ ch = some (c.setWidth 32)) →
    setCommand f u ch = some i → getCommand f ch = some j →
    ∃ t t', exec i s = .next t ∧ exec j t = .next t' ∧
      t'.responses = s.responses ++ [⟨.ok, 0, none⟩, ⟨.ok, u, none⟩]

/-- Non-interference: under any admitted table, a set leaves as they were every other field of its register and every field,
its own among them, of every other register and channel (40_engine.md R109, derived there). The set's channel is the explicit
word, else the current channel. -/
def Obligations.SetKeepsEveryOtherField : Prop :=
  ∀ (s t : State) (f g : FieldId) (u : Word) (ch : Option Word) (i : Instr) (c : Chan),
    s.Admitted → s.life = .ready → s.pend = false → setCommand f u ch = some i → exec i s = .next t →
    g ≠ f ∨ f.scope = .perChannel ∧ c.setWidth 32 ≠ ch.getD (s.curch.setWidth 32) →
    let d := s.params.table.get g
    d.extract (t.bank.word (target d c)) = d.extract (s.bank.word (target d c))

/-- No lost update: two sets of different fields both take effect, and the bank is the same in either order of acceptance
(20_memory.md R64, derived there). -/
def Obligations.TwoSetsBothTakeEffectInEitherOrder : Prop :=
  ∀ (s : State) (f g : FieldId) (u v : Word) (ch : Option Word) (c : Chan) (i j : Instr),
    s.Admitted → s.life = .ready → s.pend = false → f ≠ g →
    u ∈ (s.params.table.get f).dom → v ∈ (s.params.table.get g).dom →
    (ch = none ∧ c = s.curch ∨ ch = some (c.setWidth 32)) →
    setCommand f u ch = some i → setCommand g v ch = some j →
    ∃ s1 s2 t1 t2, exec i s = .next s1 ∧ exec j s1 = .next s2 ∧ exec j s = .next t1 ∧ exec i t1 = .next t2 ∧
      s2.bank = t2.bank ∧
      (s.params.table.get f).extract (s2.bank.word (target (s.params.table.get f) c)) = u ∧
      (s.params.table.get g).extract (s2.bank.word (target (s.params.table.get g) c)) = v

/-! ### The default table -/

/-- The default parameters are admitted, the table's masks are those the rule lists, and the default reset value of MODULCTRL
selects slave (40_engine.md R101, R102; 10_state.md R33; 41_global_params.md R122's corner case; the decisions D10-D13,
D32). -/
def Obligations.DefaultTableIsAdmitted : Prop :=
  Params.default.wellFormed = true ∧ Params.default.statusReadable = true ∧
  (FieldId.all.map fun f => (FieldTable.default.get f).mask) =
    [0x2, 0x4, 0x1, 0x70, 0x18000000, 0x3000, 0x70000, 0xF80, 0x06000000, 0x40, 0x100000, 0x3C, 0x1, 0x2] ∧
  ResetValues.default.modulctrl = 4 ∧ (FieldTable.default.get .ms).extract ResetValues.default.modulctrl = 1

/-- The global set rules, whole, under the default table: encoding, domain, the RMW's word and trace, InvalidValue without an
access, the frame, and the rules' examples (41_global_params.md R120, R124, R126, and R122 but for its corner case, general
knowledge of the spec's, which DefaultTableIsAdmitted states). -/
def Obligations.GlobalSetRules : Prop :=
  (∀ (s : State) (a : Word) (op mask : Word) (shift max : Nat) (i : Instr),
    (op, i, mask, shift, max) ∈ [(3#32, Instr.setCsgm a, 0x2#32, 1, 1), (4#32, .setMs a, 0x4#32, 2, 1),
      (5#32, .setChmode a, 0x1#32, 0, 1), (6#32, .setInitdly a, 0x70#32, 4, 4)] →
    s.params.table = .default → s.life = .ready → s.pend = false →
    (∀ chv ch, decode ⟨0, op, a, chv, ch⟩ = some i) ∧
    (max < a.toNat →
      exec i s = .next { s with
        busy := false
        phase := .idle
        responses := s.responses ++ [⟨.invalidValue, 0, some a⟩] }) ∧
    (a.toNat ≤ max →
      let old := s.bank.modulctrl
      let new := (old &&& ~~~mask) ||| (a <<< shift)
      exec i s = .next { s with
        bank := { s.bank with modulctrl := new }
        busy := false
        phase := .idle
        responses := s.responses ++ [⟨.ok, 0, none⟩]
        log := s.log ++ [.read 0x128 old, .write 0x128 new]
        moves := s.moves.drop 2
        tick := s.tick + 2 })) ∧
  (4#32 &&& ~~~0x2#32) ||| (1#32 <<< 1) = 0x00000006#32 ∧ (4#32 &&& ~~~0x4#32) ||| (0#32 <<< 2) = 0x00000000#32 ∧
  (4#32 &&& ~~~0x1#32) ||| (1#32 <<< 0) = 0x00000005#32 ∧ (4#32 &&& ~~~0x70#32) ||| (4#32 <<< 4) = 0x00000044#32

/-- The global get rules, whole, under the default table: encoding, result, trace, frame and examples
(41_global_params.md R121, R123, R125, and R127 but for its remark on how a field can come to hold 5 to 7). -/
def Obligations.GlobalGetRules : Prop :=
  (∀ (s : State) (op : Word) (shift width : Nat) (i : Instr),
    (op, i, shift, width) ∈ [(103#32, Instr.getCsgm, 1, 1), (104#32, .getMs, 2, 1), (105#32, .getChmode, 0, 1),
      (106#32, .getInitdly, 4, 3)] →
    s.params.table = .default → s.life = .ready → s.pend = false →
    (∀ arg chv ch, decode ⟨0, op, arg, chv, ch⟩ = some i) ∧
    exec i s = .next { s with
      busy := false
      phase := .idle
      responses := s.responses ++ [⟨.ok, (s.bank.modulctrl.extractLsb' shift width).setWidth 32, none⟩]
      log := s.log ++ [.read 0x128 s.bank.modulctrl]
      moves := s.moves.tail
      tick := s.tick + 1 }) ∧
  (6#32).extractLsb' 1 1 = 1#1 ∧ (4#32).extractLsb' 2 1 = 1#1 ∧ (5#32).extractLsb' 0 1 = 1#1 ∧
  (0x44#32).extractLsb' 4 3 = 4#3 ∧ (0x74#32).extractLsb' 4 3 = 7#3

/-- The per-channel set rules with the identity codec, whole, under the default table (42_channel_params.md R130, R136, R138,
R140, R144, R146; the clock divider's is in WordLengthLayoutAndDividerRules): encoding, domain, channel, the RMW's word and
trace, InvalidValue before InvalidChannel, both without an access, the frame, and the rules' examples. -/
def Obligations.PerChannelSetRules : Prop :=
  (∀ (s : State) (a op mask : Word) (shift max : Nat) (ch : Option Word) (i : Instr),
    (op, i, mask, shift, max) ∈ [(7#32, Instr.setTrm a ch, 0x3000#32, 12, 2), (10#32, .setTcs a ch, 0x06000000#32, 25, 3),
      (11#32, .setEpol a ch, 0x40#32, 6, 1), (12#32, .setForce a ch, 0x100000#32, 20, 1),
      (14#32, .setPha a ch, 0x1#32, 0, 1), (15#32, .setPol a ch, 0x2#32, 1, 1)] →
    s.params.table = .default → s.life = .ready → s.pend = false →
    decode ⟨0, op, a, ch.isSome, ch.getD 0⟩ = some i ∧
    (max < a.toNat →
      exec i s = .next { s with
        busy := false
        phase := .idle
        responses := s.responses ++ [⟨.invalidValue, 0, some a⟩] }) ∧
    (a.toNat ≤ max → ∀ w, ch = some w → 3 < w.toNat →
      exec i s = .next { s with
        busy := false
        phase := .idle
        responses := s.responses ++ [⟨.invalidChannel, 0, some w⟩] }) ∧
    (a.toNat ≤ max → ∀ c : Chan, (ch = none ∧ c = s.curch ∨ ch = some (c.setWidth 32)) →
      let old := s.bank.conf[c.toNat]'c.isLt
      let new := (old &&& ~~~mask) ||| (a <<< shift)
      exec i s = .next { s with
        bank := { s.bank with conf := s.bank.conf.set c.toNat new c.isLt }
        busy := false
        phase := .idle
        responses := s.responses ++ [⟨.ok, 0, none⟩]
        log := s.log ++ [.read (0x12c + c.toNat * 0x14) old, .write (0x12c + c.toNat * 0x14) new]
        moves := s.moves.drop 2
        tick := s.tick + 2 })) ∧
  (0x60000#32 &&& ~~~0x3000#32) ||| (1#32 <<< 12) = 0x00061000#32 ∧
  (0x60000#32 &&& ~~~0x06000000#32) ||| (3#32 <<< 25) = 0x06060000#32 ∧
  (0x60000#32 &&& ~~~0x40#32) ||| (1#32 <<< 6) = 0x00060040#32 ∧
  (0x60000#32 &&& ~~~0x100000#32) ||| (1#32 <<< 20) = 0x00160000#32 ∧
  (0x60000#32 &&& ~~~0x1#32) ||| (1#32 <<< 0) = 0x00060001#32 ∧
  (0x60001#32 &&& ~~~0x2#32) ||| (1#32 <<< 1) = 0x00060003#32 ∧
  (0x60000#32 &&& ~~~0x2#32) ||| (1#32 <<< 1) = 0x00060002#32 ∧
  (0x60002#32 &&& ~~~0x1#32) ||| (1#32 <<< 0) = 0x00060003#32

/-- The per-channel get rules with the identity codec, whole, under the default table (42_channel_params.md R131, R137, R139,
R141, R143, R145, R147): encoding, channel, result, trace, InvalidChannel without an access, frame and examples. -/
def Obligations.PerChannelGetRules : Prop :=
  (∀ (s : State) (op : Word) (shift width : Nat) (ch : Option Word) (i : Instr),
    (op, i, shift, width) ∈ [(107#32, Instr.getTrm ch, 12, 2), (110#32, .getTcs ch, 25, 2), (111#32, .getEpol ch, 6, 1),
      (112#32, .getForce ch, 20, 1), (113#32, .getClkd ch, 2, 4), (114#32, .getPha ch, 0, 1), (115#32, .getPol ch, 1, 1)] →
    s.params.table = .default → s.life = .ready → s.pend = false →
    (∀ arg, decode ⟨0, op, arg, ch.isSome, ch.getD 0⟩ = some i) ∧
    (∀ w, ch = some w → 3 < w.toNat →
      exec i s = .next { s with
        busy := false
        phase := .idle
        responses := s.responses ++ [⟨.invalidChannel, 0, some w⟩] }) ∧
    (∀ c : Chan, (ch = none ∧ c = s.curch ∨ ch = some (c.setWidth 32)) →
      let v := s.bank.conf[c.toNat]'c.isLt
      exec i s = .next { s with
        busy := false
        phase := .idle
        responses := s.responses ++ [⟨.ok, (v.extractLsb' shift width).setWidth 32, none⟩]
        log := s.log ++ [.read (0x12c + c.toNat * 0x14) v]
        moves := s.moves.tail
        tick := s.tick + 1 })) ∧
  (0x61000#32).extractLsb' 12 2 = 1#2 ∧ (0x63000#32).extractLsb' 12 2 = 3#2 ∧ (0x06060000#32).extractLsb' 25 2 = 3#2 ∧
  (0x60040#32).extractLsb' 6 1 = 1#1 ∧ (0x160000#32).extractLsb' 20 1 = 1#1 ∧ (0x6003C#32).extractLsb' 2 4 = 15#4 ∧
  (0x60003#32).extractLsb' 0 1 = 1#1 ∧ (0x60003#32).extractLsb' 1 1 = 1#1

/-- The per-channel rules that rest on decisions, under the default table: the word length is stored as length − 1 for 4 to 32
and read back as field + 1; the pin layout is stored as 0b110 or 0b001 and read back from bit 18; the clock divider is a number
0 to 15, stored as it is (42_channel_params.md R132-R135, R142; the decisions D11, D12, D38). -/
def Obligations.WordLengthLayoutAndDividerRules : Prop :=
  ∀ (s : State) (a : Word) (c : Chan), s.params.table = .default → s.life = .ready → s.pend = false →
    let old := s.bank.conf[c.toNat]'c.isLt
    let ch := some (c.setWidth 32)
    let off := 0x12c + c.toNat * 0x14
    let set (new : Word) : State := { s with
      bank := { s.bank with conf := s.bank.conf.set c.toNat new c.isLt }
      busy := false
      phase := .idle
      responses := s.responses ++ [⟨.ok, 0, none⟩]
      log := s.log ++ [.read off old, .write off new]
      moves := s.moves.drop 2
      tick := s.tick + 2 }
    let got (v : Word) : State := { s with
      busy := false
      phase := .idle
      responses := s.responses ++ [⟨.ok, v, none⟩]
      log := s.log ++ [.read off old]
      moves := s.moves.tail
      tick := s.tick + 1 }
    let bad : State := { s with
      busy := false
      phase := .idle
      responses := s.responses ++ [⟨.invalidValue, 0, some a⟩] }
    (4 ≤ a.toNat ∧ a.toNat ≤ 32 → exec (.setWl a ch) s = .next (set ((old &&& ~~~0xF80#32) ||| ((a - 1) <<< 7)))) ∧
    (¬(4 ≤ a.toNat ∧ a.toNat ≤ 32) → exec (.setWl a ch) s = .next bad) ∧
    exec (.getWl ch) s = .next (got ((old.extractLsb' 7 5).setWidth 32 + 1)) ∧
    (a = 0 → exec (.setLayout a ch) s = .next (set ((old &&& ~~~0x70000#32) ||| (0b110#32 <<< 16)))) ∧
    (a = 1 → exec (.setLayout a ch) s = .next (set ((old &&& ~~~0x70000#32) ||| (0b001#32 <<< 16)))) ∧
    (1 < a.toNat → exec (.setLayout a ch) s = .next bad) ∧
    exec (.getLayout ch) s = .next (got (1 - (old.extractLsb' 18 1).setWidth 32)) ∧
    (a.toNat ≤ 15 → exec (.setClkd a ch) s = .next (set ((old &&& ~~~0x3C#32) ||| (a <<< 2)))) ∧
    (15 < a.toNat → exec (.setClkd a ch) s = .next bad)

/-! ### The current channel -/

/-- SETCH sets the current channel to an index 0–3 and rejects every other word with InvalidChannel; GETCH returns it. Neither
makes a bus access or changes anything else (40_engine.md R106, R107; the decisions D9, D15). -/
def Obligations.CurrentChannelOperations : Prop :=
  ∀ s : State, s.life = .ready →
    (∀ c : Chan, exec (.setCh (c.setWidth 32)) s = .next { s with
      curch := c
      busy := false
      phase := .idle
      responses := s.responses ++ [⟨.ok, 0, none⟩] }) ∧
    (∀ a : Word, 3 < a.toNat → exec (.setCh a) s = .next { s with
      busy := false
      phase := .idle
      responses := s.responses ++ [⟨.invalidChannel, 0, some a⟩] }) ∧
    exec .getCh s = .next { s with
      busy := false
      phase := .idle
      responses := s.responses ++ [⟨.ok, s.curch.setWidth 32, none⟩] }

/-- Whole machine: only SETCH moves the current channel (10_state.md R37; the decision D9). -/
def Obligations.OnlySetChMovesTheCurrentChannel : Prop :=
  ∀ s t : State, step s = .next t → t.curch ≠ s.curch →
    s.busy = false ∧ ∃ c s' arg, accept s = some (c, s') ∧ decode c = some (.setCh arg) ∧ arg = t.curch.setWidth 32

/-! ### The FIFO -/

/-- Under parameters that pass the check `fifoOn(c)` is 1 when the FFE field is non-zero and 0 otherwise (43_fifo.md R150; the
decision D13). That the check asks this of the FFE row, beside the six conditions of 40_engine.md R101, is the model's inference
(log 18). -/
def Obligations.FifoIsOnWhenTheFieldIsNonZero : Prop :=
  ∀ (p : Params) (v : Word), p.wellFormed = true →
    p.table.ffe.extract v = if p.table.ffe.field v = 0 then 0 else 1

/-- SETFIFO −1 clears the FFE field of all four conf registers by four RMWs in order and never conflicts (43_fifo.md R151; the
decisions D13, D14). -/
def Obligations.SetFifoDisableClearsEveryChannel : Prop :=
  ∀ s : State, s.params.table.scoped = true → s.life = .ready → s.pend = false →
    let d := s.params.table.ffe
    let off (v : Word) : Word := (v &&& ~~~d.mask) ||| (d.codec.enc 0 <<< d.pos)
    let k (c : Fin 4) : Word := s.bank.conf[c.val]
    exec (.setFifo 0xFFFFFFFF) s = .next { s with
      bank := { s.bank with conf := #v[off (k 0), off (k 1), off (k 2), off (k 3)] }
      busy := false
      phase := .idle
      responses := s.responses ++ [⟨.ok, 0, none⟩]
      log := s.log ++ [.read 0x12c (k 0), .write 0x12c (off (k 0)), .read 0x140 (k 1), .write 0x140 (off (k 1)),
        .read 0x154 (k 2), .write 0x154 (off (k 2)), .read 0x168 (k 3), .write 0x168 (off (k 3))]
      moves := s.moves.drop 8
      tick := s.tick + 8 }

/-- SETFIFO n with no OTHER channel enabled: four reads, then the RMW that enables channel n (43_fifo.md R151; the decisions
D13, D14). -/
def Obligations.SetFifoEnablesOneChannel : Prop :=
  ∀ (s : State) (n : Chan), s.params.table.scoped = true → s.life = .ready → s.pend = false →
    (∀ c : Chan, c ≠ n → s.params.table.ffe.extract (s.bank.conf[c.toNat]'c.isLt) ≠ 1) →
    let d := s.params.table.ffe
    let k (c : Fin 4) : Word := s.bank.conf[c.val]
    let old := s.bank.conf[n.toNat]'n.isLt
    let new := (old &&& ~~~d.mask) ||| (d.codec.enc 1 <<< d.pos)
    exec (.setFifo (n.setWidth 32)) s = .next { s with
      bank := { s.bank with conf := s.bank.conf.set n.toNat new n.isLt }
      busy := false
      phase := .idle
      responses := s.responses ++ [⟨.ok, 0, none⟩]
      log := s.log ++ [.read 0x12c (k 0), .read 0x140 (k 1), .read 0x154 (k 2), .read 0x168 (k 3),
        .read (0x12c + n.toNat * 0x14) old, .write (0x12c + n.toNat * 0x14) new]
      moves := s.moves.drop 6
      tick := s.tick + 6 }

/-- SETFIFO n with another channel enabled: FifoConflict naming the lowest such channel, after the four reads and with no
write (43_fifo.md R151; 60_exceptions.md R194; the decisions D13, D14). -/
def Obligations.SetFifoConflictsWithAnotherChannel : Prop :=
  ∀ (s : State) (n c : Chan), s.params.table.scoped = true → s.life = .ready → s.pend = false →
    c ≠ n → s.params.table.ffe.extract (s.bank.conf[c.toNat]'c.isLt) = 1 →
    (∀ b : Chan, b < c → b ≠ n → s.params.table.ffe.extract (s.bank.conf[b.toNat]'b.isLt) ≠ 1) →
    let k (c : Fin 4) : Word := s.bank.conf[c.val]
    exec (.setFifo (n.setWidth 32)) s = .next { s with
      busy := false
      phase := .idle
      responses := s.responses ++ [⟨.fifoConflict, 0, some (c.setWidth 32)⟩]
      log := s.log ++ [.read 0x12c (k 0), .read 0x140 (k 1), .read 0x154 (k 2), .read 0x168 (k 3)]
      moves := s.moves.drop 4
      tick := s.tick + 4 }

/-- SETFIFO with a word that is neither −1 nor 0–3 is InvalidValue with no access (43_fifo.md R151; the decision D15). -/
def Obligations.SetFifoRejectsEveryOtherWord : Prop :=
  ∀ (s : State) (a : Word), s.life = .ready → 4 ≤ a.toNat → a ≠ 0xFFFFFFFF →
    exec (.setFifo a) s = .next { s with
      busy := false
      phase := .idle
      responses := s.responses ++ [⟨.invalidValue, 0, some a⟩] }

/-- GETFIFO makes four reads and returns the lowest enabled channel, or −1; nothing but the log changes (43_fifo.md R152; the
decision D14). -/
def Obligations.GetFifoReturnsTheLowestEnabledChannel : Prop :=
  ∀ s : State, s.params.table.scoped = true → s.life = .ready → s.pend = false →
    let on (c : Chan) : Prop := s.params.table.ffe.extract (s.bank.conf[c.toNat]'c.isLt) = 1
    let k (c : Fin 4) : Word := s.bank.conf[c.val]
    let got (v : Word) : State := { s with
      busy := false
      phase := .idle
      responses := s.responses ++ [⟨.ok, v, none⟩]
      log := s.log ++ [.read 0x12c (k 0), .read 0x140 (k 1), .read 0x154 (k 2), .read 0x168 (k 3)]
      moves := s.moves.drop 4
      tick := s.tick + 4 }
    (∀ c : Chan, on c → (∀ b : Chan, b < c → ¬on b) → exec .getFifo s = .next (got (c.setWidth 32))) ∧
    ((∀ c : Chan, ¬on c) → exec .getFifo s = .next (got 0xFFFFFFFF))

/-- FIFO round trip: after a successful SETFIFO, GETFIFO returns its argument (43_fifo.md R153, derived there). -/
def Obligations.GetFifoAfterSetFifoReturnsTheArgument : Prop :=
  ∀ (s t : State) (a : Word) (info : Option Word), s.Admitted → s.life = .ready → s.pend = false →
    exec (.setFifo a) s = .next t → t.responses = s.responses ++ [⟨.ok, 0, info⟩] →
    ∃ t', exec .getFifo t = .next t' ∧ t'.responses = t.responses ++ [⟨.ok, a, none⟩]

/-! ### The lifecycle -/

/-- INIT from Terminated is DeviceNotReady, with no bus access and no state change (44_lifecycle_reset.md R167; the decision
D22). -/
def Obligations.InitFromTerminatedIsNotReady : Prop :=
  ∀ s : State, s.life = .terminated →
    exec .init s = .next { s with
      busy := false
      phase := .idle
      responses := s.responses ++ [⟨.deviceNotReady, 0, none⟩] }

/-- INIT from Uninitialized or Ready, when the environment completes the reset just before poll `j` of the N polls: the revision
is captured and logged, the trace is `R 0x000, REV, R 0x110, W 0x110` and the polls, the device is Ready on the reset values, and
nothing else changes (44_lifecycle_reset.md R161, R162, R166; 10_state.md R35, R38; the decisions D17, D19, D22, D23).
`s.moveAt k` is the environment's k-th choice, listed in the state or free (log 4): this statement and the next cover every choice,
and every state that a run reaches. -/
def Obligations.InitSucceedsWhenTheResetCompletesInTime : Prop :=
  ∀ (s : State) (j : Nat), s.life ≠ .terminated → s.params.softresetBit < 32 → s.params.resetdoneBit < 32 →
    j < s.params.resetPollMax →
    (∀ i < j, (s.moveAt (3 + i)).complete = false) → (s.moveAt (3 + j)).complete = true →
    let rev := s.params.hwRevision
    let old := if s.pend && !(s.moveAt 0).complete && !(s.moveAt 1).complete then (s.moveAt 1).draw
      else if s.pend then s.params.resetValue.sysconfig else s.bank.sysconfig
    let done := 1#32 <<< s.params.resetdoneBit
    exec .init s = .next { s with
      bank := ⟨s.params.resetValue.sysconfig, s.params.resetValue.modulctrl, s.params.resetValue.conf⟩
      pend := false
      life := .ready
      revMajor := rev.extractLsb' 8 2
      revMinor := rev.extractLsb' 0 5
      seq := .idle
      busy := false
      phase := .idle
      responses := s.responses ++ [⟨.ok, 0, none⟩]
      log := s.log ++ [.read 0x000 rev, .rev (rev.extractLsb' 8 2) (rev.extractLsb' 0 5), .read 0x110 old,
        .write 0x110 (old ||| 1#32 <<< s.params.softresetBit)] ++
        (List.range j).map (fun i => .read 0x114 ((s.moveAt (3 + i)).draw &&& ~~~done)) ++
        [.read 0x114 (((s.moveAt (3 + j)).draw &&& ~~~done) ||| done)]
      moves := s.moves.drop (4 + j)
      tick := s.tick + (4 + j) }

/-- INIT from Uninitialized or Ready, when the environment completes no reset during the N polls: exactly N reads of SYSSTATUS,
each with the ready bit clear, one TIMEOUT event, ResetTimeout, and the device is Uninitialized with the reset still pending
(44_lifecycle_reset.md R163, R166, R169; the decisions D18, D19, D22, D29; the choices are log 4's). -/
def Obligations.InitTimesOutAfterExactlyNPolls : Prop :=
  ∀ s : State, s.life ≠ .terminated → s.params.softresetBit < 32 → s.params.resetdoneBit < 32 →
    (∀ i < s.params.resetPollMax, (s.moveAt (3 + i)).complete = false) →
    let rev := s.params.hwRevision
    let old := if s.pend && !(s.moveAt 0).complete && !(s.moveAt 1).complete then (s.moveAt 1).draw
      else if s.pend then s.params.resetValue.sysconfig else s.bank.sysconfig
    let new := old ||| 1#32 <<< s.params.softresetBit
    exec .init s = .next { s with
      bank := if s.pend && ((s.moveAt 0).complete || (s.moveAt 1).complete || (s.moveAt 2).complete)
        then ⟨new, s.params.resetValue.modulctrl, s.params.resetValue.conf⟩ else { s.bank with sysconfig := new }
      pend := true
      life := .uninitialized
      revMajor := rev.extractLsb' 8 2
      revMinor := rev.extractLsb' 0 5
      seq := .idle
      busy := false
      phase := .idle
      responses := s.responses ++ [⟨.resetTimeout, 0, none⟩]
      log := s.log ++ [.read 0x000 rev, .rev (rev.extractLsb' 8 2) (rev.extractLsb' 0 5), .read 0x110 old,
        .write 0x110 new] ++
        (List.range s.params.resetPollMax).map (fun i =>
          .read 0x114 ((s.moveAt (3 + i)).draw &&& ~~~(1#32 <<< s.params.resetdoneBit))) ++ [.timeout]
      moves := s.moves.drop (3 + s.params.resetPollMax)
      tick := s.tick + (3 + s.params.resetPollMax) }

/-- TERM, from any lifecycle state, when the environment completes the reset just before poll `j` of the N polls
(44_lifecycle_reset.md R161, R162, R168; the decisions D17, D19, D22; the choices are log 4's). -/
def Obligations.TermSucceedsWhenTheResetCompletesInTime : Prop :=
  ∀ (s : State) (j : Nat), s.params.softresetBit < 32 → s.params.resetdoneBit < 32 → j < s.params.resetPollMax →
    (∀ i < j, (s.moveAt (2 + i)).complete = false) → (s.moveAt (2 + j)).complete = true →
    let old := if s.pend && !(s.moveAt 0).complete then (s.moveAt 0).draw
      else if s.pend then s.params.resetValue.sysconfig else s.bank.sysconfig
    let done := 1#32 <<< s.params.resetdoneBit
    exec .term s = .next { s with
      bank := ⟨s.params.resetValue.sysconfig, s.params.resetValue.modulctrl, s.params.resetValue.conf⟩
      pend := false
      life := .terminated
      seq := .idle
      busy := false
      phase := .idle
      responses := s.responses ++ [⟨.ok, 0, none⟩]
      log := s.log ++ [.read 0x110 old, .write 0x110 (old ||| 1#32 <<< s.params.softresetBit)] ++
        (List.range j).map (fun i => .read 0x114 ((s.moveAt (2 + i)).draw &&& ~~~done)) ++
        [.read 0x114 (((s.moveAt (2 + j)).draw &&& ~~~done) ||| done)]
      moves := s.moves.drop (3 + j)
      tick := s.tick + (3 + j) }

/-- TERM, from any lifecycle state, when the environment completes no reset during the N polls: ResetTimeout is reported and
the device is Terminated all the same (44_lifecycle_reset.md R163, R168, R169; the decisions D18, D19, D22, D29; the choices are
log 4's). -/
def Obligations.TermTimesOutAfterExactlyNPolls : Prop :=
  ∀ s : State, s.params.softresetBit < 32 → s.params.resetdoneBit < 32 →
    (∀ i < s.params.resetPollMax, (s.moveAt (2 + i)).complete = false) →
    let old := if s.pend && !(s.moveAt 0).complete then (s.moveAt 0).draw
      else if s.pend then s.params.resetValue.sysconfig else s.bank.sysconfig
    let new := old ||| 1#32 <<< s.params.softresetBit
    exec .term s = .next { s with
      bank := if s.pend && ((s.moveAt 0).complete || (s.moveAt 1).complete)
        then ⟨new, s.params.resetValue.modulctrl, s.params.resetValue.conf⟩ else { s.bank with sysconfig := new }
      pend := true
      life := .terminated
      seq := .idle
      busy := false
      phase := .idle
      responses := s.responses ++ [⟨.resetTimeout, 0, none⟩]
      log := s.log ++ [.read 0x110 old, .write 0x110 new] ++
        (List.range s.params.resetPollMax).map (fun i =>
          .read 0x114 ((s.moveAt (2 + i)).draw &&& ~~~(1#32 <<< s.params.resetdoneBit))) ++ [.timeout]
      moves := s.moves.drop (2 + s.params.resetPollMax)
      tick := s.tick + (2 + s.params.resetPollMax) }

/-- Whole machine: only INIT and TERM move the lifecycle state, and as the table says; the outcome of the reset is the
response's status (10_state.md R36; 60_exceptions.md R199; the decision D22). -/
def Obligations.LifecycleTransitionsFollowTheTable : Prop :=
  ∀ (i : Instr) (s t : State), exec i s = .next t →
    ∃ r, t.responses = s.responses ++ [r] ∧
      match i with
      | .init => s.life = .terminated ∧ t.life = .terminated ∧ r.status = .deviceNotReady ∨
          s.life ≠ .terminated ∧ (t.life = .ready ∧ r.status = .ok ∨ t.life = .uninitialized ∧ r.status = .resetTimeout)
      | .term => t.life = .terminated ∧ (r.status = .ok ∨ r.status = .resetTimeout)
      | _ => t.life = s.life

/-- No partial reset is visible: whatever the environment does, an INIT or TERM that answers OK leaves no reset pending and
every non-volatile register at its reset value, and a successful INIT has captured the revision (44_lifecycle_reset.md R162,
R170, derived there; 70_reset_and_hazards.md R213). -/
def Obligations.SuccessfulResetLeavesTheResetValues : Prop :=
  ∀ (i : Instr) (s t : State) (r : Response), i = .init ∨ i = .term →
    s.params.softresetBit < 32 → s.params.resetdoneBit < 32 →
    exec i s = .next t → t.responses = s.responses ++ [r] → r.status = .ok →
    t.pend = false ∧
    t.bank = ⟨s.params.resetValue.sysconfig, s.params.resetValue.modulctrl, s.params.resetValue.conf⟩ ∧
    (i = .init → t.revMajor = s.params.hwRevision.extractLsb' 8 2 ∧ t.revMinor = s.params.hwRevision.extractLsb' 0 5)

/-! ### Status reads -/

/-- GETDEVSTAT returns the whole word of the register `DEVICE_STATUS_OFF` names and changes nothing but the log; under the
default it is SYSSTATUS, whose ready bit reads 1 in a Ready state and whose other bits are the environment's draw
(45_status.md R180, R182; the decision D16). -/
def Obligations.DeviceStatusIsReadWhole : Prop :=
  ∀ (s : State) (r : Reg), s.life = .ready → s.pend = false → mapAt s.params.deviceStatusOff = some (.reg r) →
    let v := match r with
      | .revision => s.params.hwRevision
      | .nv q => s.bank.word q
      | .sysstatus => (s.move.draw &&& ~~~(1#32 <<< s.params.resetdoneBit)) ||| (1#32 <<< s.params.resetdoneBit)
      | .stat _ => s.move.draw
    exec .getDevStat s = .next { s with
      busy := false
      phase := .idle
      responses := s.responses ++ [⟨.ok, v, none⟩]
      log := s.log ++ [.read s.params.deviceStatusOff v]
      moves := s.moves.tail
      tick := s.tick + 1 } ∧
    (s.params.deviceStatusOff = 0x114 → s.params.resetdoneBit < 32 →
      r = .sysstatus ∧ v.getLsbD s.params.resetdoneBit = true)

/-- GETDEVSTAT stops by name when `DEVICE_STATUS_OFF` is no register of the map or an opaque one: the bus admits no such
access (20_memory.md R56; U17, U18; the choice of log 13). -/
def Obligations.DeviceStatusOffTheMapIsRefused : Prop :=
  ∀ s : State, s.life = .ready →
    (mapAt s.params.deviceStatusOff = none →
      exec .getDevStat s = .refused (.offsetNotInMap s.params.deviceStatusOff)) ∧
    (∀ q, mapAt s.params.deviceStatusOff = some (.opaq q) →
      exec .getDevStat s = .refused (.opaqueRegister s.params.deviceStatusOff))

/-- GETCHSTAT reads the stat register of the channel its argument names, whatever the current channel, returns the draw whole
and changes nothing but the log; an argument above 3 is InvalidChannel with no access (45_status.md R181, R182; the decision
D16). -/
def Obligations.ChannelStatusIsReadWhole : Prop :=
  ∀ s : State, s.life = .ready → s.pend = false →
    (∀ c : Chan, exec (.getChStat (c.setWidth 32)) s = .next { s with
      busy := false
      phase := .idle
      responses := s.responses ++ [⟨.ok, s.move.draw, none⟩]
      log := s.log ++ [.read (0x130 + c.toNat * 0x14) s.move.draw]
      moves := s.moves.tail
      tick := s.tick + 1 }) ∧
    (∀ a : Word, 3 < a.toNat → exec (.getChStat a) s = .next { s with
      busy := false
      phase := .idle
      responses := s.responses ++ [⟨.invalidChannel, 0, some a⟩] })

/-! ### Whole-machine rules -/

/-- Every command completes: exec answers a next state with the lock free, one more response, and at most max(8, 3 + N) more bus
accesses, from every state whose device status offset is a register the block reads (log 13) and whatever the environment does
(44_lifecycle_reset.md R169, derived there; 60_exceptions.md R200). -/
def Obligations.EveryCommandCompletesWithinItsBound : Prop :=
  ∀ (i : Instr) (s : State), s.params.statusReadable = true →
    ∃ t r es, exec i s = .next t ∧ t.busy = false ∧ t.phase = .idle ∧ (s.seq = .idle → t.seq = .idle) ∧
      t.waiting = s.waiting ∧ t.responses = s.responses ++ [r] ∧ t.log = s.log ++ es ∧
      es.countP Event.isBus ≤ max 8 (3 + s.params.resetPollMax)

/-- Errors are precise and carry result 0: a command answered InvalidChannel, InvalidValue or DeviceNotReady made no bus access
and changed no state; FifoConflict came after reads only; ResetTimeout came from INIT or TERM after the reset sequence, which
wrote nothing but SYSCONFIG and ended with TIMEOUT, and after the write of the lifecycle state. No command answers
UnknownOperation: that is the answer to a reserved record, which ReservedRecordAnswersUnknownOperation states (60_exceptions.md
R192, derived there; 30_encoding.md R77; the decision D5). -/
def Obligations.ErrorsArePrecise : Prop :=
  ∀ (i : Instr) (s t : State) (r : Response), exec i s = .next t → t.responses = s.responses ++ [r] → r.status ≠ .ok →
    r.result = 0 ∧ r.status ≠ .unknownOperation ∧
    (r.status ∈ [Status.invalidChannel, .invalidValue, .deviceNotReady] →
      t = { s with busy := false, phase := .idle, responses := t.responses }) ∧
    (r.status = .fifoConflict → (s.pend = false → t.bank = s.bank) ∧
      ∃ es, t.log = s.log ++ es ∧ ∀ e ∈ es, e.isWrite = false) ∧
    (r.status = .resetTimeout → (i = .init ∧ t.life = .uninitialized ∨ i = .term ∧ t.life = .terminated) ∧
      ∃ es, t.log = s.log ++ es ++ [.timeout] ∧ ∀ off v, .write off v ∈ es → off = 0x110)

/-- The response record is the numeric status code and the result: the codes are 0 to 6 in the order of the rule, two statuses
never share one, and every completed command answers one record, with code 0 exactly when it succeeded and with result 0 whenever
the code is not 0 (30_encoding.md R70, R76, R77; 10_state.md R41; the decisions D4, D5, D6). -/
def Obligations.ResponseRecordIsTheStatusCodeAndTheResult : Prop :=
  ([Status.ok, .invalidChannel, .invalidValue, .fifoConflict, .deviceNotReady, .resetTimeout, .unknownOperation].map
    Status.code = [0, 1, 2, 3, 4, 5, 6]) ∧
  (∀ a b : Status, a.code = b.code → a = b) ∧
  (∀ r : Response, r.record = (r.status.code, r.result)) ∧
  (∀ (i : Instr) (s t : State), exec i s = .next t → ∃ r, t.responses = s.responses ++ [r] ∧
    (r.record.1 = 0 ↔ r.status = .ok) ∧ (r.record.1 ≠ 0 → r.record.2 = 0)) ∧
  (∀ (s t : State) (c : Cmd), s.busy = false → accept s = some (c, t) → decode c = none →
    ∃ t' r, step s = .next t' ∧ t'.responses = t.responses ++ [r] ∧ r.record = (6, 0))

/-- The block reads only REVISION, SYSCONFIG, SYSSTATUS, MODULCTRL, CHxCONF and CHxSTAT; it writes only SYSCONFIG, MODULCTRL
and CHxCONF, and every write is the second half of an RMW of that offset (10_state.md R31, derived there). -/
def Obligations.EveryWriteIsTheSecondHalfOfAnRmw : Prop :=
  ∀ (i : Instr) (s t : State), exec i s = .next t →
    ∃ es, t.log = s.log ++ es ∧
      (∀ off v, Event.read off v ∈ es → ∃ r : Reg, off = r.offset) ∧
      (∀ pre off w post, es = pre ++ .write off w :: post →
        (∃ r : NvReg, off = r.offset) ∧ ∃ pre' v, pre = pre' ++ [.read off v])

/-- The parameters, REVISION's value among them, and the opaque registers are changed by no step of the block (10_state.md R24,
R30, the decisions D21, D33; that the controller leaves the opaque registers alone is the model's choice, log 12). -/
def Obligations.NoStepChangesTheConstantsOrTheOpaqueRegisters : Prop :=
  ∀ s t : State, step s = .next t → t.params = s.params ∧ t.opaq = s.opaq

/-- No step stops: with `DEVICE_STATUS_OFF` a register the block reads, every state has a next state ("No command of the block
runs forever", 44_lifecycle_reset.md R169; errors are status codes, 60_exceptions.md R190). -/
def Obligations.NoStepStops : Prop := ∀ s : State, s.params.statusReadable = true → s.StepsOn

/-! ### The invariant -/

/-- The build-time check: a block is constructed only from a `FIELD_TABLE` whose every descriptor meets the six conditions, any
other table is refused; of the other parameters only values in their range are taken (log 22); from admitted ones the block is in
the power-on state, and State.reset is the construction with the default parameters (40_engine.md R101; 10_state.md R33, R43;
00_scope.md R8; the decisions D39, D42; U22). Condition 2 holds of every `Descriptor` (log 2); condition 6, that
`dec` is total, holds by its type (log 3). -/
def Obligations.ConstructionRefusesExactlyTheOtherTables : Prop :=
  (∀ t : FieldTable, t.admitted = true ↔ ∀ f : FieldId, let d := t.get f
    (1 ≤ d.w ∧ d.pos + d.w ≤ 32) ∧
    (d.scope = .global ∧ d.reg = 0x128 ∨ d.scope = .perChannel ∧ d.reg = 0x00) ∧
    (∀ v ∈ d.dom, (d.codec.enc v).toNat < 2 ^ d.w) ∧
    (∀ v ∈ d.dom, d.codec.dec (d.codec.enc v) = v) ∧
    (∀ g : FieldId, g ≠ f → (t.get g).scope = d.scope → (t.get g).mask &&& d.mask = 0)) ∧
  (∀ (p : Params) (word : Nat → Word),
    (p.table.admitted = false → State.construct p word = .refused .tableRefused) ∧
    (p.table.admitted = true →
      1 ≤ p.resetPollMax ∧ p.softresetBit < 32 ∧ p.resetdoneBit < 32 ∧
        p.resetValue.sysconfig.getLsbD p.softresetBit = false ∧ p.table.exclusive p.resetValue.conf = true →
      State.construct p word = .next (State.powerOn p word)) ∧
    (∀ t, State.construct p word = .next t → t = State.powerOn p word ∧ p.table.admitted = true ∧
      1 ≤ p.resetPollMax ∧ p.softresetBit < 32 ∧ p.resetdoneBit < 32 ∧
        p.resetValue.sysconfig.getLsbD p.softresetBit = false ∧ p.table.exclusive p.resetValue.conf = true)) ∧
  State.construct Params.default Config.powerOnWord = .next State.reset

/-- The power-on state: Uninitialized, the current channel at its parameter, no revision, nothing in progress, no reset pending,
REVISION at `HW_REVISION`, whatever the unspecified words are (10_state.md R43; the decisions D9, D34, D42). -/
def Obligations.PowerOnState : Prop :=
  ∀ (p : Params) (word : Nat → Word), let s := State.powerOn p word
    s.life = .uninitialized ∧ s.curch = p.curchPowerOn ∧ s.revMajor = 0 ∧ s.revMinor = 0 ∧ s.seq = .idle ∧
      s.busy = false ∧ s.phase = .idle ∧ s.pend = false ∧ (memRead .revision s).1 = p.hwRevision ∧
      State.reset = State.powerOn Params.default Config.powerOnWord ∧ State.reset.curch = 0

/-- The invariant holds at power-on under every admitted parameter record, at reset among them (10_state.md R43). -/
def Obligations.InvariantHoldsAtPowerOn : Prop :=
  (∀ (p : Params) (word : Nat → Word), p.wellFormed = true → (State.powerOn p word).Inv) ∧ State.reset.Inv

/-- Every step keeps the invariant: no command executing between steps, the parameters admitted, and in every Ready state no
reset pending and at most one channel with its FIFO enabled (10_state.md R42, 44_lifecycle_reset.md R170, derived there). -/
def Obligations.EveryStepKeepsTheInvariant : Prop :=
  ∀ s t : State, s.Inv → step s = .next t → t.Inv
end

