-- ==== Sys2Proof/Laws/State.lean ====
section
/-! SUPPORT. One lemma per field per named update of State: what each operation leaves in each field. -/

namespace Sys2Proof.Machine

/-! ### `useMove` -/

@[simp] theorem useMove_params (s : State) : s.useMove.params = s.params := rfl
@[simp] theorem useMove_bank (s : State) : s.useMove.bank = s.bank := rfl
@[simp] theorem useMove_opaq (s : State) : s.useMove.opaq = s.opaq := rfl
@[simp] theorem useMove_pend (s : State) : s.useMove.pend = s.pend := rfl
@[simp] theorem useMove_life (s : State) : s.useMove.life = s.life := rfl
@[simp] theorem useMove_curch (s : State) : s.useMove.curch = s.curch := rfl
@[simp] theorem useMove_revMajor (s : State) : s.useMove.revMajor = s.revMajor := rfl
@[simp] theorem useMove_revMinor (s : State) : s.useMove.revMinor = s.revMinor := rfl
@[simp] theorem useMove_seq (s : State) : s.useMove.seq = s.seq := rfl
@[simp] theorem useMove_busy (s : State) : s.useMove.busy = s.busy := rfl
@[simp] theorem useMove_phase (s : State) : s.useMove.phase = s.phase := rfl
@[simp] theorem useMove_waiting (s : State) : s.useMove.waiting = s.waiting := rfl
@[simp] theorem useMove_responses (s : State) : s.useMove.responses = s.responses := rfl
@[simp] theorem useMove_log (s : State) : s.useMove.log = s.log := rfl
@[simp] theorem useMove_moves (s : State) : s.useMove.moves = s.moves.tail := rfl
@[simp] theorem useMove_tick (s : State) : s.useMove.tick = s.tick + 1 := rfl
@[simp] theorem useMove_picks (s : State) : s.useMove.picks = s.picks := rfl
@[simp] theorem useMove_pickTick (s : State) : s.useMove.pickTick = s.pickTick := rfl

/-! ### `resetComplete` -/

@[simp] theorem resetComplete_params (s : State) : (resetComplete s).params = s.params := rfl
@[simp] theorem resetComplete_bank (s : State) : (resetComplete s).bank = ResetValues.bank s.params.resetValue := rfl
@[simp] theorem resetComplete_opaq (s : State) : (resetComplete s).opaq = s.opaq := rfl
@[simp] theorem resetComplete_pend (s : State) : (resetComplete s).pend = false := rfl
@[simp] theorem resetComplete_life (s : State) : (resetComplete s).life = s.life := rfl
@[simp] theorem resetComplete_curch (s : State) : (resetComplete s).curch = s.curch := rfl
@[simp] theorem resetComplete_revMajor (s : State) : (resetComplete s).revMajor = s.revMajor := rfl
@[simp] theorem resetComplete_revMinor (s : State) : (resetComplete s).revMinor = s.revMinor := rfl
@[simp] theorem resetComplete_seq (s : State) : (resetComplete s).seq = s.seq := rfl
@[simp] theorem resetComplete_busy (s : State) : (resetComplete s).busy = s.busy := rfl
@[simp] theorem resetComplete_phase (s : State) : (resetComplete s).phase = s.phase := rfl
@[simp] theorem resetComplete_waiting (s : State) : (resetComplete s).waiting = s.waiting := rfl
@[simp] theorem resetComplete_responses (s : State) : (resetComplete s).responses = s.responses := rfl
@[simp] theorem resetComplete_log (s : State) : (resetComplete s).log = s.log := rfl
@[simp] theorem resetComplete_moves (s : State) : (resetComplete s).moves = s.moves := rfl
@[simp] theorem resetComplete_tick (s : State) : (resetComplete s).tick = s.tick := rfl
@[simp] theorem resetComplete_picks (s : State) : (resetComplete s).picks = s.picks := rfl
@[simp] theorem resetComplete_pickTick (s : State) : (resetComplete s).pickTick = s.pickTick := rfl

/-! ### `emit` -/

@[simp] theorem emit_params (s : State) (e : Event) : (s.emit e).params = s.params := rfl
@[simp] theorem emit_bank (s : State) (e : Event) : (s.emit e).bank = s.bank := rfl
@[simp] theorem emit_opaq (s : State) (e : Event) : (s.emit e).opaq = s.opaq := rfl
@[simp] theorem emit_pend (s : State) (e : Event) : (s.emit e).pend = s.pend := rfl
@[simp] theorem emit_life (s : State) (e : Event) : (s.emit e).life = s.life := rfl
@[simp] theorem emit_curch (s : State) (e : Event) : (s.emit e).curch = s.curch := rfl
@[simp] theorem emit_revMajor (s : State) (e : Event) : (s.emit e).revMajor = s.revMajor := rfl
@[simp] theorem emit_revMinor (s : State) (e : Event) : (s.emit e).revMinor = s.revMinor := rfl
@[simp] theorem emit_seq (s : State) (e : Event) : (s.emit e).seq = s.seq := rfl
@[simp] theorem emit_busy (s : State) (e : Event) : (s.emit e).busy = s.busy := rfl
@[simp] theorem emit_phase (s : State) (e : Event) : (s.emit e).phase = s.phase := rfl
@[simp] theorem emit_waiting (s : State) (e : Event) : (s.emit e).waiting = s.waiting := rfl
@[simp] theorem emit_responses (s : State) (e : Event) : (s.emit e).responses = s.responses := rfl
@[simp] theorem emit_log (s : State) (e : Event) : (s.emit e).log = s.log ++ [e] := rfl
@[simp] theorem emit_moves (s : State) (e : Event) : (s.emit e).moves = s.moves := rfl
@[simp] theorem emit_tick (s : State) (e : Event) : (s.emit e).tick = s.tick := rfl
@[simp] theorem emit_picks (s : State) (e : Event) : (s.emit e).picks = s.picks := rfl
@[simp] theorem emit_pickTick (s : State) (e : Event) : (s.emit e).pickTick = s.pickTick := rfl

/-! ### `store` -/

@[simp] theorem store_params (r : NvReg) (v : Word) (s : State) : (store r v s).params = s.params := rfl
@[simp] theorem store_bank (r : NvReg) (v : Word) (s : State) : (store r v s).bank = s.bank.put r v := rfl
@[simp] theorem store_opaq (r : NvReg) (v : Word) (s : State) : (store r v s).opaq = s.opaq := rfl
@[simp] theorem store_pend (r : NvReg) (v : Word) (s : State) : (store r v s).pend = (s.pend || (r == .sysconfig && startsReset s.params v)) := rfl
@[simp] theorem store_life (r : NvReg) (v : Word) (s : State) : (store r v s).life = s.life := rfl
@[simp] theorem store_curch (r : NvReg) (v : Word) (s : State) : (store r v s).curch = s.curch := rfl
@[simp] theorem store_revMajor (r : NvReg) (v : Word) (s : State) : (store r v s).revMajor = s.revMajor := rfl
@[simp] theorem store_revMinor (r : NvReg) (v : Word) (s : State) : (store r v s).revMinor = s.revMinor := rfl
@[simp] theorem store_seq (r : NvReg) (v : Word) (s : State) : (store r v s).seq = s.seq := rfl
@[simp] theorem store_busy (r : NvReg) (v : Word) (s : State) : (store r v s).busy = s.busy := rfl
@[simp] theorem store_phase (r : NvReg) (v : Word) (s : State) : (store r v s).phase = s.phase := rfl
@[simp] theorem store_waiting (r : NvReg) (v : Word) (s : State) : (store r v s).waiting = s.waiting := rfl
@[simp] theorem store_responses (r : NvReg) (v : Word) (s : State) : (store r v s).responses = s.responses := rfl
@[simp] theorem store_log (r : NvReg) (v : Word) (s : State) : (store r v s).log = s.log := rfl
@[simp] theorem store_moves (r : NvReg) (v : Word) (s : State) : (store r v s).moves = s.moves := rfl
@[simp] theorem store_tick (r : NvReg) (v : Word) (s : State) : (store r v s).tick = s.tick := rfl
@[simp] theorem store_picks (r : NvReg) (v : Word) (s : State) : (store r v s).picks = s.picks := rfl
@[simp] theorem store_pickTick (r : NvReg) (v : Word) (s : State) : (store r v s).pickTick = s.pickTick := rfl

/-! ### `respond` -/

@[simp] theorem respond_params (r : Response) (s : State) : (respond r s).params = s.params := rfl
@[simp] theorem respond_bank (r : Response) (s : State) : (respond r s).bank = s.bank := rfl
@[simp] theorem respond_opaq (r : Response) (s : State) : (respond r s).opaq = s.opaq := rfl
@[simp] theorem respond_pend (r : Response) (s : State) : (respond r s).pend = s.pend := rfl
@[simp] theorem respond_life (r : Response) (s : State) : (respond r s).life = s.life := rfl
@[simp] theorem respond_curch (r : Response) (s : State) : (respond r s).curch = s.curch := rfl
@[simp] theorem respond_revMajor (r : Response) (s : State) : (respond r s).revMajor = s.revMajor := rfl
@[simp] theorem respond_revMinor (r : Response) (s : State) : (respond r s).revMinor = s.revMinor := rfl
@[simp] theorem respond_seq (r : Response) (s : State) : (respond r s).seq = s.seq := rfl
@[simp] theorem respond_busy (r : Response) (s : State) : (respond r s).busy = false := rfl
@[simp] theorem respond_phase (r : Response) (s : State) : (respond r s).phase = .idle := rfl
@[simp] theorem respond_waiting (r : Response) (s : State) : (respond r s).waiting = s.waiting := rfl
@[simp] theorem respond_responses (r : Response) (s : State) : (respond r s).responses = s.responses ++ [r] := rfl
@[simp] theorem respond_log (r : Response) (s : State) : (respond r s).log = s.log := rfl
@[simp] theorem respond_moves (r : Response) (s : State) : (respond r s).moves = s.moves := rfl
@[simp] theorem respond_tick (r : Response) (s : State) : (respond r s).tick = s.tick := rfl
@[simp] theorem respond_picks (r : Response) (s : State) : (respond r s).picks = s.picks := rfl
@[simp] theorem respond_pickTick (r : Response) (s : State) : (respond r s).pickTick = s.pickTick := rfl

/-! ### `setSeq` -/

@[simp] theorem setSeq_params (s : State) (q : Seq) : (s.setSeq q).params = s.params := rfl
@[simp] theorem setSeq_bank (s : State) (q : Seq) : (s.setSeq q).bank = s.bank := rfl
@[simp] theorem setSeq_opaq (s : State) (q : Seq) : (s.setSeq q).opaq = s.opaq := rfl
@[simp] theorem setSeq_pend (s : State) (q : Seq) : (s.setSeq q).pend = s.pend := rfl
@[simp] theorem setSeq_life (s : State) (q : Seq) : (s.setSeq q).life = s.life := rfl
@[simp] theorem setSeq_curch (s : State) (q : Seq) : (s.setSeq q).curch = s.curch := rfl
@[simp] theorem setSeq_revMajor (s : State) (q : Seq) : (s.setSeq q).revMajor = s.revMajor := rfl
@[simp] theorem setSeq_revMinor (s : State) (q : Seq) : (s.setSeq q).revMinor = s.revMinor := rfl
@[simp] theorem setSeq_seq (s : State) (q : Seq) : (s.setSeq q).seq = q := rfl
@[simp] theorem setSeq_busy (s : State) (q : Seq) : (s.setSeq q).busy = s.busy := rfl
@[simp] theorem setSeq_phase (s : State) (q : Seq) : (s.setSeq q).phase = s.phase := rfl
@[simp] theorem setSeq_waiting (s : State) (q : Seq) : (s.setSeq q).waiting = s.waiting := rfl
@[simp] theorem setSeq_responses (s : State) (q : Seq) : (s.setSeq q).responses = s.responses := rfl
@[simp] theorem setSeq_log (s : State) (q : Seq) : (s.setSeq q).log = s.log := rfl
@[simp] theorem setSeq_moves (s : State) (q : Seq) : (s.setSeq q).moves = s.moves := rfl
@[simp] theorem setSeq_tick (s : State) (q : Seq) : (s.setSeq q).tick = s.tick := rfl
@[simp] theorem setSeq_picks (s : State) (q : Seq) : (s.setSeq q).picks = s.picks := rfl
@[simp] theorem setSeq_pickTick (s : State) (q : Seq) : (s.setSeq q).pickTick = s.pickTick := rfl

/-! ### `setPhase` -/

@[simp] theorem setPhase_params (s : State) (p : Phase) : (s.setPhase p).params = s.params := rfl
@[simp] theorem setPhase_bank (s : State) (p : Phase) : (s.setPhase p).bank = s.bank := rfl
@[simp] theorem setPhase_opaq (s : State) (p : Phase) : (s.setPhase p).opaq = s.opaq := rfl
@[simp] theorem setPhase_pend (s : State) (p : Phase) : (s.setPhase p).pend = s.pend := rfl
@[simp] theorem setPhase_life (s : State) (p : Phase) : (s.setPhase p).life = s.life := rfl
@[simp] theorem setPhase_curch (s : State) (p : Phase) : (s.setPhase p).curch = s.curch := rfl
@[simp] theorem setPhase_revMajor (s : State) (p : Phase) : (s.setPhase p).revMajor = s.revMajor := rfl
@[simp] theorem setPhase_revMinor (s : State) (p : Phase) : (s.setPhase p).revMinor = s.revMinor := rfl
@[simp] theorem setPhase_seq (s : State) (p : Phase) : (s.setPhase p).seq = s.seq := rfl
@[simp] theorem setPhase_busy (s : State) (p : Phase) : (s.setPhase p).busy = s.busy := rfl
@[simp] theorem setPhase_phase (s : State) (p : Phase) : (s.setPhase p).phase = p := rfl
@[simp] theorem setPhase_waiting (s : State) (p : Phase) : (s.setPhase p).waiting = s.waiting := rfl
@[simp] theorem setPhase_responses (s : State) (p : Phase) : (s.setPhase p).responses = s.responses := rfl
@[simp] theorem setPhase_log (s : State) (p : Phase) : (s.setPhase p).log = s.log := rfl
@[simp] theorem setPhase_moves (s : State) (p : Phase) : (s.setPhase p).moves = s.moves := rfl
@[simp] theorem setPhase_tick (s : State) (p : Phase) : (s.setPhase p).tick = s.tick := rfl
@[simp] theorem setPhase_picks (s : State) (p : Phase) : (s.setPhase p).picks = s.picks := rfl
@[simp] theorem setPhase_pickTick (s : State) (p : Phase) : (s.setPhase p).pickTick = s.pickTick := rfl

/-! ### `lock` -/

@[simp] theorem lock_params (s : State) : s.lock.params = s.params := rfl
@[simp] theorem lock_bank (s : State) : s.lock.bank = s.bank := rfl
@[simp] theorem lock_opaq (s : State) : s.lock.opaq = s.opaq := rfl
@[simp] theorem lock_pend (s : State) : s.lock.pend = s.pend := rfl
@[simp] theorem lock_life (s : State) : s.lock.life = s.life := rfl
@[simp] theorem lock_curch (s : State) : s.lock.curch = s.curch := rfl
@[simp] theorem lock_revMajor (s : State) : s.lock.revMajor = s.revMajor := rfl
@[simp] theorem lock_revMinor (s : State) : s.lock.revMinor = s.revMinor := rfl
@[simp] theorem lock_seq (s : State) : s.lock.seq = s.seq := rfl
@[simp] theorem lock_busy (s : State) : s.lock.busy = true := rfl
@[simp] theorem lock_phase (s : State) : s.lock.phase = s.phase := rfl
@[simp] theorem lock_waiting (s : State) : s.lock.waiting = s.waiting := rfl
@[simp] theorem lock_responses (s : State) : s.lock.responses = s.responses := rfl
@[simp] theorem lock_log (s : State) : s.lock.log = s.log := rfl
@[simp] theorem lock_moves (s : State) : s.lock.moves = s.moves := rfl
@[simp] theorem lock_tick (s : State) : s.lock.tick = s.tick := rfl
@[simp] theorem lock_picks (s : State) : s.lock.picks = s.picks := rfl
@[simp] theorem lock_pickTick (s : State) : s.lock.pickTick = s.pickTick := rfl

/-! ### `returnWord` -/

@[simp] theorem returnWord_params (v : Word) (s : State) : (returnWord v s).params = s.params := rfl
@[simp] theorem returnWord_bank (v : Word) (s : State) : (returnWord v s).bank = s.bank := rfl
@[simp] theorem returnWord_opaq (v : Word) (s : State) : (returnWord v s).opaq = s.opaq := rfl
@[simp] theorem returnWord_pend (v : Word) (s : State) : (returnWord v s).pend = s.pend := rfl
@[simp] theorem returnWord_life (v : Word) (s : State) : (returnWord v s).life = s.life := rfl
@[simp] theorem returnWord_curch (v : Word) (s : State) : (returnWord v s).curch = s.curch := rfl
@[simp] theorem returnWord_revMajor (v : Word) (s : State) : (returnWord v s).revMajor = s.revMajor := rfl
@[simp] theorem returnWord_revMinor (v : Word) (s : State) : (returnWord v s).revMinor = s.revMinor := rfl
@[simp] theorem returnWord_seq (v : Word) (s : State) : (returnWord v s).seq = s.seq := rfl
@[simp] theorem returnWord_busy (v : Word) (s : State) : (returnWord v s).busy = false := rfl
@[simp] theorem returnWord_phase (v : Word) (s : State) : (returnWord v s).phase = .idle := rfl
@[simp] theorem returnWord_waiting (v : Word) (s : State) : (returnWord v s).waiting = s.waiting := rfl
@[simp] theorem returnWord_responses (v : Word) (s : State) : (returnWord v s).responses = s.responses ++ [⟨.ok, v, none⟩] := rfl
@[simp] theorem returnWord_log (v : Word) (s : State) : (returnWord v s).log = s.log := rfl
@[simp] theorem returnWord_moves (v : Word) (s : State) : (returnWord v s).moves = s.moves := rfl
@[simp] theorem returnWord_tick (v : Word) (s : State) : (returnWord v s).tick = s.tick := rfl
@[simp] theorem returnWord_picks (v : Word) (s : State) : (returnWord v s).picks = s.picks := rfl
@[simp] theorem returnWord_pickTick (v : Word) (s : State) : (returnWord v s).pickTick = s.pickTick := rfl

/-! ### `raise` -/

@[simp] theorem raise_params (e : Status) (info : Option Word) (s : State) : (raise e info s).params = s.params := rfl
@[simp] theorem raise_bank (e : Status) (info : Option Word) (s : State) : (raise e info s).bank = s.bank := rfl
@[simp] theorem raise_opaq (e : Status) (info : Option Word) (s : State) : (raise e info s).opaq = s.opaq := rfl
@[simp] theorem raise_pend (e : Status) (info : Option Word) (s : State) : (raise e info s).pend = s.pend := rfl
@[simp] theorem raise_life (e : Status) (info : Option Word) (s : State) : (raise e info s).life = s.life := rfl
@[simp] theorem raise_curch (e : Status) (info : Option Word) (s : State) : (raise e info s).curch = s.curch := rfl
@[simp] theorem raise_revMajor (e : Status) (info : Option Word) (s : State) : (raise e info s).revMajor = s.revMajor := rfl
@[simp] theorem raise_revMinor (e : Status) (info : Option Word) (s : State) : (raise e info s).revMinor = s.revMinor := rfl
@[simp] theorem raise_seq (e : Status) (info : Option Word) (s : State) : (raise e info s).seq = s.seq := rfl
@[simp] theorem raise_busy (e : Status) (info : Option Word) (s : State) : (raise e info s).busy = false := rfl
@[simp] theorem raise_phase (e : Status) (info : Option Word) (s : State) : (raise e info s).phase = .idle := rfl
@[simp] theorem raise_waiting (e : Status) (info : Option Word) (s : State) : (raise e info s).waiting = s.waiting := rfl
@[simp] theorem raise_responses (e : Status) (info : Option Word) (s : State) : (raise e info s).responses = s.responses ++ [⟨e, 0, info⟩] := rfl
@[simp] theorem raise_log (e : Status) (info : Option Word) (s : State) : (raise e info s).log = s.log := rfl
@[simp] theorem raise_moves (e : Status) (info : Option Word) (s : State) : (raise e info s).moves = s.moves := rfl
@[simp] theorem raise_tick (e : Status) (info : Option Word) (s : State) : (raise e info s).tick = s.tick := rfl
@[simp] theorem raise_picks (e : Status) (info : Option Word) (s : State) : (raise e info s).picks = s.picks := rfl
@[simp] theorem raise_pickTick (e : Status) (info : Option Word) (s : State) : (raise e info s).pickTick = s.pickTick := rfl

/-! ### `disableFifo` -/

@[simp] theorem disableFifo_params (c : Chan) (s : State) : (disableFifo c s).params = s.params := rfl
@[simp] theorem disableFifo_bank (c : Chan) (s : State) : (disableFifo c s).bank = s.bank := rfl
@[simp] theorem disableFifo_opaq (c : Chan) (s : State) : (disableFifo c s).opaq = s.opaq := rfl
@[simp] theorem disableFifo_pend (c : Chan) (s : State) : (disableFifo c s).pend = s.pend := rfl
@[simp] theorem disableFifo_life (c : Chan) (s : State) : (disableFifo c s).life = s.life := rfl
@[simp] theorem disableFifo_curch (c : Chan) (s : State) : (disableFifo c s).curch = s.curch := rfl
@[simp] theorem disableFifo_revMajor (c : Chan) (s : State) : (disableFifo c s).revMajor = s.revMajor := rfl
@[simp] theorem disableFifo_revMinor (c : Chan) (s : State) : (disableFifo c s).revMinor = s.revMinor := rfl
@[simp] theorem disableFifo_seq (c : Chan) (s : State) : (disableFifo c s).seq = s.seq := rfl
@[simp] theorem disableFifo_busy (c : Chan) (s : State) : (disableFifo c s).busy = s.busy := rfl
@[simp] theorem disableFifo_phase (c : Chan) (s : State) : (disableFifo c s).phase = fieldWrite s.params.table.ffe c 0 (.disable c) := rfl
@[simp] theorem disableFifo_waiting (c : Chan) (s : State) : (disableFifo c s).waiting = s.waiting := rfl
@[simp] theorem disableFifo_responses (c : Chan) (s : State) : (disableFifo c s).responses = s.responses := rfl
@[simp] theorem disableFifo_log (c : Chan) (s : State) : (disableFifo c s).log = s.log := rfl
@[simp] theorem disableFifo_moves (c : Chan) (s : State) : (disableFifo c s).moves = s.moves := rfl
@[simp] theorem disableFifo_tick (c : Chan) (s : State) : (disableFifo c s).tick = s.tick := rfl
@[simp] theorem disableFifo_picks (c : Chan) (s : State) : (disableFifo c s).picks = s.picks := rfl
@[simp] theorem disableFifo_pickTick (c : Chan) (s : State) : (disableFifo c s).pickTick = s.pickTick := rfl

/-! ### `startReset` -/

@[simp] theorem startReset_params (l : LifeCmd) (s : State) : (startReset l s).params = s.params := rfl
@[simp] theorem startReset_bank (l : LifeCmd) (s : State) : (startReset l s).bank = s.bank := rfl
@[simp] theorem startReset_opaq (l : LifeCmd) (s : State) : (startReset l s).opaq = s.opaq := rfl
@[simp] theorem startReset_pend (l : LifeCmd) (s : State) : (startReset l s).pend = s.pend := rfl
@[simp] theorem startReset_life (l : LifeCmd) (s : State) : (startReset l s).life = s.life := rfl
@[simp] theorem startReset_curch (l : LifeCmd) (s : State) : (startReset l s).curch = s.curch := rfl
@[simp] theorem startReset_revMajor (l : LifeCmd) (s : State) : (startReset l s).revMajor = s.revMajor := rfl
@[simp] theorem startReset_revMinor (l : LifeCmd) (s : State) : (startReset l s).revMinor = s.revMinor := rfl
@[simp] theorem startReset_seq (l : LifeCmd) (s : State) : (startReset l s).seq = .resetting 0 := rfl
@[simp] theorem startReset_busy (l : LifeCmd) (s : State) : (startReset l s).busy = s.busy := rfl
@[simp] theorem startReset_phase (l : LifeCmd) (s : State) : (startReset l s).phase = .rmwRead .sysconfig 0 (bitWord s.params.softresetBit) (.polling l) := rfl
@[simp] theorem startReset_waiting (l : LifeCmd) (s : State) : (startReset l s).waiting = s.waiting := rfl
@[simp] theorem startReset_responses (l : LifeCmd) (s : State) : (startReset l s).responses = s.responses := rfl
@[simp] theorem startReset_log (l : LifeCmd) (s : State) : (startReset l s).log = s.log := rfl
@[simp] theorem startReset_moves (l : LifeCmd) (s : State) : (startReset l s).moves = s.moves := rfl
@[simp] theorem startReset_tick (l : LifeCmd) (s : State) : (startReset l s).tick = s.tick := rfl
@[simp] theorem startReset_picks (l : LifeCmd) (s : State) : (startReset l s).picks = s.picks := rfl
@[simp] theorem startReset_pickTick (l : LifeCmd) (s : State) : (startReset l s).pickTick = s.pickTick := rfl

/-! ### `captureRevision` -/

@[simp] theorem captureRevision_params (v : Word) (s : State) : (captureRevision v s).params = s.params := rfl
@[simp] theorem captureRevision_bank (v : Word) (s : State) : (captureRevision v s).bank = s.bank := rfl
@[simp] theorem captureRevision_opaq (v : Word) (s : State) : (captureRevision v s).opaq = s.opaq := rfl
@[simp] theorem captureRevision_pend (v : Word) (s : State) : (captureRevision v s).pend = s.pend := rfl
@[simp] theorem captureRevision_life (v : Word) (s : State) : (captureRevision v s).life = s.life := rfl
@[simp] theorem captureRevision_curch (v : Word) (s : State) : (captureRevision v s).curch = s.curch := rfl
@[simp] theorem captureRevision_revMajor (v : Word) (s : State) : (captureRevision v s).revMajor = revisionMajor v := rfl
@[simp] theorem captureRevision_revMinor (v : Word) (s : State) : (captureRevision v s).revMinor = revisionMinor v := rfl
@[simp] theorem captureRevision_seq (v : Word) (s : State) : (captureRevision v s).seq = s.seq := rfl
@[simp] theorem captureRevision_busy (v : Word) (s : State) : (captureRevision v s).busy = s.busy := rfl
@[simp] theorem captureRevision_phase (v : Word) (s : State) : (captureRevision v s).phase = s.phase := rfl
@[simp] theorem captureRevision_waiting (v : Word) (s : State) : (captureRevision v s).waiting = s.waiting := rfl
@[simp] theorem captureRevision_responses (v : Word) (s : State) : (captureRevision v s).responses = s.responses := rfl
@[simp] theorem captureRevision_log (v : Word) (s : State) : (captureRevision v s).log = s.log := rfl
@[simp] theorem captureRevision_moves (v : Word) (s : State) : (captureRevision v s).moves = s.moves := rfl
@[simp] theorem captureRevision_tick (v : Word) (s : State) : (captureRevision v s).tick = s.tick := rfl
@[simp] theorem captureRevision_picks (v : Word) (s : State) : (captureRevision v s).picks = s.picks := rfl
@[simp] theorem captureRevision_pickTick (v : Word) (s : State) : (captureRevision v s).pickTick = s.pickTick := rfl

/-! ### `afterRevision` -/

@[simp] theorem afterRevision_params (v : Word) (s : State) : (afterRevision v s).params = s.params := rfl
@[simp] theorem afterRevision_bank (v : Word) (s : State) : (afterRevision v s).bank = s.bank := rfl
@[simp] theorem afterRevision_opaq (v : Word) (s : State) : (afterRevision v s).opaq = s.opaq := rfl
@[simp] theorem afterRevision_pend (v : Word) (s : State) : (afterRevision v s).pend = s.pend := rfl
@[simp] theorem afterRevision_life (v : Word) (s : State) : (afterRevision v s).life = s.life := rfl
@[simp] theorem afterRevision_curch (v : Word) (s : State) : (afterRevision v s).curch = s.curch := rfl
@[simp] theorem afterRevision_revMajor (v : Word) (s : State) : (afterRevision v s).revMajor = revisionMajor v := rfl
@[simp] theorem afterRevision_revMinor (v : Word) (s : State) : (afterRevision v s).revMinor = revisionMinor v := rfl
@[simp] theorem afterRevision_seq (v : Word) (s : State) : (afterRevision v s).seq = .resetting 0 := rfl
@[simp] theorem afterRevision_busy (v : Word) (s : State) : (afterRevision v s).busy = s.busy := rfl
@[simp] theorem afterRevision_phase (v : Word) (s : State) : (afterRevision v s).phase = .rmwRead .sysconfig 0 (bitWord s.params.softresetBit) (.polling .init) := rfl
@[simp] theorem afterRevision_waiting (v : Word) (s : State) : (afterRevision v s).waiting = s.waiting := rfl
@[simp] theorem afterRevision_responses (v : Word) (s : State) : (afterRevision v s).responses = s.responses := rfl
@[simp] theorem afterRevision_log (v : Word) (s : State) : (afterRevision v s).log = s.log ++ [.rev (revisionMajor v) (revisionMinor v)] := rfl
@[simp] theorem afterRevision_moves (v : Word) (s : State) : (afterRevision v s).moves = s.moves := rfl
@[simp] theorem afterRevision_tick (v : Word) (s : State) : (afterRevision v s).tick = s.tick := rfl
@[simp] theorem afterRevision_picks (v : Word) (s : State) : (afterRevision v s).picks = s.picks := rfl
@[simp] theorem afterRevision_pickTick (v : Word) (s : State) : (afterRevision v s).pickTick = s.pickTick := rfl

/-! ### `environment`: only the non-volatile words and `pend` can change, and one choice is used up -/

@[simp] theorem environment_params (s : State) : (environment s).params = s.params := by
  unfold environment; split <;> rfl
@[simp] theorem environment_opaq (s : State) : (environment s).opaq = s.opaq := by
  unfold environment; split <;> rfl
@[simp] theorem environment_life (s : State) : (environment s).life = s.life := by
  unfold environment; split <;> rfl
@[simp] theorem environment_curch (s : State) : (environment s).curch = s.curch := by
  unfold environment; split <;> rfl
@[simp] theorem environment_revMajor (s : State) : (environment s).revMajor = s.revMajor := by
  unfold environment; split <;> rfl
@[simp] theorem environment_revMinor (s : State) : (environment s).revMinor = s.revMinor := by
  unfold environment; split <;> rfl
@[simp] theorem environment_seq (s : State) : (environment s).seq = s.seq := by
  unfold environment; split <;> rfl
@[simp] theorem environment_busy (s : State) : (environment s).busy = s.busy := by
  unfold environment; split <;> rfl
@[simp] theorem environment_phase (s : State) : (environment s).phase = s.phase := by
  unfold environment; split <;> rfl
@[simp] theorem environment_waiting (s : State) : (environment s).waiting = s.waiting := by
  unfold environment; split <;> rfl
@[simp] theorem environment_responses (s : State) : (environment s).responses = s.responses := by
  unfold environment; split <;> rfl
@[simp] theorem environment_log (s : State) : (environment s).log = s.log := by
  unfold environment; split <;> rfl
@[simp] theorem environment_moves (s : State) : (environment s).moves = s.moves.tail := by
  unfold environment; split <;> rfl
@[simp] theorem environment_tick (s : State) : (environment s).tick = s.tick + 1 := by
  unfold environment; split <;> rfl
@[simp] theorem environment_picks (s : State) : (environment s).picks = s.picks := by
  unfold environment; split <;> rfl
@[simp] theorem environment_pickTick (s : State) : (environment s).pickTick = s.pickTick := by
  unfold environment; split <;> rfl

/-! ### `memRead` and `memWrite` -/

@[simp] theorem memRead_fst (r : Reg) (s : State) : (memRead r s).1 = readWord r s := rfl

@[simp] theorem memRead_snd (r : Reg) (s : State) :
    (memRead r s).2 = (environment s).emit (.read r.offset (readWord r s)) := rfl

@[simp] theorem memWrite_params (r : NvReg) (v : Word) (s : State) : (memWrite r v s).params = s.params := by
  simp [memWrite]
@[simp] theorem memWrite_bank (r : NvReg) (v : Word) (s : State) : (memWrite r v s).bank = (environment s).bank.put r v := by
  simp [memWrite]
@[simp] theorem memWrite_opaq (r : NvReg) (v : Word) (s : State) : (memWrite r v s).opaq = s.opaq := by
  simp [memWrite]
@[simp] theorem memWrite_pend (r : NvReg) (v : Word) (s : State) : (memWrite r v s).pend = ((environment s).pend || (r == .sysconfig && startsReset s.params v)) := by
  simp [memWrite]
@[simp] theorem memWrite_life (r : NvReg) (v : Word) (s : State) : (memWrite r v s).life = s.life := by
  simp [memWrite]
@[simp] theorem memWrite_curch (r : NvReg) (v : Word) (s : State) : (memWrite r v s).curch = s.curch := by
  simp [memWrite]
@[simp] theorem memWrite_revMajor (r : NvReg) (v : Word) (s : State) : (memWrite r v s).revMajor = s.revMajor := by
  simp [memWrite]
@[simp] theorem memWrite_revMinor (r : NvReg) (v : Word) (s : State) : (memWrite r v s).revMinor = s.revMinor := by
  simp [memWrite]
@[simp] theorem memWrite_seq (r : NvReg) (v : Word) (s : State) : (memWrite r v s).seq = s.seq := by
  simp [memWrite]
@[simp] theorem memWrite_busy (r : NvReg) (v : Word) (s : State) : (memWrite r v s).busy = s.busy := by
  simp [memWrite]
@[simp] theorem memWrite_phase (r : NvReg) (v : Word) (s : State) : (memWrite r v s).phase = s.phase := by
  simp [memWrite]
@[simp] theorem memWrite_waiting (r : NvReg) (v : Word) (s : State) : (memWrite r v s).waiting = s.waiting := by
  simp [memWrite]
@[simp] theorem memWrite_responses (r : NvReg) (v : Word) (s : State) : (memWrite r v s).responses = s.responses := by
  simp [memWrite]
@[simp] theorem memWrite_log (r : NvReg) (v : Word) (s : State) : (memWrite r v s).log = s.log ++ [.write r.offset v] := by
  simp [memWrite]
@[simp] theorem memWrite_moves (r : NvReg) (v : Word) (s : State) : (memWrite r v s).moves = s.moves.tail := by
  simp [memWrite]
@[simp] theorem memWrite_tick (r : NvReg) (v : Word) (s : State) : (memWrite r v s).tick = s.tick + 1 := by
  simp [memWrite]
@[simp] theorem memWrite_picks (r : NvReg) (v : Word) (s : State) : (memWrite r v s).picks = s.picks := by
  simp [memWrite]
@[simp] theorem memWrite_pickTick (r : NvReg) (v : Word) (s : State) : (memWrite r v s).pickTick = s.pickTick := by
  simp [memWrite]

end Sys2Proof.Machine
end

