-- ==== Sys2Proof/Laws/Ops.lean ====
section
/-! SUPPORT. What the bank, the register map, the environment and one bus access do: one lemma for each. -/

namespace Sys2Proof.Machine

/-! ### The bank -/

@[simp] theorem word_put_self (b : Bank) (r : NvReg) (v : Word) : (b.put r v).word r = v := by
  cases r <;> simp [Bank.put, Bank.word]

theorem word_put_ne (b : Bank) {r q : NvReg} (v : Word) (h : q ≠ r) : (b.put r v).word q = b.word q := by
  cases r <;> cases q <;> simp_all [Bank.put, Bank.word]
  rename_i c d
  exact Vector.getElem_set_ne _ _ fun e => h (BitVec.eq_of_toNat_eq e.symm)

theorem word_put (b : Bank) (r q : NvReg) (v : Word) :
    (b.put r v).word q = if q = r then v else b.word q := by
  split
  · subst_vars; simp
  · exact word_put_ne b v ‹_›

theorem Bank.ext_word {a b : Bank} (h : ∀ r, a.word r = b.word r) : a = b := by
  have h1 := h .sysconfig
  have h2 := h .modulctrl
  cases a; cases b
  simp only [Bank.word] at h1 h2
  subst h1 h2
  congr 1
  apply Vector.ext
  intro i hi
  have := h (.conf (BitVec.ofNat 2 i))
  have e : i % 4 = i := Nat.mod_eq_of_lt hi
  simpa [Bank.word, BitVec.toNat_ofNat, e] using this

theorem put_put_self (b : Bank) (r : NvReg) (v w : Word) : (b.put r v).put r w = b.put r w :=
  Bank.ext_word fun q => by simp only [word_put]; split <;> rfl

theorem put_comm (b : Bank) {r q : NvReg} (v w : Word) (h : r ≠ q) :
    (b.put r v).put q w = (b.put q w).put r v :=
  Bank.ext_word fun x => by
    simp only [word_put]
    split <;> split <;> simp_all

@[simp] theorem put_word (b : Bank) (r : NvReg) : b.put r (b.word r) = b :=
  Bank.ext_word fun q => by
    simp only [word_put]
    split
    · subst_vars; rfl
    · rfl

/-! ### The environment's choice -/

theorem environment_noPend {s : State} (h : s.pend = false) : environment s = s.useMove := by
  simp [environment, h]

theorem environment_noComplete {s : State} (h : s.move.complete = false) : environment s = s.useMove := by
  simp [environment, h]

theorem environment_completes {s : State} (hp : s.pend = true) (h : s.move.complete = true) :
    environment s = resetComplete s.useMove := by
  simp [environment, hp, h]

/-- What the environment can do, guards included. -/
theorem environment_cases (s : State) :
    environment s = s.useMove ∨
      (s.pend = true ∧ s.move.complete = true ∧ environment s = resetComplete s.useMove) := by
  unfold environment
  split
  · next h => exact .inr (by simp_all)
  · exact .inl rfl

/-- The environment's choice, field by field (10_state.md R35). -/
theorem environment_eq (s : State) :
    environment s = { s with
      bank := if s.pend && s.move.complete then ResetValues.bank s.params.resetValue else s.bank
      pend := s.pend && !s.move.complete
      moves := s.moves.tail
      tick := s.tick + 1 } := by
  unfold environment
  cases hp : s.pend <;> cases s.move.complete <;> simp [resetComplete, State.useMove, hp]

/-! ### The environment's coming choices -/

/-- Where one choice is used up, the k-th coming choice is the one that was the (k+1)-th. -/
theorem moveAt_next {s t : State} (hm : t.moves = s.moves.tail) (ht : t.tick = s.tick + 1) (k : Nat) :
    t.moveAt k = s.moveAt (k + 1) := by
  simp only [State.moveAt, hm, ht]
  cases s.moves <;> simp [Nat.add_assoc, Nat.add_comm 1]

/-- The same over several choices. -/
theorem moveAt_drop {s t : State} {n : Nat} (hm : t.moves = s.moves.drop n) (ht : t.tick = s.tick + n) (k : Nat) :
    t.moveAt k = s.moveAt (n + k) := by
  simp [State.moveAt, hm, ht, List.getD_eq_getElem?_getD, List.getElem?_drop, Nat.add_assoc]

/-- Among `n` coming choices, the first of them number `k`, there is a first ResetComplete or there is none. -/
theorem completes_or_not (s : State) (k n : Nat) :
    (∃ j < n, (∀ i < j, (s.moveAt (k + i)).complete = false) ∧ (s.moveAt (k + j)).complete = true) ∨
      ∀ i < n, (s.moveAt (k + i)).complete = false := by
  induction n with
  | zero => exact .inr (by simp)
  | succ n ih =>
    rcases ih with ⟨j, hj, h⟩ | h
    · exact .inl ⟨j, by omega, h⟩
    · cases hc : (s.moveAt (k + n)).complete
      · refine .inr fun i hi => ?_
        rcases Nat.lt_succ_iff_lt_or_eq.mp hi with hi | rfl
        · exact h i hi
        · exact hc
      · exact .inl ⟨n, by omega, h, hc⟩

/-- The environment's step uses one choice up. -/
@[simp] theorem environment_moveAt (s : State) (k : Nat) : (environment s).moveAt k = s.moveAt (k + 1) :=
  moveAt_next (by rw [environment_eq]) (by rw [environment_eq]) k

/-! ### One access while no reset is in progress -/

theorem readWord_nv {s : State} (h : s.pend = false) (r : NvReg) : readWord (.nv r) s = s.bank.word r := by
  simp [readWord, regWord, environment_noPend h, h]

theorem readWord_revision (s : State) : readWord .revision s = s.params.hwRevision := by
  simp [readWord, regWord]

theorem readWord_stat (s : State) (c : Chan) : readWord (.stat c) s = s.move.draw := rfl

theorem readWord_sysstatus (s : State) :
    readWord .sysstatus s = statusWord s.params (environment s).pend s.move.draw := by
  simp [readWord, regWord]

theorem bitWord_def (n : Nat) : bitWord n = 1#32 <<< n := rfl

theorem getLsbD_bitWord (n i : Nat) : (bitWord n).getLsbD i = (decide (n < 32) && decide (i = n)) := by
  rw [bitWord_def, ← BitVec.twoPow_eq, BitVec.getLsbD_twoPow]
  simp [eq_comm]

/-- The ready bit of a SYSSTATUS read is `~pend` (10_state.md R32). -/
theorem readyBit_statusWord {p : Params} (h : p.resetdoneBit < 32) (pend : Bool) (d : Word) :
    readyBit p (statusWord p pend d) = !pend := by
  simp only [readyBit, statusWord, BitVec.getLsbD_or, BitVec.getLsbD_and, BitVec.getLsbD_not, getLsbD_bitWord, h]
  cases pend <;> simp [getLsbD_bitWord, h]

end Sys2Proof.Machine
end

