-- ==== Sys2Proof/Laws/Sequencer.lean ====
section
/-! SUPPORT. Running a command by its phases: what one access can do, that every command completes within its bound, and
the closed form of each command shape while no reset is in progress. -/

namespace Sys2Proof.Machine

/-! ### Running -/

theorem runAccesses_quiet {s : State} (h : s.busy = false) (n : Nat) : runAccesses n s = s := by
  cases n <;> simp [runAccesses, h]

theorem runAccesses_busy {s : State} (h : s.busy = true) (n : Nat) :
    runAccesses (n + 1) s = runAccesses n (access s) := by
  simp [runAccesses, h]

/-- A property that every access keeps holds after any number of them. -/
theorem runAccesses_keeps {P : State → Prop} (h : ∀ s, s.busy = true → P s → P (access s)) :
    ∀ n s, P s → P (runAccesses n s)
  | 0, _, hp => hp
  | n + 1, s, hp => by
    unfold runAccesses
    split
    · exact runAccesses_keeps h n _ (h s ‹_› hp)
    · exact hp

theorem eight_le_accessBound (p : Params) : 8 ≤ accessBound p := by simp [accessBound]

theorem accessBound_eq (p : Params) : ∃ m, accessBound p = m + 8 :=
  ⟨accessBound p - 8, (Nat.sub_add_cancel (eight_le_accessBound p)).symm⟩

/-! ### What no access changes -/

section
variable (s : State) (l : LifeCmd) (t : Option Chan) (c n : Chan) (v : Word) (on : List Chan) (k : After)

@[simp] theorem conclude_params : (conclude l s).params = s.params := by
  unfold conclude; split <;> simp

@[simp] theorem pollOrFail_params : (pollOrFail l s).params = s.params := by
  unfold pollOrFail; split <;> simp

@[simp] theorem afterPoll_params : (afterPoll l v s).params = s.params := by
  simp only [afterPoll]; split <;> simp

@[simp] theorem decideFifo_params : (decideFifo t on s).params = s.params := by
  unfold decideFifo enableFifo reportFifo; split <;> split <;> simp

@[simp] theorem afterScan_params : (afterScan t c v on s).params = s.params := by
  unfold afterScan; split <;> simp

@[simp] theorem afterDisable_params : (afterDisable c s).params = s.params := by
  unfold afterDisable; split <;> simp

@[simp] theorem afterWrite_params : (afterWrite k s).params = s.params := by
  unfold afterWrite; split <;> simp

@[simp] theorem access_params : (access s).params = s.params := by
  unfold access; split <;> simp

@[simp] theorem runAccesses_params (m : Nat) : (runAccesses m s).params = s.params :=
  runAccesses_keeps (P := fun x => x.params = s.params) (fun x _ hx => by simp [hx]) m s rfl

@[simp] theorem conclude_opaq : (conclude l s).opaq = s.opaq := by
  unfold conclude; split <;> simp

@[simp] theorem pollOrFail_opaq : (pollOrFail l s).opaq = s.opaq := by
  unfold pollOrFail; split <;> simp

@[simp] theorem afterPoll_opaq : (afterPoll l v s).opaq = s.opaq := by
  simp only [afterPoll]; split <;> simp

@[simp] theorem decideFifo_opaq : (decideFifo t on s).opaq = s.opaq := by
  unfold decideFifo enableFifo reportFifo; split <;> split <;> simp

@[simp] theorem afterScan_opaq : (afterScan t c v on s).opaq = s.opaq := by
  unfold afterScan; split <;> simp

@[simp] theorem afterDisable_opaq : (afterDisable c s).opaq = s.opaq := by
  unfold afterDisable; split <;> simp

@[simp] theorem afterWrite_opaq : (afterWrite k s).opaq = s.opaq := by
  unfold afterWrite; split <;> simp

@[simp] theorem access_opaq : (access s).opaq = s.opaq := by
  unfold access; split <;> simp

@[simp] theorem runAccesses_opaq (m : Nat) : (runAccesses m s).opaq = s.opaq :=
  runAccesses_keeps (P := fun x => x.opaq = s.opaq) (fun x _ hx => by simp [hx]) m s rfl

@[simp] theorem conclude_curch : (conclude l s).curch = s.curch := by
  unfold conclude; split <;> simp

@[simp] theorem pollOrFail_curch : (pollOrFail l s).curch = s.curch := by
  unfold pollOrFail; split <;> simp

@[simp] theorem afterPoll_curch : (afterPoll l v s).curch = s.curch := by
  simp only [afterPoll]; split <;> simp

@[simp] theorem decideFifo_curch : (decideFifo t on s).curch = s.curch := by
  unfold decideFifo enableFifo reportFifo; split <;> split <;> simp

@[simp] theorem afterScan_curch : (afterScan t c v on s).curch = s.curch := by
  unfold afterScan; split <;> simp

@[simp] theorem afterDisable_curch : (afterDisable c s).curch = s.curch := by
  unfold afterDisable; split <;> simp

@[simp] theorem afterWrite_curch : (afterWrite k s).curch = s.curch := by
  unfold afterWrite; split <;> simp

@[simp] theorem access_curch : (access s).curch = s.curch := by
  unfold access; split <;> simp

@[simp] theorem runAccesses_curch (m : Nat) : (runAccesses m s).curch = s.curch :=
  runAccesses_keeps (P := fun x => x.curch = s.curch) (fun x _ hx => by simp [hx]) m s rfl

@[simp] theorem conclude_waiting : (conclude l s).waiting = s.waiting := by
  unfold conclude; split <;> simp

@[simp] theorem pollOrFail_waiting : (pollOrFail l s).waiting = s.waiting := by
  unfold pollOrFail; split <;> simp

@[simp] theorem afterPoll_waiting : (afterPoll l v s).waiting = s.waiting := by
  simp only [afterPoll]; split <;> simp

@[simp] theorem decideFifo_waiting : (decideFifo t on s).waiting = s.waiting := by
  unfold decideFifo enableFifo reportFifo; split <;> split <;> simp

@[simp] theorem afterScan_waiting : (afterScan t c v on s).waiting = s.waiting := by
  unfold afterScan; split <;> simp

@[simp] theorem afterDisable_waiting : (afterDisable c s).waiting = s.waiting := by
  unfold afterDisable; split <;> simp

@[simp] theorem afterWrite_waiting : (afterWrite k s).waiting = s.waiting := by
  unfold afterWrite; split <;> simp

@[simp] theorem access_waiting : (access s).waiting = s.waiting := by
  unfold access; split <;> simp

@[simp] theorem runAccesses_waiting (m : Nat) : (runAccesses m s).waiting = s.waiting :=
  runAccesses_keeps (P := fun x => x.waiting = s.waiting) (fun x _ hx => by simp [hx]) m s rfl

@[simp] theorem conclude_picks : (conclude l s).picks = s.picks := by
  unfold conclude; split <;> simp

@[simp] theorem pollOrFail_picks : (pollOrFail l s).picks = s.picks := by
  unfold pollOrFail; split <;> simp

@[simp] theorem afterPoll_picks : (afterPoll l v s).picks = s.picks := by
  simp only [afterPoll]; split <;> simp

@[simp] theorem decideFifo_picks : (decideFifo t on s).picks = s.picks := by
  unfold decideFifo enableFifo reportFifo; split <;> split <;> simp

@[simp] theorem afterScan_picks : (afterScan t c v on s).picks = s.picks := by
  unfold afterScan; split <;> simp

@[simp] theorem afterDisable_picks : (afterDisable c s).picks = s.picks := by
  unfold afterDisable; split <;> simp

@[simp] theorem afterWrite_picks : (afterWrite k s).picks = s.picks := by
  unfold afterWrite; split <;> simp

@[simp] theorem access_picks : (access s).picks = s.picks := by
  unfold access; split <;> simp

@[simp] theorem runAccesses_picks (m : Nat) : (runAccesses m s).picks = s.picks :=
  runAccesses_keeps (P := fun x => x.picks = s.picks) (fun x _ hx => by simp [hx]) m s rfl

@[simp] theorem conclude_pickTick : (conclude l s).pickTick = s.pickTick := by
  unfold conclude; split <;> simp

@[simp] theorem pollOrFail_pickTick : (pollOrFail l s).pickTick = s.pickTick := by
  unfold pollOrFail; split <;> simp

@[simp] theorem afterPoll_pickTick : (afterPoll l v s).pickTick = s.pickTick := by
  simp only [afterPoll]; split <;> simp

@[simp] theorem decideFifo_pickTick : (decideFifo t on s).pickTick = s.pickTick := by
  unfold decideFifo enableFifo reportFifo; split <;> split <;> simp

@[simp] theorem afterScan_pickTick : (afterScan t c v on s).pickTick = s.pickTick := by
  unfold afterScan; split <;> simp

@[simp] theorem afterDisable_pickTick : (afterDisable c s).pickTick = s.pickTick := by
  unfold afterDisable; split <;> simp

@[simp] theorem afterWrite_pickTick : (afterWrite k s).pickTick = s.pickTick := by
  unfold afterWrite; split <;> simp

@[simp] theorem access_pickTick : (access s).pickTick = s.pickTick := by
  unfold access; split <;> simp

@[simp] theorem runAccesses_pickTick (m : Nat) : (runAccesses m s).pickTick = s.pickTick :=
  runAccesses_keeps (P := fun x => x.pickTick = s.pickTick) (fun x _ hx => by simp [hx]) m s rfl

/-! ### Every access uses one choice of the environment -/

@[simp] theorem conclude_moves : (conclude l s).moves = s.moves := by
  unfold conclude; split <;> simp

@[simp] theorem pollOrFail_moves : (pollOrFail l s).moves = s.moves := by
  unfold pollOrFail; split <;> simp

@[simp] theorem afterPoll_moves : (afterPoll l v s).moves = s.moves := by
  simp only [afterPoll]; split <;> simp

@[simp] theorem decideFifo_moves : (decideFifo t on s).moves = s.moves := by
  unfold decideFifo enableFifo reportFifo; split <;> split <;> simp

@[simp] theorem afterScan_moves : (afterScan t c v on s).moves = s.moves := by
  unfold afterScan; split <;> simp

@[simp] theorem afterDisable_moves : (afterDisable c s).moves = s.moves := by
  unfold afterDisable; split <;> simp

@[simp] theorem afterWrite_moves : (afterWrite k s).moves = s.moves := by
  unfold afterWrite; split <;> simp

theorem access_moves {s : State} (h : s.phase ≠ .idle) : (access s).moves = s.moves.tail := by
  unfold access; split <;> simp_all

end

end Sys2Proof.Machine
end

