-- ==== Sys2Proof/Laws/Commands.lean ====
section
/-! SUPPORT. The closed form of each command shape while no reset is in progress (as in every Ready state, 44_lifecycle_reset.md
R170): one lemma for each, which says the whole next state. -/

namespace Sys2Proof.Machine

theorem target_global {d : Descriptor} (h : d.scope = .global) (c : Chan) : target d c = .modulctrl := by
  simp [target, h]

theorem target_perChannel {d : Descriptor} (h : d.scope = .perChannel) (c : Chan) : target d c = .conf c := by
  simp [target, h]

theorem target_ne_sysconfig (d : Descriptor) (c : Chan) : target d c ≠ .sysconfig := by
  unfold target; split <;> simp

/-- The register a descriptor reaches stands at `addr(d, c)` (20_memory.md R54). -/
theorem target_offset (d : Descriptor) (c : Chan) : (target d c).offset = d.addr c.toNat := by
  unfold target Descriptor.addr Descriptor.reg
  cases d.scope <;> rfl

theorem tail_tail {α : Type} (l : List α) : l.tail.tail = l.drop 2 := by
  rw [← List.drop_one, ← List.drop_one, List.drop_drop]

/-! ### The commands of one or two accesses, whatever the environment does -/

/-- The command of phase `p` has taken the lock. -/
def locked (p : Phase) (s : State) : State := (s.setPhase p).lock

theorem runFrom_eq (p : Phase) (s : State) : runFrom p s = runAccesses (accessBound s.params) (locked p s) := rfl

theorem runFrom_fieldRead_any (f : FieldId) (r : NvReg) (s : State) :
    runFrom (.fieldRead f r) s =
      returnWord ((s.params.table.get f).extract (memRead (.nv r) (locked (.fieldRead f r) s)).1)
        (memRead (.nv r) (locked (.fieldRead f r) s)).2 := by
  obtain ⟨m, hm⟩ := accessBound_eq s.params
  rw [runFrom_eq, hm]
  have hb : (access (locked (.fieldRead f r) s)).busy = false := by simp [access, locked]
  rw [runAccesses_busy rfl, runAccesses_quiet hb]
  rfl

theorem runFrom_wordRead_any (r : Reg) (s : State) :
    runFrom (.wordRead r) s =
      returnWord (memRead r (locked (.wordRead r) s)).1 (memRead r (locked (.wordRead r) s)).2 := by
  obtain ⟨m, hm⟩ := accessBound_eq s.params
  rw [runFrom_eq, hm]
  have hb : (access (locked (.wordRead r) s)).busy = false := by simp [access, locked]
  rw [runAccesses_busy rfl, runAccesses_quiet hb]
  rfl

/-- The state between the read and the write of an RMW. -/
def rmwMid (r : NvReg) (mask bits : Word) (k : After) (s : State) : State :=
  (memRead (.nv r) s).2.setPhase (.rmwWrite r mask bits (memRead (.nv r) s).1 k)

theorem runFrom_rmw_any (r : NvReg) (mask bits : Word) (s : State) :
    let x := locked (.rmwRead r mask bits .done) s
    runFrom (.rmwRead r mask bits .done) s =
      returnWord 0 (memWrite r (rmwWord (memRead (.nv r) x).1 mask bits) (rmwMid r mask bits .done x)) := by
  obtain ⟨m, hm⟩ := accessBound_eq s.params
  simp only [runFrom_eq, hm]
  rw [runAccesses_busy rfl]
  have hb : (access (locked (.rmwRead r mask bits .done) s)).busy = true := by simp [access, locked]
  rw [runAccesses_busy hb]
  exact runAccesses_quiet rfl _

/-! ### Single reads and writes -/

/-- `FieldRead` and `return` (40_engine.md R108). -/
theorem runFrom_fieldRead {s : State} (h : s.pend = false) (f : FieldId) (r : NvReg) :
    runFrom (.fieldRead f r) s = { s with
      busy := false
      phase := .idle
      responses := s.responses ++ [⟨.ok, (s.params.table.get f).extract (s.bank.word r), none⟩]
      log := s.log ++ [.read r.offset (s.bank.word r)]
      moves := s.moves.tail
      tick := s.tick + 1 } := by
  obtain ⟨m, hm⟩ := accessBound_eq s.params
  simp [runFrom_eq, locked, hm, runAccesses, access, readWord_nv, environment_noPend, h]
  simp [returnWord, respond, State.emit, State.useMove, State.setPhase, State.lock, Reg.offset, h]

/-- A read of a whole register and `return` (45_status.md R180, R181). -/
theorem runFrom_wordRead {s : State} (h : s.pend = false) (r : Reg) :
    runFrom (.wordRead r) s = { s with
      busy := false
      phase := .idle
      responses := s.responses ++ [⟨.ok, regWord r s.move.draw s, none⟩]
      log := s.log ++ [.read r.offset (regWord r s.move.draw s)]
      moves := s.moves.tail
      tick := s.tick + 1 } := by
  obtain ⟨m, hm⟩ := accessBound_eq s.params
  have e : ∀ x : State, x.pend = false → readWord r x = regWord r x.move.draw x := fun x hx => by
    cases r <;> simp [readWord, regWord, environment_noPend, hx]
  simp [runFrom_eq, locked, hm, runAccesses, access, e, environment_noPend, h]
  cases r <;> simp [regWord, returnWord, respond, State.emit, State.useMove, State.setPhase, State.lock, State.move,
    State.moveAt, h]

/-- An RMW, and the state in which what follows it begins (40_engine.md R105). -/
theorem runAccesses_rmw {s : State} (h : s.pend = false) {r : NvReg} (hr : r ≠ .sysconfig) (mask bits : Word)
    (k : After) (n : Nat) :
    runAccesses (n + 2) (locked (.rmwRead r mask bits k) s) =
      runAccesses n (afterWrite k { s with
        bank := s.bank.put r (rmwWord (s.bank.word r) mask bits)
        busy := true
        phase := .rmwWrite r mask bits (s.bank.word r) k
        log := s.log ++ [.read r.offset (s.bank.word r), .write r.offset (rmwWord (s.bank.word r) mask bits)]
        moves := s.moves.drop 2
        tick := s.tick + 2 }) := by
  have hb : (r == NvReg.sysconfig) = false := by simpa using hr
  simp [locked, runAccesses, access, readWord_nv, environment_noPend, h, memWrite]
  simp [State.emit, State.useMove, State.setPhase, State.lock, store, hb, h, Reg.offset, tail_tail]

/-- `FieldWrite` and `return 0` (40_engine.md R105). -/
theorem runAccesses_rmw_done {s : State} (h : s.pend = false) {r : NvReg} (hr : r ≠ .sysconfig) (mask bits : Word)
    (n : Nat) :
    runAccesses (n + 2) (locked (.rmwRead r mask bits .done) s) = { s with
      bank := s.bank.put r (rmwWord (s.bank.word r) mask bits)
      busy := false
      phase := .idle
      responses := s.responses ++ [⟨.ok, 0, none⟩]
      log := s.log ++ [.read r.offset (s.bank.word r), .write r.offset (rmwWord (s.bank.word r) mask bits)]
      moves := s.moves.drop 2
      tick := s.tick + 2 } := by
  rw [runAccesses_rmw h hr, afterWrite, runAccesses_quiet rfl]
  rfl

theorem runFrom_rmw {s : State} (h : s.pend = false) {r : NvReg} (hr : r ≠ .sysconfig) (mask bits : Word) :
    runFrom (.rmwRead r mask bits .done) s = { s with
      bank := s.bank.put r (rmwWord (s.bank.word r) mask bits)
      busy := false
      phase := .idle
      responses := s.responses ++ [⟨.ok, 0, none⟩]
      log := s.log ++ [.read r.offset (s.bank.word r), .write r.offset (rmwWord (s.bank.word r) mask bits)]
      moves := s.moves.drop 2
      tick := s.tick + 2 } := by
  obtain ⟨m, hm⟩ := accessBound_eq s.params
  rw [runFrom_eq, hm]
  exact runAccesses_rmw_done h hr mask bits (m + 6)

/-! ### The FIFO scan -/

/-- The channels among `cs` with `e[c] = 1`, in order (43_fifo.md R150). -/
def enabledOf (s : State) (cs : List Chan) : List Chan :=
  cs.filter fun c => s.params.table.ffe.extract (s.bank.word (.conf c)) = 1

/-- The decision sets its own phase. -/
theorem decideFifo_phase (t : Option Chan) (on : List Chan) (s : State) (p : Phase) :
    decideFifo t on { s with phase := p } = decideFifo t on s := by
  cases t with
  | none => cases on <;> rfl
  | some n =>
    simp only [decideFifo, enableFifo]
    cases on.find? (· != n) <;> rfl

theorem fifoEnabled_eq (s : State) (c : Chan) (cs : List Chan) :
    fifoEnabled s.params c (s.bank.word (.conf c)) (enabledOf s cs) = enabledOf s (cs ++ [c]) := by
  unfold fifoEnabled enabledOf
  rw [List.filter_append]
  by_cases h : s.params.table.ffe.extract (s.bank.word (.conf c)) = 1
  · rw [if_pos h, List.filter_cons_of_pos (by simpa using h), List.filter_nil]
  · rw [if_neg h, List.filter_cons_of_neg (by simpa using h), List.filter_nil, List.append_nil]

/-- The state after the reads of the conf registers of `cs`, in order. -/
def readConfs (s : State) (cs : List Chan) : State :=
  { s with
    busy := true
    log := s.log ++ cs.map fun c => .read (NvReg.conf c).offset (s.bank.word (.conf c))
    moves := s.moves.drop cs.length
    tick := s.tick + cs.length }

/-- One read of the scan. -/
theorem runAccesses_scan {s : State} (h : s.pend = false) (hs : s.params.table.ffe.scope = .perChannel)
    (t : Option Chan) (c : Chan) (cs : List Chan) (n : Nat) :
    runAccesses (n + 1) ((readConfs s cs).setPhase (.fifoScan t c (enabledOf s cs))) =
      runAccesses n (if c = 3 then decideFifo t (enabledOf s (cs ++ [c])) (readConfs s (cs ++ [c]))
        else (readConfs s (cs ++ [c])).setPhase (.fifoScan t (c + 1) (enabledOf s (cs ++ [c])))) := by
  have e (x : State) (hx : x = (readConfs s cs).setPhase (.fifoScan t c (enabledOf s cs))) :
      memRead (.nv (.conf c)) x =
        (s.bank.word (.conf c), (readConfs s (cs ++ [c])).setPhase (.fifoScan t c (enabledOf s cs))) := by
    have hp : x.pend = false := hx ▸ h
    simp only [memRead, readWord_nv hp, environment_noPend hp]
    subst hx
    simp [State.setPhase, readConfs, State.useMove, State.emit, Reg.offset, Nat.add_assoc]
  rw [runAccesses_busy rfl]
  congr 1
  have a : access ((readConfs s cs).setPhase (.fifoScan t c (enabledOf s cs))) =
      afterScan t c (memRead (.nv (target s.params.table.ffe c)) ((readConfs s cs).setPhase (.fifoScan t c (enabledOf s cs)))).1
        (enabledOf s cs)
        (memRead (.nv (target s.params.table.ffe c)) ((readConfs s cs).setPhase (.fifoScan t c (enabledOf s cs)))).2 := rfl
  rw [a, target_perChannel hs, e _ rfl]
  unfold afterScan
  rw [show ((readConfs s (cs ++ [c])).setPhase (.fifoScan t c (enabledOf s cs))).params = s.params from rfl, fifoEnabled_eq]
  split
  · exact decideFifo_phase _ _ _ _
  · rfl

/-- The four reads of a FIFO scan, then its decision (43_fifo.md R151, R152). -/
theorem runAccesses_fifoScan {s : State} (h : s.pend = false) (hs : s.params.table.ffe.scope = .perChannel)
    (t : Option Chan) (n : Nat) :
    runAccesses (n + 4) (locked (.fifoScan t 0 []) s) =
      runAccesses n (decideFifo t (enabledOf s allChans) (readConfs s allChans)) := by
  have e : ((locked (.fifoScan t 0 []) s) : State) =
      (readConfs s []).setPhase (.fifoScan t 0 (enabledOf s [])) := by simp [locked, State.setPhase, State.lock, readConfs, enabledOf]
  rw [e, runAccesses_scan h hs, if_neg (by decide), runAccesses_scan h hs, if_neg (by decide), runAccesses_scan h hs,
    if_neg (by decide), runAccesses_scan h hs, if_pos (by decide)]
  rfl

theorem runFrom_fifoScan {s : State} (h : s.pend = false) (hs : s.params.table.ffe.scope = .perChannel)
    (t : Option Chan) :
    ∃ m, runFrom (.fifoScan t 0 []) s =
      runAccesses (m + 4) (decideFifo t (enabledOf s allChans) (readConfs s allChans)) := by
  obtain ⟨m, hm⟩ := accessBound_eq s.params
  exact ⟨m, by rw [runFrom_eq, hm]; exact runAccesses_fifoScan h hs t (m + 4)⟩

/-- GETFIFO after its reads (43_fifo.md R152). -/
theorem runFrom_getFifo {s : State} (h : s.pend = false) (hs : s.params.table.ffe.scope = .perChannel) :
    runFrom (.fifoScan none 0 []) s = returnWord
      (match enabledOf s allChans with
        | c :: _ => c.setWidth 32
        | [] => 0xFFFFFFFF) (readConfs s allChans) := by
  obtain ⟨m, hm⟩ := runFrom_fifoScan h hs none
  simp only [hm, decideFifo]
  cases enabledOf s allChans <;> exact runAccesses_quiet rfl _

/-- SETFIFO n after its reads, with another channel enabled (43_fifo.md R151). -/
theorem runFrom_setFifo_conflict {s : State} (h : s.pend = false) (hs : s.params.table.ffe.scope = .perChannel)
    {n c : Chan} (hc : (enabledOf s allChans).find? (· != n) = some c) :
    runFrom (.fifoScan (some n) 0 []) s = raise .fifoConflict (some (c.setWidth 32)) (readConfs s allChans) := by
  obtain ⟨m, hm⟩ := runFrom_fifoScan h hs (some n)
  simp only [hm, decideFifo, enableFifo, hc]
  exact runAccesses_quiet rfl _

/-- SETFIFO n with no other channel enabled (43_fifo.md R151). -/
theorem runFrom_setFifo_enable {s : State} (h : s.pend = false) (hs : s.params.table.ffe.scope = .perChannel)
    {n : Chan} (hc : (enabledOf s allChans).find? (· != n) = none) :
    let d := s.params.table.ffe
    let old := s.bank.word (.conf n)
    runFrom (.fifoScan (some n) 0 []) s = { readConfs s allChans with
      bank := s.bank.put (.conf n) (d.insert old 1)
      busy := false
      phase := .idle
      responses := s.responses ++ [⟨.ok, 0, none⟩]
      log := (readConfs s allChans).log ++
        [.read (NvReg.conf n).offset old, .write (NvReg.conf n).offset (d.insert old 1)]
      moves := s.moves.drop 6
      tick := s.tick + 6 } := by
  obtain ⟨m, hm⟩ := runFrom_fifoScan h hs (some n)
  simp only [hm, decideFifo, enableFifo, hc, fieldWrite]
  rw [show (readConfs s allChans).params = s.params from rfl, target_perChannel hs]
  exact (runAccesses_rmw_done (s := readConfs s allChans) h (by simp) _ _ (m + 2)).trans
    (by simp [readConfs, allChans, Descriptor.insert])

/-! ### The disable form of SETFIFO -/

/-- The state after the RMW that clears the FFE field of channel `c` (43_fifo.md R151). -/
def clearConf (c : Chan) (s : State) : State :=
  { s with
    bank := s.bank.put (.conf c) (s.params.table.ffe.insert (s.bank.word (.conf c)) 0)
    busy := true
    phase := .rmwWrite (.conf c) s.params.table.ffe.mask (s.params.table.ffe.bits 0) (s.bank.word (.conf c)) (.disable c)
    log := s.log ++ [.read (NvReg.conf c).offset (s.bank.word (.conf c)),
      .write (NvReg.conf c).offset (s.params.table.ffe.insert (s.bank.word (.conf c)) 0)]
    moves := s.moves.drop 2
    tick := s.tick + 2 }

/-- One RMW of the disable loop. -/
theorem runAccesses_disable {s : State} (h : s.pend = false) (hb : s.busy = true)
    (hs : s.params.table.ffe.scope = .perChannel) (c : Chan) (n : Nat) :
    runAccesses (n + 2) (disableFifo c s) = runAccesses n (afterDisable c (clearConf c s)) := by
  have e : disableFifo c s =
      locked (.rmwRead (.conf c) s.params.table.ffe.mask (s.params.table.ffe.bits 0) (.disable c)) s := by
    simp only [disableFifo, fieldWrite, target_perChannel hs, locked, State.setPhase, State.lock, hb.symm]
  rw [e, runAccesses_rmw h (by simp)]
  rfl

/-- The disable form of SETFIFO: four RMWs in order, then `return 0` (43_fifo.md R151). -/
theorem runCommand_disableFifo {s : State} (h : s.pend = false) (hs : s.params.table.ffe.scope = .perChannel) :
    runCommand (disableFifo 0 s) = returnWord 0 (clearConf 3 (clearConf 2 (clearConf 1 (clearConf 0 s)))) := by
  obtain ⟨m, hm⟩ := accessBound_eq s.params
  have e : runCommand (disableFifo 0 s) = runAccesses (m + 6 + 2) (disableFifo 0 s.lock) := by
    simp only [runCommand, disableFifo_params, hm]; rfl
  have next {c d : Chan} (hc : c ≠ 3) (hd : c + 1 = d) (x : State) : afterDisable c x = disableFifo d x := by
    subst hd; exact if_neg hc
  have one : clearConf 0 s.lock = clearConf 0 s := rfl
  rw [e, runAccesses_disable (s := s.lock) h rfl hs, one, next (d := 1) (by decide) rfl]
  rw [runAccesses_disable (s := clearConf 0 s) h rfl hs _ (m + 4), next (d := 2) (by decide) rfl]
  rw [runAccesses_disable (s := clearConf 1 (clearConf 0 s)) h rfl hs _ (m + 2), next (d := 3) (by decide) rfl]
  exact (runAccesses_disable (s := clearConf 2 (clearConf 1 (clearConf 0 s))) h rfl hs _ m).trans
    (runAccesses_quiet rfl _)

end Sys2Proof.Machine
end

