-- ==== Sys2Proof/Laws/Fields.lean ====
section
/-! SUPPORT. What the checks of an admitted table give, and what a field insertion does to its own field and to the others:
one lemma for each. -/

namespace Sys2Proof

/-! ### The rows of an admitted table -/

theorem mem_all (f : FieldId) : f ∈ FieldId.all := by cases f <;> decide

theorem FieldTable.scope_of_scoped {t : FieldTable} (h : t.scoped = true) (f : FieldId) : (t.get f).scope = f.scope := by
  have := List.all_eq_true.mp h f (mem_all f)
  simpa using this

theorem FieldTable.row_wellFormed {t : FieldTable} (h : t.wellFormed = true) (f : FieldId) :
    (t.get f).wellFormed = true := by
  simp only [FieldTable.wellFormed, FieldTable.admitted, Bool.and_eq_true] at h
  exact List.all_eq_true.mp h.1.1.1 f (mem_all f)

theorem FieldTable.scoped_of_wellFormed {t : FieldTable} (h : t.wellFormed = true) : t.scoped = true := by
  simp only [FieldTable.wellFormed, FieldTable.admitted, Bool.and_eq_true] at h
  exact h.1.2

/-- Two fields of one register have disjoint masks (40_engine.md R101 condition 5). -/
theorem FieldTable.mask_disjoint {t : FieldTable} (h : t.wellFormed = true) {f g : FieldId} (hne : f ≠ g)
    (hs : (t.get f).scope = (t.get g).scope) : (t.get f).mask &&& (t.get g).mask = 0 := by
  simp only [FieldTable.wellFormed, FieldTable.admitted, Bool.and_eq_true] at h
  have := List.all_eq_true.mp (List.all_eq_true.mp h.1.1.2 f (mem_all f)) g (mem_all g)
  simpa [FieldTable.disjointAt, hne, hs] using this

theorem Descriptor.fits_iff {d : Descriptor} : d.fits = true ↔ 1 ≤ d.w ∧ d.pos + d.w ≤ 32 := by
  simp [Descriptor.fits]

theorem Descriptor.enc_lt {d : Descriptor} (h : d.wellFormed = true) {u : Word} (hu : u ∈ d.dom) :
    (d.codec.enc u).toNat < 2 ^ d.w := by
  simp only [Descriptor.wellFormed, Descriptor.encFits, Bool.and_eq_true] at h
  simpa using List.all_eq_true.mp h.1.2 u hu

theorem Descriptor.dec_enc {d : Descriptor} (h : d.wellFormed = true) {u : Word} (hu : u ∈ d.dom) :
    d.codec.dec (d.codec.enc u) = u := by
  simp only [Descriptor.wellFormed, Descriptor.roundTrips, Bool.and_eq_true] at h
  simpa using List.all_eq_true.mp h.2 u hu

theorem Descriptor.fits_of_wellFormed {d : Descriptor} (h : d.wellFormed = true) : 1 ≤ d.w ∧ d.pos + d.w ≤ 32 := by
  simp only [Descriptor.wellFormed, Bool.and_eq_true] at h
  exact Descriptor.fits_iff.mp h.1.1

/-! ### Bits -/

theorem getLsbD_lowMask (w i : Nat) : (lowMask w).getLsbD i = (decide (i < 32) && decide (i < w)) := by
  simp [lowMask, BitVec.getLsbD_ofNat, Nat.testBit_two_pow_sub_one]

theorem getLsbD_mask (d : Descriptor) (i : Nat) :
    d.mask.getLsbD i = (decide (i < 32) && decide (d.pos ≤ i) && decide (i < d.pos + d.w)) := by
  simp only [Descriptor.mask, BitVec.getLsbD_shiftLeft, getLsbD_lowMask]
  rw [Bool.eq_iff_iff]
  simp only [Bool.and_eq_true, Bool.not_eq_true', decide_eq_true_eq, decide_eq_false_iff_not]
  omega

theorem getLsbD_field (d : Descriptor) (v : Word) (i : Nat) :
    (d.field v).getLsbD i = (decide (i < d.w) && v.getLsbD (d.pos + i)) := by
  simp only [Descriptor.field, BitVec.getLsbD_and, BitVec.getLsbD_ushiftRight, getLsbD_lowMask]
  by_cases h1 : i < 32
  · simp [h1, Bool.and_comm]
  · rw [BitVec.getLsbD_of_ge v (d.pos + i) (by omega)]; simp

theorem getLsbD_rmwWord (old mask bits : Word) (i : Nat) :
    (rmwWord old mask bits).getLsbD i = (old.getLsbD i && !mask.getLsbD i || bits.getLsbD i) := by
  simp only [rmwWord, BitVec.getLsbD_or, BitVec.getLsbD_and, BitVec.getLsbD_not]
  by_cases h : i < 32
  · simp [h]
  · simp [BitVec.getLsbD_of_ge old i (by omega)]

/-- The encoded value occupies no bit outside the mask (40_engine.md R101 condition 3). -/
theorem Descriptor.bits_within {d : Descriptor} {u : Word} (h : (d.codec.enc u).toNat < 2 ^ d.w) (i : Nat)
    (hi : d.mask.getLsbD i = false) : (d.bits u).getLsbD i = false := by
  simp only [Descriptor.bits, BitVec.getLsbD_shiftLeft]
  by_cases h1 : i < 32
  · by_cases h2 : d.pos ≤ i
    · have h3 : d.w ≤ i - d.pos := by
        rw [getLsbD_mask] at hi
        simp only [h1, h2, decide_true, Bool.true_and, decide_eq_false_iff_not] at hi
        omega
      have : (d.codec.enc u).getLsbD (i - d.pos) = false :=
        Nat.testBit_lt_two_pow (Nat.lt_of_lt_of_le h (Nat.pow_le_pow_right (by omega) h3))
      simp [this]
    · simp [show i < d.pos by omega]
  · simp [h1]

/-! ### Insertion and extraction -/

/-- The field of the word a set writes is the encoded value. -/
theorem Descriptor.field_insert {d : Descriptor} (hd : d.wellFormed = true) {u : Word} (hu : u ∈ d.dom) (old : Word) :
    d.field (d.insert old u) = d.codec.enc u := by
  have hf := d.fits_of_wellFormed hd
  apply BitVec.eq_of_getLsbD_eq
  intro i hi
  rw [getLsbD_field, Descriptor.insert, getLsbD_rmwWord, getLsbD_mask]
  by_cases h1 : i < d.w
  · have h2 : d.pos + i < 32 := by omega
    simp [h1, h2, hi, Descriptor.bits]
  · have : (d.codec.enc u).getLsbD i = false :=
      Nat.testBit_lt_two_pow (Nat.lt_of_lt_of_le (Descriptor.enc_lt hd hu) (Nat.pow_le_pow_right (by omega) (by omega)))
    simp [h1, this]

/-- Round trip of one field (40_engine.md R110). -/
theorem Descriptor.extract_insert {d : Descriptor} (hd : d.wellFormed = true) {u : Word} (hu : u ∈ d.dom)
    (old : Word) : d.extract (d.insert old u) = u := by
  rw [Descriptor.extract, Descriptor.field_insert hd hu, Descriptor.dec_enc hd hu]

/-- An RMW outside a field's mask leaves the field (40_engine.md R109). -/
theorem Descriptor.field_rmwWord {d : Descriptor} (old : Word) {mask bits : Word}
    (hm : d.mask &&& mask = 0) (hb : ∀ i, mask.getLsbD i = false → bits.getLsbD i = false) (hf : d.pos + d.w ≤ 32) :
    d.field (rmwWord old mask bits) = d.field old := by
  apply BitVec.eq_of_getLsbD_eq
  intro i hi
  rw [getLsbD_field, getLsbD_field, getLsbD_rmwWord]
  by_cases h1 : i < d.w
  · have h2 : mask.getLsbD (d.pos + i) = false := by
      have := congrArg (fun v => BitVec.getLsbD v (d.pos + i)) hm
      simpa [getLsbD_mask, h1, show d.pos + i < 32 by omega] using this
    simp [h2, hb _ h2]
  · simp [h1]

/-- A set leaves every field with a disjoint mask (40_engine.md R109). -/
theorem Descriptor.extract_insert_other {d e : Descriptor} (hd : d.wellFormed = true) (he : e.wellFormed = true)
    {u : Word} (hu : u ∈ e.dom) (hm : d.mask &&& e.mask = 0) (old : Word) :
    d.extract (e.insert old u) = d.extract old := by
  rw [Descriptor.extract, Descriptor.insert,
    Descriptor.field_rmwWord old hm (fun i => Descriptor.bits_within (Descriptor.enc_lt he hu) i)
      (d.fits_of_wellFormed hd).2, Descriptor.extract]

/-- Two insertions with disjoint masks give one word in either order (20_memory.md R64). -/
theorem Descriptor.insert_comm {d e : Descriptor} (hd : d.wellFormed = true) (he : e.wellFormed = true) {u v : Word}
    (hu : u ∈ d.dom) (hv : v ∈ e.dom) (hm : d.mask &&& e.mask = 0) (old : Word) :
    e.insert (d.insert old u) v = d.insert (e.insert old v) u := by
  apply BitVec.eq_of_getLsbD_eq
  intro i hi
  simp only [Descriptor.insert, getLsbD_rmwWord]
  have hx : (d.mask.getLsbD i && e.mask.getLsbD i) = false := by
    simpa using congrArg (fun v => BitVec.getLsbD v i) hm
  have h1 := Descriptor.bits_within (Descriptor.enc_lt hd hu) i
  have h2 := Descriptor.bits_within (Descriptor.enc_lt he hv) i
  cases h3 : d.mask.getLsbD i <;> cases h4 : e.mask.getLsbD i <;> simp_all

/-- A field value is below `2 ^ w`. -/
theorem Descriptor.field_lt (d : Descriptor) (v : Word) : (d.field v).toNat < 2 ^ d.w := by
  apply Nat.lt_pow_two_of_testBit
  intro i hi
  have := getLsbD_field d v i
  rw [BitVec.getLsbD] at this
  simpa [show ¬ i < d.w by omega] using this

/-! ### The default rows -/

theorem mem_valuesFrom {lo hi : Nat} (h : hi < 2 ^ 32) (a : Word) :
    a ∈ valuesFrom lo hi ↔ lo ≤ a.toNat ∧ a.toNat ≤ hi := by
  simp only [valuesFrom, List.mem_map, List.mem_range]
  constructor
  · rintro ⟨i, hi', rfl⟩
    simp only [BitVec.toNat_ofNat]; omega
  · intro h'
    exact ⟨a.toNat - lo, by omega, by apply BitVec.eq_of_toNat_eq; simp; omega⟩

/-- The masked shift is the slice `v[pos + w - 1 : pos]` (00_scope.md R10). -/
theorem field_eq_slice (v : Word) (p w : Nat) : (v >>> p) &&& lowMask w = (v.extractLsb' p w).setWidth 32 := by
  apply BitVec.eq_of_getLsbD_eq
  intro i hi
  simp only [BitVec.getLsbD_and, BitVec.getLsbD_ushiftRight, getLsbD_lowMask, BitVec.getLsbD_setWidth,
    BitVec.getLsbD_extractLsb', hi, Bool.and_comm, decide_true, Bool.true_and]

@[simp] theorem identity_enc (a : Word) : Codec.identity.enc a = a := by simp [Codec.identity, Codec.enc]

@[simp] theorem identity_dec (a : Word) : Codec.identity.dec a = a := by simp [Codec.identity, Codec.dec]

theorem default_scoped : FieldTable.default.scoped = true := by decide

/-! ### The FIFO enable -/

/-- The FFE domain is {0, 1} (43_fifo.md R150). -/
theorem FieldTable.ffe_dom {t : FieldTable} (h : t.wellFormed = true) : t.ffe.dom = [0, 1] := by
  simp only [FieldTable.wellFormed, FieldTable.admitted, FieldTable.fifoRow, Bool.and_eq_true] at h
  simpa using h.2.1

/-- `fifoOn` reads 1 exactly when the field is non-zero (43_fifo.md R150). -/
theorem FieldTable.ffe_extract {t : FieldTable} (h : t.wellFormed = true) (v : Word) :
    t.ffe.extract v = if t.ffe.field v = 0 then 0 else 1 := by
  simp only [FieldTable.wellFormed, FieldTable.admitted, FieldTable.fifoRow, Bool.and_eq_true] at h
  have := List.all_eq_true.mp h.2.2 (t.ffe.field v).toNat (List.mem_range.mpr (t.ffe.field_lt v))
  simp only [BitVec.ofNat_toNat, BitVec.setWidth_eq, beq_iff_eq] at this
  rw [Descriptor.extract, this]
  simp [← BitVec.toNat_inj]

/-! ### FIFO exclusivity -/

theorem chan_cases (c : Chan) : c = 0 ∨ c = 1 ∨ c = 2 ∨ c = 3 := by revert c; decide

theorem vector_four (v : Vector Word 4) : v = #v[v[0], v[1], v[2], v[3]] := by
  apply Vector.ext
  intro i hi
  have : i = 0 ∨ i = 1 ∨ i = 2 ∨ i = 3 := by omega
  rcases this with rfl | rfl | rfl | rfl <;> rfl

theorem at_most_one : ∀ b0 b1 b2 b3 : Bool, b0.toNat + b1.toNat + b2.toNat + b3.toNat ≤ 1 ↔
    ∀ c d : Chan, (#v[b0, b1, b2, b3])[c.toNat]'c.isLt = true → (#v[b0, b1, b2, b3])[d.toNat]'d.isLt = true → c = d := by
  decide

/-- FIFO exclusivity, channel by channel (10_state.md R42). -/
theorem FieldTable.exclusive_iff (t : FieldTable) (v : Vector Word 4) :
    t.exclusive v = true ↔ ∀ c d : Chan, t.ffe.field (v[c.toNat]'c.isLt) ≠ 0 → t.ffe.field (v[d.toNat]'d.isLt) ≠ 0 →
      c = d := by
  have e : (v.toList.countP fun w => t.ffe.field w != 0) = (t.ffe.field v[0] != 0).toNat + (t.ffe.field v[1] != 0).toNat +
      (t.ffe.field v[2] != 0).toNat + (t.ffe.field v[3] != 0).toNat := by
    conv => lhs; rw [vector_four v]
    simp only [Vector.toList, List.countP_cons, List.countP_nil, Bool.toNat, cond_eq_ite]
    omega
  have f (c : Chan) : (#v[t.ffe.field v[0] != 0, t.ffe.field v[1] != 0, t.ffe.field v[2] != 0,
      t.ffe.field v[3] != 0])[c.toNat]'c.isLt = (t.ffe.field (v[c.toNat]'c.isLt) != 0) := by
    rcases chan_cases c with rfl | rfl | rfl | rfl <;> rfl
  rw [FieldTable.exclusive, decide_eq_true_iff, e, at_most_one]
  simp only [f, bne_iff_ne]

/-- The FFE field is zero exactly where the enable does not read 1 (43_fifo.md R150). -/
theorem FieldTable.ffe_field_zero {t : FieldTable} (h : t.wellFormed = true) (v : Word) :
    t.ffe.field v = 0 ↔ t.ffe.extract v ≠ 1 := by
  rw [FieldTable.ffe_extract h]; split <;> simp_all

/-! ### Admitted parameters -/

theorem Params.table_wellFormed {p : Params} (h : p.wellFormed = true) : p.table.wellFormed = true := by
  simp only [Params.wellFormed, Bool.and_eq_true] at h
  exact h.1

theorem Params.values_admitted {p : Params} (h : p.wellFormed = true) : p.valuesAdmitted = true := by
  simp only [Params.wellFormed, Bool.and_eq_true] at h
  exact h.2

theorem Params.bits_lt {p : Params} (h : p.wellFormed = true) : p.softresetBit < 32 ∧ p.resetdoneBit < 32 := by
  have h := Params.values_admitted h
  simp only [Params.valuesAdmitted, Params.ranged, Bool.and_eq_true, decide_eq_true_eq] at h
  exact ⟨h.2.1.2, h.2.2⟩

theorem Params.reset_exclusive {p : Params} (h : p.wellFormed = true) : p.table.exclusive p.resetValue.conf = true := by
  have h := Params.values_admitted h
  simp only [Params.valuesAdmitted, Params.resetValueAdmitted, Bool.and_eq_true] at h
  exact h.1.2

theorem FieldTable.admitted_of_wellFormed {t : FieldTable} (h : t.wellFormed = true) : t.admitted = true := by
  simp only [FieldTable.wellFormed, Bool.and_eq_true] at h
  exact h.1.1

end Sys2Proof
end

