-- ==== Sys2Proof/Laws/Construct.lean ====
section
/-! SUPPORT. What the construction of a block can do, guards included. -/

namespace Sys2Proof.Machine

theorem construct_cases (p : Params) (word : Nat → Word) :
    p.table.admitted = false ∧ State.construct p word = .refused .tableRefused ∨
      p.table.admitted = true ∧ p.valuesAdmitted = false ∧ State.construct p word = .refused .valueRefused ∨
      p.table.admitted = true ∧ p.valuesAdmitted = true ∧ State.construct p word = .next (State.powerOn p word) := by
  unfold State.construct
  cases p.table.admitted <;> cases p.valuesAdmitted <;> simp

theorem construct_of_wellFormed {p : Params} (h : p.wellFormed = true) (word : Nat → Word) :
    State.construct p word = .next (State.powerOn p word) := by
  simp [State.construct, FieldTable.admitted_of_wellFormed (Params.table_wellFormed h), Params.values_admitted h]

end Sys2Proof.Machine
end

