-- ==== Sys2Proof/Laws/Progress.lean ====
section
/-! SUPPORT. What one access of a command in progress can do, said once: it makes one bus access, and either the command is
complete with one more response, or fewer accesses are left (44_lifecycle_reset.md R169). -/

namespace Sys2Proof.Machine

/-! ### How many accesses are left -/

/-- The accesses left after the write of an RMW. -/
def After.left (s : State) : After → Nat
  | .done => 0
  | .disable c => 2 * (3 - c.toNat)
  | .polling _ => s.params.resetPollMax - s.seq.polls

/-- The accesses a command at the phase has left, at most. -/
def Phase.left (s : State) : Phase → Nat
  | .idle => 0
  | .rmwRead _ _ _ k => 2 + k.left s
  | .rmwWrite _ _ _ _ k => 1 + k.left s
  | .fieldRead _ _ => 1
  | .fifoScan t c _ => (4 - c.toNat) + if t.isSome then 2 else 0
  | .revRead => 3 + s.params.resetPollMax
  | .poll _ => max 1 (s.params.resetPollMax - s.seq.polls)
  | .wordRead _ => 1

theorem left_lock (s : State) (p : Phase) : p.left s.lock = p.left s := by
  have hk (k : After) : k.left s.lock = k.left s := by cases k <;> rfl
  cases p <;> simp only [Phase.left, hk] <;> rfl

/-- From `s`, right after a bus access, the command reached `t` with no further access: it goes on with at most `n` accesses
left, or it is complete. -/
structure Reaches (s t : State) (n : Nat) : Prop where
  log : ∃ diag, t.log = s.log ++ diag ∧ ∀ d ∈ diag, d.isBus = false
  next : t.busy = true ∧ t.phase ≠ .idle ∧ t.responses = s.responses ∧ t.phase.left t ≤ n ∨
    t.busy = false ∧ t.phase = .idle ∧ ∃ r, t.responses = s.responses ++ [r]

theorem respond_reaches (r : Response) (s : State) (n : Nat) : Reaches s (respond r s) n :=
  ⟨⟨[], by simp, by simp⟩, .inr ⟨rfl, rfl, r, rfl⟩⟩

theorem conclude_reaches (l : LifeCmd) (s : State) (n : Nat) : Reaches s (conclude l s) n := by
  unfold conclude
  split <;> exact ⟨⟨[], by simp, by simp⟩, .inr ⟨rfl, rfl, _, rfl⟩⟩

theorem pollOrFail_reaches (l : LifeCmd) {s : State} (h : s.busy = true) :
    Reaches s (pollOrFail l s) (s.params.resetPollMax - s.seq.polls) := by
  unfold pollOrFail
  split
  · exact ⟨⟨[], by simp, by simp⟩, .inl ⟨h, by simp, rfl, by simp [Phase.left]; omega⟩⟩
  · have := conclude_reaches l ((s.emit .timeout).setSeq .failed) (s.params.resetPollMax - s.seq.polls)
    obtain ⟨⟨diag, h1, h2⟩, h3⟩ := this
    refine ⟨⟨.timeout :: diag, by simp [h1], ?_⟩, h3⟩
    simpa [Event.isBus] using h2

theorem afterPoll_reaches (l : LifeCmd) (v : Word) {s : State} (h : s.busy = true) :
    Reaches s (afterPoll l v s) (s.params.resetPollMax - (s.seq.polls + 1)) := by
  simp only [afterPoll]
  split
  · have := conclude_reaches l (s.setSeq .done) (s.params.resetPollMax - (s.seq.polls + 1))
    exact ⟨this.log, this.next⟩
  · have := pollOrFail_reaches l (s := s.setSeq (.resetting (s.seq.polls + 1))) h
    exact ⟨this.log, this.next⟩

theorem afterDisable_reaches (c : Chan) {s : State} (h : s.busy = true) :
    Reaches s (afterDisable c s) (2 * (3 - c.toNat)) := by
  unfold afterDisable
  split
  · exact respond_reaches _ _ _
  · next hc =>
    refine ⟨⟨[], by simp, by simp⟩, .inl ⟨h, by simp [fieldWrite], rfl, ?_⟩⟩
    have : (c + 1).toNat = c.toNat + 1 ∧ c.toNat < 3 := by revert c; decide
    simp only [disableFifo_phase, fieldWrite, Phase.left, After.left]
    omega

theorem afterWrite_reaches (k : After) {s : State} (h : s.busy = true) : Reaches s (afterWrite k s) (k.left s) := by
  cases k with
  | done => exact respond_reaches _ _ _
  | disable c => exact afterDisable_reaches c h
  | polling l => exact pollOrFail_reaches l h

theorem decideFifo_reaches (t : Option Chan) (on : List Chan) {s : State} (h : s.busy = true) :
    Reaches s (decideFifo t on s) (if t.isSome then 2 else 0) := by
  unfold decideFifo enableFifo reportFifo
  split
  · split
    · exact respond_reaches _ _ _
    · exact ⟨⟨[], by simp, by simp⟩, .inl ⟨h, by simp [fieldWrite], rfl, by simp [fieldWrite, Phase.left, After.left]⟩⟩
  · split <;> exact respond_reaches _ _ _

theorem afterScan_reaches (t : Option Chan) (c : Chan) (v : Word) (on : List Chan) {s : State} (h : s.busy = true) :
    Reaches s (afterScan t c v on s) ((3 - c.toNat) + if t.isSome then 2 else 0) := by
  unfold afterScan
  split
  · next hc => subst hc; simpa using decideFifo_reaches t (fifoEnabled s.params 3 v on) h
  · next hc =>
    refine ⟨⟨[], by simp, by simp⟩, .inl ⟨h, by simp, rfl, ?_⟩⟩
    have : (c + 1).toNat = c.toNat + 1 ∧ c.toNat < 3 := by revert c; decide
    simp only [setPhase_phase, Phase.left]
    omega

theorem afterRevision_reaches (v : Word) {s : State} (h : s.busy = true) :
    Reaches s (afterRevision v s) (2 + s.params.resetPollMax) :=
  ⟨⟨[.rev (revisionMajor v) (revisionMinor v)], by simp, by simp [Event.isBus]⟩,
    .inl ⟨h, by simp, rfl, by simp [Phase.left, After.left, Seq.polls]⟩⟩

/-! ### One access -/

/-- `t` is the state after one access of the command in progress in `s`, seen from outside the command. -/
structure Advances (s t : State) : Prop where
  /-- One bus event, then only diagnostic ones. -/
  log : ∃ e diag, t.log = s.log ++ e :: diag ∧ e.isBus = true ∧ ∀ d ∈ diag, d.isBus = false
  /-- The command goes on with fewer accesses left, or it is complete. -/
  next : t.busy = true ∧ t.phase ≠ .idle ∧ t.responses = s.responses ∧ t.phase.left t + 1 ≤ s.phase.left s ∨
    t.busy = false ∧ t.phase = .idle ∧ ∃ r, t.responses = s.responses ++ [r]

theorem Reaches.advances {s x t : State} {n : Nat} {e : Event} (h : Reaches x t n) (hl : x.log = s.log ++ [e])
    (he : e.isBus = true) (hr : x.responses = s.responses) (hn : n + 1 ≤ s.phase.left s) : Advances s t := by
  obtain ⟨⟨diag, h1, h2⟩, h3⟩ := h
  refine ⟨⟨e, diag, by simp [h1, hl], he, h2⟩, ?_⟩
  rw [← hr]
  rcases h3 with ⟨a, b, c, d⟩ | h
  · exact .inl ⟨a, b, c, by omega⟩
  · exact .inr h

theorem memRead_log (r : Reg) (s : State) : (memRead r s).2.log = s.log ++ [.read r.offset (readWord r s)] := by simp

theorem access_advances {s : State} (hb : s.busy = true) (hp : s.phase ≠ .idle) : Advances s (access s) := by
  unfold access
  split
  · contradiction
  · next r mask bits k h =>
    refine ⟨⟨.read r.offset (readWord (.nv r) s), [], by simp [Reg.offset], rfl, by simp⟩,
      .inl ⟨by simpa using hb, by simp, by simp, ?_⟩⟩
    rw [h, setPhase_phase]
    simp only [Phase.left]
    cases k <;> simp [After.left]
  · next r mask bits old k h =>
    refine (afterWrite_reaches k (by simpa using hb)).advances
      (e := .write r.offset (rmwWord old mask bits)) (by simp) rfl (by simp) ?_
    rw [h]
    simp only [Phase.left]
    cases k <;> simp [After.left]
  · next f r h =>
    exact (respond_reaches _ _ 0).advances (e := .read r.offset (readWord (.nv r) s)) (by simp [Reg.offset]) rfl
      (by simp) (by rw [h]; simp [Phase.left])
  · next t c on h =>
    refine (afterScan_reaches t c _ on (by simpa using hb)).advances (memRead_log _ s) rfl (by simp) ?_
    rw [h]
    simp only [Phase.left]
    have := c.isLt
    omega
  · next h =>
    refine (afterRevision_reaches _ (by simpa using hb)).advances (memRead_log _ s) rfl (by simp) ?_
    rw [h]
    simp [Phase.left]
  · next l h =>
    refine (afterPoll_reaches l _ (by simpa using hb)).advances (memRead_log _ s) rfl (by simp) ?_
    rw [h]
    simp [Phase.left]
    omega
  · next r h => exact (respond_reaches _ _ 0).advances (memRead_log r s) rfl (by simp) (by rw [h]; simp [Phase.left])

/-! ### A whole command -/

/-- A command with at most `n` accesses left is complete after `n`, with one response and at most `n` bus events. -/
theorem runAccesses_completes {n : Nat} : ∀ {s : State}, s.busy = true → s.phase ≠ .idle → s.phase.left s ≤ n →
    (runAccesses n s).busy = false ∧ (runAccesses n s).phase = .idle ∧
      (∃ r, (runAccesses n s).responses = s.responses ++ [r]) ∧
      ∃ es, (runAccesses n s).log = s.log ++ es ∧ es.countP Event.isBus ≤ n := by
  induction n with
  | zero =>
    intro s _ hp h
    cases hs : s.phase <;> simp [hs, Phase.left] at h hp; omega
  | succ n ih =>
    intro s hb hp h
    rw [runAccesses_busy hb]
    obtain ⟨⟨e, diag, h1, h2, h3⟩, h4⟩ := access_advances hb hp
    have hd : diag.countP Event.isBus = 0 := by rw [List.countP_eq_zero]; simpa using h3
    rcases h4 with ⟨a, b, c, d⟩ | ⟨a, b, r, c⟩
    · obtain ⟨i1, i2, ⟨r, i3⟩, es, i4, i5⟩ := ih a b (by omega)
      exact ⟨i1, i2, ⟨r, i3.trans (by rw [c])⟩, e :: diag ++ es, by rw [i4, h1]; simp,
        by simp [List.countP_append, hd, h2]; omega⟩
    · rw [runAccesses_quiet a]
      exact ⟨a, b, ⟨r, c⟩, e :: diag, h1, by simp [hd, h2]⟩

/-- A command whose first phase has at most `accessBound` accesses completes within them. -/
theorem runCommand_completes {s : State} (hp : s.phase ≠ .idle) (h : s.phase.left s ≤ accessBound s.params) :
    (runCommand s).busy = false ∧ (runCommand s).phase = .idle ∧
      (∃ r, (runCommand s).responses = s.responses ++ [r]) ∧
      ∃ es, (runCommand s).log = s.log ++ es ∧ es.countP Event.isBus ≤ accessBound s.params :=
  runAccesses_completes (s := s.lock) rfl hp (by rw [lock_phase, left_lock]; exact h)

/-- A property that every access of the command keeps holds when the command is complete. -/
theorem runCommand_keeps {P : State → Prop} (h : ∀ s, s.busy = true → P s → P (access s)) {s : State}
    (hs : P s.lock) : P (runCommand s) :=
  runAccesses_keeps h _ _ hs

end Sys2Proof.Machine
end

