-- ==== Sys2Proof/Laws/Lifecycle.lean ====
section
/-! SUPPORT. The reset sequencer: its poll loop in closed form when the environment's choices are known, and what INIT and TERM
can do whatever those choices are. -/

namespace Sys2Proof.Machine

@[simp] theorem conclude_busy (l : LifeCmd) (s : State) : (conclude l s).busy = false := by
  unfold conclude; split <;> rfl

/-! ### One poll -/

/-- A word read from SYSSTATUS while a reset is pending (10_state.md R32). -/
theorem statusWord_pending (p : Params) (d : Word) : statusWord p true d = d &&& ~~~bitWord p.resetdoneBit := by
  simp [statusWord]

/-- The poll that finds the reset complete (44_lifecycle_reset.md R162). -/
theorem access_poll_ready {s : State} {l : LifeCmd} (hb : s.params.resetdoneBit < 32)
    (hph : s.phase = .poll l) (hp : s.pend = true) (he : s.move.complete = true) :
    access s = conclude l ({ s with
      bank := ResetValues.bank s.params.resetValue
      pend := false
      seq := .done
      log := s.log ++ [.read offSysstatus (statusWord s.params false s.move.draw)]
      moves := s.moves.tail
      tick := s.tick + 1 } : State) := by
  have hen : environment s = resetComplete s.useMove := environment_completes hp he
  have hr : readWord .sysstatus s = statusWord s.params false s.move.draw := by
    rw [readWord_sysstatus, hen]; rfl
  unfold access
  rw [hph]
  simp only [memRead_fst, memRead_snd, hr, hen, afterPoll, emit_params, resetComplete_params, useMove_params,
    readyBit_statusWord hb]
  simp [State.setSeq, State.emit, resetComplete, State.useMove, hph, Reg.offset]

/-- A poll that does not (44_lifecycle_reset.md R162). -/
theorem access_poll_pending {s : State} {l : LifeCmd} (hb : s.params.resetdoneBit < 32)
    (hph : s.phase = .poll l) (hp : s.pend = true) (hd : s.move.complete = false) :
    access s = pollOrFail l ({ s with
      seq := .resetting (s.seq.polls + 1)
      log := s.log ++ [.read offSysstatus (s.move.draw &&& ~~~bitWord s.params.resetdoneBit)]
      moves := s.moves.tail
      tick := s.tick + 1 } : State) := by
  have hen : environment s = s.useMove := environment_noComplete hd
  have hr : readWord .sysstatus s = statusWord s.params true s.move.draw := by
    rw [readWord_sysstatus, hen, useMove_pend, hp]
  unfold access
  rw [hph]
  simp only [memRead_fst, memRead_snd, hr, hen, afterPoll, emit_params, useMove_params, readyBit_statusWord hb]
  simp [State.setSeq, State.emit, State.useMove, hph, Reg.offset, statusWord_pending]

/-! ### The poll loop -/

/-- What `j` polls that find the reset pending log, the first of them with the environment's choice number `k`. -/
def pendingReads (s : State) (k j : Nat) : List Event :=
  (List.range j).map fun i => .read offSysstatus ((s.moveAt (k + i)).draw &&& ~~~bitWord s.params.resetdoneBit)

theorem pendingReads_succ (s : State) (k j : Nat) : pendingReads s k (j + 1) =
    .read offSysstatus ((s.moveAt k).draw &&& ~~~bitWord s.params.resetdoneBit) :: pendingReads s (k + 1) j := by
  simp [pendingReads, List.range_succ_eq_map, Function.comp_def, Nat.add_assoc, Nat.add_comm 1]

/-- The reads named in a later state. -/
theorem pendingReads_later {s t : State} {n : Nat} (hp : t.params = s.params) (hm : t.moves = s.moves.drop n)
    (ht : t.tick = s.tick + n) (k j : Nat) : pendingReads t k j = pendingReads s (n + k) j := by
  simp [pendingReads, hp, moveAt_drop hm ht, Nat.add_assoc]

/-- The loop ends with Done when the environment completes the reset just before poll `j` (44_lifecycle_reset.md R162). -/
theorem runAccesses_poll_done {l : LifeCmd} (j : Nat) : ∀ (s : State) (k n : Nat), s.params.resetdoneBit < 32 →
      s.busy = true → s.phase = .poll l → s.pend = true → s.seq = .resetting k →
      (∀ i < j, (s.moveAt i).complete = false) → (s.moveAt j).complete = true →
      k + j < s.params.resetPollMax → j < n →
      runAccesses n s = conclude l ({ s with
        bank := ResetValues.bank s.params.resetValue
        pend := false
        seq := .done
        log := s.log ++ pendingReads s 0 j ++ [.read offSysstatus (statusWord s.params false (s.moveAt j).draw)]
        moves := s.moves.drop (j + 1)
        tick := s.tick + (j + 1) } : State) := by
  induction j with
  | zero =>
    intro s k n hr hb hph hp _ _ he _ hn
    obtain ⟨n, rfl⟩ : ∃ m, n = m + 1 := ⟨n - 1, by omega⟩
    rw [runAccesses_busy hb, access_poll_ready hr hph hp he, runAccesses_quiet (conclude_busy _ _)]
    simp [pendingReads, State.move]
  | succ j ih =>
    intro s k n hr hb hph hp hk hds he hN hn
    obtain ⟨n, rfl⟩ : ∃ m, n = m + 1 := ⟨n - 1, by omega⟩
    rw [runAccesses_busy hb, access_poll_pending hr hph hp (hds 0 (by omega)), hk, pollOrFail,
      if_pos (by simp only [Seq.polls]; omega)]
    let t : State := ({ s with
      seq := .resetting (k + 1)
      log := s.log ++ [.read offSysstatus (s.move.draw &&& ~~~bitWord s.params.resetdoneBit)]
      moves := s.moves.tail
      tick := s.tick + 1 } : State).setPhase (.poll l)
    have hmv (i : Nat) : t.moveAt i = s.moveAt (i + 1) := moveAt_next rfl rfl i
    refine (ih t (k + 1) n hr hb rfl hp rfl (fun i hi => ?_) ?_ ?_ ?_).trans ?_
    · rw [hmv]; exact hds _ (by omega)
    · rw [hmv]; exact he
    · show k + 1 + j < s.params.resetPollMax; omega
    · omega
    · rw [hmv, pendingReads_later (s := s) (t := t) (n := 1) rfl List.drop_one.symm rfl, pendingReads_succ]
      simp [t, State.setPhase, State.move, Nat.add_assoc, Nat.add_comm 1, hph]

/-- The loop ends with Failed after exactly N polls when it does not (44_lifecycle_reset.md R162, R163). -/
theorem runAccesses_poll_failed {l : LifeCmd} (j : Nat) : ∀ (s : State) (k n : Nat), s.params.resetdoneBit < 32 →
      s.busy = true → s.phase = .poll l → s.pend = true → s.seq = .resetting k →
      (∀ i < j + 1, (s.moveAt i).complete = false) → k + (j + 1) = s.params.resetPollMax → j < n →
      runAccesses n s = conclude l ({ s with
        seq := .failed
        log := s.log ++ pendingReads s 0 (j + 1) ++ [.timeout]
        moves := s.moves.drop (j + 1)
        tick := s.tick + (j + 1) } : State) := by
  induction j with
  | zero =>
    intro s k n hr hb hph hp hk hds hN hn
    obtain ⟨n, rfl⟩ : ∃ m, n = m + 1 := ⟨n - 1, by omega⟩
    rw [runAccesses_busy hb, access_poll_pending hr hph hp (hds 0 (by omega)), hk, pollOrFail,
      if_neg (by simp only [Seq.polls]; omega), runAccesses_quiet (conclude_busy _ _)]
    simp [State.setSeq, State.emit, pendingReads, State.move]
  | succ j ih =>
    intro s k n hr hb hph hp hk hds hN hn
    obtain ⟨n, rfl⟩ : ∃ m, n = m + 1 := ⟨n - 1, by omega⟩
    rw [runAccesses_busy hb, access_poll_pending hr hph hp (hds 0 (by omega)), hk, pollOrFail,
      if_pos (by simp only [Seq.polls]; omega)]
    let t : State := ({ s with
      seq := .resetting (k + 1)
      log := s.log ++ [.read offSysstatus (s.move.draw &&& ~~~bitWord s.params.resetdoneBit)]
      moves := s.moves.tail
      tick := s.tick + 1 } : State).setPhase (.poll l)
    refine (ih t (k + 1) n hr hb rfl hp rfl (fun i hi => ?_) ?_ ?_).trans ?_
    · rw [moveAt_next (s := s) rfl rfl]; exact hds _ (by omega)
    · show k + 1 + (j + 1) = s.params.resetPollMax; omega
    · omega
    · rw [pendingReads_later (s := s) (t := t) (n := 1) rfl List.drop_one.symm rfl, pendingReads_succ s 0]
      simp [t, State.setPhase, State.move, Nat.add_assoc, Nat.add_comm 1, hph]

/-! ### The reset sequence from its start -/

/-- The word the sequence reads from SYSCONFIG (10_state.md R32). -/
def sysconfigRead (s : State) : Word :=
  if s.pend && !s.move.complete then s.move.draw
  else if s.pend then s.params.resetValue.sysconfig else s.bank.sysconfig

/-- The word it writes back (44_lifecycle_reset.md R161). -/
def sysconfigWritten (s : State) : Word := sysconfigRead s ||| bitWord s.params.softresetBit

/-- The state after the RMW of SYSCONFIG (44_lifecycle_reset.md R161): the reset is pending whatever the environment chose at
its two accesses. -/
def resetRequested (s : State) : State :=
  { s with
    bank := if s.pend && (s.move.complete || (s.moveAt 1).complete)
      then ⟨sysconfigWritten s, s.params.resetValue.modulctrl, s.params.resetValue.conf⟩
      else { s.bank with sysconfig := sysconfigWritten s }
    pend := true
    seq := .resetting 0
    busy := true
    log := s.log ++ [.read offSysconfig (sysconfigRead s), .write offSysconfig (sysconfigWritten s)]
    moves := s.moves.drop 2
    tick := s.tick + 2 }

theorem startsReset_or_bit {p : Params} (h : p.softresetBit < 32) (old : Word) :
    startsReset p (old ||| bitWord p.softresetBit) = true := by
  simp [startsReset, getLsbD_bitWord, h]

theorem rmwWord_zero_mask (old bits : Word) : rmwWord old 0 bits = old ||| bits := by
  rw [rmwWord, show ~~~(0 : Word) = BitVec.allOnes 32 by decide, BitVec.and_allOnes]

theorem runAccesses_startReset (l : LifeCmd) {s : State} (h : s.params.softresetBit < 32) (n : Nat) :
    runAccesses (n + 2) (startReset l s).lock =
      runAccesses n (pollOrFail l ((resetRequested s).setPhase
        (.rmwWrite .sysconfig 0 (bitWord s.params.softresetBit) (sysconfigRead s) (.polling l)))) := by
  obtain ⟨u, hu⟩ : ∃ u : State, u = { s with
      bank := if s.pend && s.move.complete then ResetValues.bank s.params.resetValue else s.bank
      pend := s.pend && !s.move.complete
      seq := .resetting 0
      busy := true
      phase := .rmwWrite .sysconfig 0 (bitWord s.params.softresetBit) (sysconfigRead s) (.polling l)
      log := s.log ++ [.read offSysconfig (sysconfigRead s)]
      moves := s.moves.tail
      tick := s.tick + 1 } := ⟨_, rfl⟩
  have e1 : access (startReset l s).lock = u := by
    have hmv : (startReset l s).lock.move = s.move := rfl
    simp only [hu, access, lock_phase, startReset_phase, memRead_fst, memRead_snd, readWord, environment_eq, hmv]
    cases hp : s.pend <;> cases hb : s.move.complete <;>
      simp [State.setPhase, State.lock, State.emit, startReset, State.setSeq, regWord, Bank.word, hp, hb,
        sysconfigRead, Reg.offset, NvReg.offset, ResetValues.bank]
  have hph : u.phase = .rmwWrite .sysconfig 0 (bitWord s.params.softresetBit) (sysconfigRead s) (.polling l) := by rw [hu]
  have hd : s.moves.tail.tail = s.moves.drop 2 := by rw [← List.drop_one, ← List.drop_one, List.drop_drop]
  have hmv : u.move = s.moveAt 1 := by rw [hu]; exact moveAt_next rfl rfl 0
  rw [runAccesses_busy rfl, e1, runAccesses_busy (by rw [hu])]
  congr 1
  simp only [access, hph, afterWrite, memWrite, environment_eq, rmwWord_zero_mask, hmv]
  congr 1
  subst hu
  simp only [store, State.emit, State.setPhase, startsReset_or_bit h]
  cases hp : s.pend <;> cases hb : s.move.complete <;> cases hc : (s.moveAt 1).complete <;>
    simp [resetRequested, sysconfigWritten, hp, hb, hc, Bank.put, NvReg.offset, ResetValues.bank, hd]

/-- The reset sequence when the environment completes the reset just before poll `j` (44_lifecycle_reset.md R161, R162). -/
theorem runAccesses_reset_done {l : LifeCmd} {s : State} {j : Nat}
    (h1 : s.params.softresetBit < 32) (h2 : s.params.resetdoneBit < 32)
    (hds : ∀ i < j, (s.moveAt (2 + i)).complete = false) (he : (s.moveAt (2 + j)).complete = true)
    (hN : j < s.params.resetPollMax) {n : Nat} (hn : s.params.resetPollMax ≤ n) :
    runAccesses (n + 2) (startReset l s).lock = conclude l ({ s with
      bank := ResetValues.bank s.params.resetValue
      pend := false
      seq := .done
      busy := true
      phase := .poll l
      log := s.log ++ [.read offSysconfig (sysconfigRead s), .write offSysconfig (sysconfigWritten s)] ++
        pendingReads s 2 j ++ [.read offSysstatus (statusWord s.params false (s.moveAt (2 + j)).draw)]
      moves := s.moves.drop (3 + j)
      tick := s.tick + (3 + j) } : State) := by
  have hmv (i : Nat) : ((resetRequested s).setPhase (.poll l)).moveAt i = s.moveAt (2 + i) := moveAt_drop rfl rfl i
  rw [runAccesses_startReset l h1, pollOrFail, if_pos (by simp [resetRequested, Seq.polls]; omega)]
  refine (runAccesses_poll_done j ((resetRequested s).setPhase (.poll l)) 0 n h2 rfl rfl rfl rfl
    (fun i hi => ?_) ?_ ?_ ?_).trans ?_
  · rw [hmv]; exact hds i hi
  · rw [hmv]; exact he
  · show 0 + j < s.params.resetPollMax; omega
  · omega
  · rw [hmv, pendingReads_later (s := s) (t := (resetRequested s).setPhase (.poll l)) (n := 2) rfl rfl rfl]
    congr 1
    simp [State.setPhase, resetRequested, Nat.add_assoc]
    omega

/-- The reset sequence when the environment does not (44_lifecycle_reset.md R161-R163). -/
theorem runAccesses_reset_failed {l : LifeCmd} {s : State}
    (h1 : s.params.softresetBit < 32) (h2 : s.params.resetdoneBit < 32)
    (hds : ∀ i < s.params.resetPollMax, (s.moveAt (2 + i)).complete = false) {n : Nat} (hn : s.params.resetPollMax ≤ n) :
    ∃ p, runAccesses (n + 2) (startReset l s).lock = conclude l ({ resetRequested s with
      seq := .failed
      phase := p
      log := s.log ++ [.read offSysconfig (sysconfigRead s), .write offSysconfig (sysconfigWritten s)] ++
        pendingReads s 2 s.params.resetPollMax ++ [.timeout]
      moves := s.moves.drop (2 + s.params.resetPollMax)
      tick := s.tick + (2 + s.params.resetPollMax) } : State) := by
  rw [runAccesses_startReset l h1, pollOrFail]
  by_cases hN : s.params.resetPollMax = 0
  · rw [if_neg (by simp [resetRequested, Seq.polls]; omega), runAccesses_quiet (conclude_busy _ _)]
    exact ⟨.rmwWrite .sysconfig 0 (bitWord s.params.softresetBit) (sysconfigRead s) (.polling l), by
      simp [State.setPhase, State.setSeq, State.emit, resetRequested, pendingReads, hN]⟩
  · obtain ⟨j, hj⟩ : ∃ j, s.params.resetPollMax = j + 1 := ⟨s.params.resetPollMax - 1, by omega⟩
    have hmv (i : Nat) : ((resetRequested s).setPhase (.poll l)).moveAt i = s.moveAt (2 + i) := moveAt_drop rfl rfl i
    rw [if_pos (by simp [resetRequested, Seq.polls]; omega)]
    refine ⟨.poll l, (runAccesses_poll_failed j ((resetRequested s).setPhase (.poll l)) 0 n h2 rfl rfl rfl rfl
      (fun i hi => ?_) ?_ ?_).trans ?_⟩
    · rw [hmv]; exact hds i (by omega)
    · show 0 + (j + 1) = s.params.resetPollMax; omega
    · omega
    · rw [pendingReads_later (s := s) (t := (resetRequested s).setPhase (.poll l)) (n := 2) rfl rfl rfl, hj]
      congr 1
      simp [State.setPhase, resetRequested, Nat.add_assoc]

/-- The first access of INIT: the REVISION read (44_lifecycle_reset.md R166). -/
theorem runAccesses_revRead (s : State) (n : Nat) :
    runAccesses (n + 1) (locked .revRead s) = runAccesses n (startReset .init { s with
      bank := if s.pend && s.move.complete then ResetValues.bank s.params.resetValue else s.bank
      pend := s.pend && !s.move.complete
      revMajor := revisionMajor s.params.hwRevision
      revMinor := revisionMinor s.params.hwRevision
      log := s.log ++ [.read offRevision s.params.hwRevision,
        .rev (revisionMajor s.params.hwRevision) (revisionMinor s.params.hwRevision)]
      moves := s.moves.tail
      tick := s.tick + 1 }).lock := by
  rw [runAccesses_busy rfl]
  congr 1
  have hmv : (locked .revRead s).move = s.move := rfl
  simp only [locked] at hmv ⊢
  simp only [access, lock_phase, setPhase_phase, memRead_fst, memRead_snd, readWord_revision, environment_eq, hmv]
  simp [afterRevision, captureRevision, State.emit, startReset, State.lock, State.setPhase, State.setSeq, Reg.offset]

/-! ### What a command that is not a lifecycle command leaves -/

/-- The phases of the reset sequence and of INIT's REVISION read. -/
def Phase.isLife : Phase → Bool
  | .revRead | .poll _ | .rmwRead _ _ _ (.polling _) | .rmwWrite _ _ _ _ (.polling _) => true
  | .idle | .rmwRead _ _ _ _ | .rmwWrite _ _ _ _ _ | .fieldRead _ _ | .fifoScan _ _ _ | .wordRead _ => false

/-- `t` has the lifecycle state and the sequencer's phase of `s`, and is not in a phase of the reset sequence. -/
structure KeepsLife (s t : State) : Prop where
  life : t.life = s.life
  seq : t.seq = s.seq
  phase : t.busy = false ∨ Phase.isLife t.phase = false

theorem decideFifo_keepsLife (t : Option Chan) (on : List Chan) (s : State) : KeepsLife s (decideFifo t on s) := by
  unfold decideFifo enableFifo reportFifo
  split <;> split <;> exact ⟨by simp, by simp, by simp [fieldWrite, Phase.isLife]⟩

theorem afterScan_keepsLife (t : Option Chan) (c : Chan) (v : Word) (on : List Chan) (s : State) :
    KeepsLife s (afterScan t c v on s) := by
  unfold afterScan
  split
  · exact decideFifo_keepsLife _ _ _
  · exact ⟨rfl, rfl, .inr rfl⟩

theorem afterDisable_keepsLife (c : Chan) (s : State) : KeepsLife s (afterDisable c s) := by
  unfold afterDisable
  split
  · exact ⟨rfl, rfl, .inl rfl⟩
  · exact ⟨rfl, rfl, .inr rfl⟩

theorem access_keepsLife {s : State} (h : Phase.isLife s.phase = false) : KeepsLife s (access s) := by
  unfold access
  split
  · exact ⟨rfl, rfl, .inl rfl⟩
  · next r m b k hp =>
    refine ⟨by simp, by simp, .inr ?_⟩
    rw [hp] at h; cases k <;> simp_all [Phase.isLife]
  · next r m b o k hp =>
    rw [hp] at h
    cases k with
    | done => exact ⟨by simp [afterWrite], by simp [afterWrite], .inl rfl⟩
    | disable c =>
      obtain ⟨h1, h2, h3⟩ := afterDisable_keepsLife c (memWrite r (rmwWord o m b) s)
      exact ⟨by simpa [afterWrite] using h1, by simpa [afterWrite] using h2, h3⟩
    | polling l => simp [Phase.isLife] at h
  · exact ⟨by simp, by simp, .inl rfl⟩
  · next t c on hp =>
    obtain ⟨h1, h2, h3⟩ := afterScan_keepsLife t c (memRead (.nv (target s.params.table.ffe c)) s).1 on
      (memRead (.nv (target s.params.table.ffe c)) s).2
    exact ⟨by simpa using h1, by simpa using h2, h3⟩
  · next hp => rw [hp] at h; cases h
  · next hp => rw [hp] at h; cases h
  · exact ⟨by simp, by simp, .inl rfl⟩

theorem runFrom_keepsLife {s : State} {p : Phase} (h : Phase.isLife p = false) : KeepsLife s (runFrom p s) :=
  runCommand_keeps (P := KeepsLife s) (fun x hb hx => by
    rcases hx.phase with h3 | h3
    · simp [hb] at h3
    · obtain ⟨a, b, c⟩ := access_keepsLife h3
      exact ⟨a.trans hx.life, b.trans hx.seq, c⟩) ⟨rfl, rfl, .inr h⟩

/-! ### What INIT and TERM do, whatever the environment chooses -/

/-- `st.life` after a successful reset (44_lifecycle_reset.md R166, R168). -/
def LifeCmd.lifeDone : LifeCmd → Life
  | .init => .ready
  | .term => .terminated

/-- `st.life` after a timeout (44_lifecycle_reset.md R166, R168). -/
def LifeCmd.lifeFailed : LifeCmd → Life
  | .init => .uninitialized
  | .term => .terminated

/-- INIT has captured the revision (10_state.md R38). -/
abbrev Captured (l : LifeCmd) (s x : State) : Prop :=
  l = .init → x.revMajor = revisionMajor s.params.hwRevision ∧ x.revMinor = revisionMinor s.params.hwRevision

/-- The phase of a lifecycle command under way; while it polls, the reset is pending or its values are in place. -/
def Underway (l : LifeCmd) (s x : State) : Prop :=
  x.phase = .revRead ∧ l = .init ∨
    Captured l s x ∧
      (x.phase = .rmwRead .sysconfig 0 (bitWord s.params.softresetBit) (.polling l) ∨
        (∃ old, x.phase = .rmwWrite .sysconfig 0 (bitWord s.params.softresetBit) old (.polling l)) ∨
        x.phase = .poll l ∧
          (s.params.softresetBit < 32 → x.pend = true ∨ x.bank = ResetValues.bank s.params.resetValue))

/-- A lifecycle command that is complete: with OK nothing is pending and the reset values are in place. -/
def Concluded (l : LifeCmd) (s x : State) : Prop :=
  x.life = l.lifeDone ∧ x.responses = s.responses ++ [⟨.ok, 0, none⟩] ∧
      (s.params.softresetBit < 32 → s.params.resetdoneBit < 32 →
        x.pend = false ∧ x.bank = ResetValues.bank s.params.resetValue) ∨
    x.life = l.lifeFailed ∧ x.responses = s.responses ++ [⟨.resetTimeout, 0, none⟩]

/-- The state `x` of a lifecycle command that was accepted in `s`. -/
structure Resets (l : LifeCmd) (s x : State) : Prop where
  params : x.params = s.params
  alt : x.busy = true ∧ x.responses = s.responses ∧ Underway l s x ∨
    x.busy = false ∧ x.seq = .idle ∧ Captured l s x ∧ Concluded l s x

theorem conclude_failed_resets {l : LifeCmd} {s y : State} (hp : y.params = s.params)
    (hr : y.responses = s.responses) (hrev : Captured l s y) : Resets l s (conclude l (y.setSeq .failed)) := by
  refine ⟨by simpa using hp, .inr ⟨by simp, ?_⟩⟩
  cases l
  · exact ⟨rfl, hrev, .inr ⟨rfl, by simp [conclude, hr]⟩⟩
  · exact ⟨rfl, hrev, .inr ⟨rfl, by simp [conclude, hr]⟩⟩

theorem conclude_done_resets {l : LifeCmd} {s y : State} (hp : y.params = s.params)
    (hr : y.responses = s.responses) (hrev : Captured l s y)
    (hf : s.params.softresetBit < 32 → s.params.resetdoneBit < 32 →
      y.pend = false ∧ y.bank = ResetValues.bank s.params.resetValue) :
    Resets l s (conclude l (y.setSeq .done)) := by
  refine ⟨by simpa using hp, .inr ⟨by simp, ?_⟩⟩
  cases l
  · exact ⟨rfl, hrev, .inl ⟨rfl, by simp [conclude, State.setSeq, hr], hf⟩⟩
  · exact ⟨rfl, hrev, .inl ⟨rfl, by simp [conclude, State.setSeq, hr], hf⟩⟩

theorem pollOrFail_resets {l : LifeCmd} {s y : State} (hp : y.params = s.params) (hb : y.busy = true)
    (hr : y.responses = s.responses) (hrev : Captured l s y)
    (hpend : s.params.softresetBit < 32 → y.pend = true ∨ y.bank = ResetValues.bank s.params.resetValue) :
    Resets l s (pollOrFail l y) := by
  unfold pollOrFail
  split
  · exact ⟨hp, .inl ⟨hb, hr, .inr ⟨hrev, .inr (.inr ⟨rfl, hpend⟩)⟩⟩⟩
  · exact conclude_failed_resets hp hr hrev

theorem access_resets {l : LifeCmd} {s x : State} (h : Resets l s x) (hb : x.busy = true) : Resets l s (access x) := by
  obtain ⟨hp, ⟨_, hr, h⟩ | ⟨h, _⟩⟩ := h
  swap
  · simp [hb] at h
  rcases h with ⟨hph, rfl⟩ | ⟨hrev, hph | ⟨o, hph⟩ | ⟨hph, hpd⟩⟩
  · simp only [access, hph]
    refine ⟨by simpa using hp, .inl ⟨by simpa using hb, by simpa using hr, .inr ⟨fun _ => ?_, .inl (by simp [hp])⟩⟩⟩
    simp [readWord_revision, hp]
  · simp only [access, hph]
    exact ⟨by simpa using hp, .inl ⟨by simpa using hb, by simpa using hr, .inr ⟨by simpa [Captured] using hrev,
      .inr (.inl ⟨_, rfl⟩)⟩⟩⟩
  · simp only [access, hph, afterWrite]
    refine pollOrFail_resets (by simpa using hp) (by simpa using hb) (by simpa using hr) (by simpa [Captured] using hrev)
      fun hs => .inl ?_
    rw [rmwWord_zero_mask, memWrite_pend, ← hp, startsReset_or_bit (by rw [hp]; exact hs)]
    simp
  · have hpd' : s.params.softresetBit < 32 →
        (environment x).pend = true ∨ (environment x).bank = ResetValues.bank s.params.resetValue := by
      intro hs
      rw [environment_eq]
      rcases hpd hs with h | h
      · cases hc : x.move.complete <;> simp [h, hp]
      · cases hq : x.pend <;> cases hc : x.move.complete <;> simp [h, hp]
    simp only [access, hph, afterPoll]
    split
    · next hrd =>
      simp only [memRead_snd, memRead_fst, emit_params, environment_params, readWord_sysstatus] at hrd
      refine conclude_done_resets (by simpa using hp) (by simpa using hr) (by simpa [Captured] using hrev) fun h1 h2 => ?_
      rw [hp, readyBit_statusWord h2] at hrd
      have hno : (environment x).pend = false := by simpa using hrd
      rcases hpd' h1 with h | h
      · simp [hno] at h
      · exact ⟨hno, h⟩
    · exact pollOrFail_resets (by simpa using hp) (by simpa using hb) (by simpa using hr) (by simpa [Captured] using hrev)
        (by simpa using hpd')

theorem init_resets (s : State) : Resets .init s (runFrom .revRead s) :=
  runCommand_keeps (P := Resets .init s) (fun _ hb hx => access_resets hx hb) ⟨rfl, .inl ⟨rfl, rfl, .inl ⟨rfl, rfl⟩⟩⟩

theorem term_resets (s : State) : Resets .term s (runCommand (startReset .term s)) :=
  runCommand_keeps (P := Resets .term s) (fun _ hb hx => access_resets hx hb)
    ⟨rfl, .inl ⟨rfl, rfl, .inr ⟨by simp, .inl rfl⟩⟩⟩

theorem init_completes (s : State) : (runFrom .revRead s).busy = false ∧ (runFrom .revRead s).phase = .idle := by
  have := runCommand_completes (s := s.setPhase .revRead) (by simp) (by simp [Phase.left, accessBound])
  exact ⟨this.1, this.2.1⟩

theorem term_completes (s : State) :
    (runCommand (startReset .term s)).busy = false ∧ (runCommand (startReset .term s)).phase = .idle := by
  have := runCommand_completes (s := startReset .term s) (by simp)
    (by simp [Phase.left, After.left, Seq.polls, accessBound])
  exact ⟨this.1, this.2.1⟩

/-- What a completed INIT left. -/
theorem init_concluded (s : State) : (runFrom .revRead s).seq = .idle ∧ Captured .init s (runFrom .revRead s) ∧
    Concluded .init s (runFrom .revRead s) := by
  rcases (init_resets s).alt with ⟨hb, _⟩ | ⟨_, h⟩
  · simp [(init_completes s).1] at hb
  · exact h

/-- What a completed TERM left. -/
theorem term_concluded (s : State) :
    (runCommand (startReset .term s)).seq = .idle ∧ Concluded .term s (runCommand (startReset .term s)) := by
  rcases (term_resets s).alt with ⟨hb, _⟩ | ⟨_, h1, _, h2⟩
  · simp [(term_completes s).1] at hb
  · exact ⟨h1, h2⟩

end Sys2Proof.Machine
end

