-- ==== Sys2Proof/Laws/Params.lean ====
section
/-! SUPPORT. The operand forms and the two shared operations of the parameter commands: one lemma for each outcome. -/

namespace Sys2Proof.Machine

/-! ### Channel operands -/

@[simp] theorem chanOfWord_setWidth (c : Chan) : chanOfWord (c.setWidth 32) = some c := by
  revert c; decide

theorem le_three {w : Word} : w ≤ 3 ↔ w.toNat ≤ 3 := Iff.rfl

theorem chanOfWord_none {w : Word} (h : 3 < w.toNat) : chanOfWord w = none := by
  rw [chanOfWord, if_neg (by rw [le_three]; omega)]

theorem chanOfWord_some {w : Word} {c : Chan} (h : chanOfWord w = some c) : w = c.setWidth 32 := by
  unfold chanOfWord at h
  split at h
  · next hw =>
    injection h with h
    subst h
    rw [le_three] at hw
    apply BitVec.eq_of_toNat_eq
    simp only [BitVec.toNat_setWidth]
    omega
  · cases h

theorem resolveChannel_eq {ch : Option Word} {s : State} {c : Chan}
    (h : ch = none ∧ c = s.curch ∨ ch = some (c.setWidth 32)) : resolveChannel ch s = some c := by
  rcases h with ⟨rfl, rfl⟩ | rfl
  · rfl
  · exact chanOfWord_setWidth c

theorem resolveChannel_cases (ch : Option Word) (s : State) :
    (∃ c, (ch = none ∧ c = s.curch ∨ ch = some (c.setWidth 32)) ∧ resolveChannel ch s = some c) ∨
      (∃ w, ch = some w ∧ 3 < w.toNat ∧ resolveChannel ch s = none) := by
  cases ch with
  | none => exact .inl ⟨s.curch, .inl ⟨rfl, rfl⟩, rfl⟩
  | some w =>
    by_cases h : 3 < w.toNat
    · exact .inr ⟨w, rfl, h, chanOfWord_none h⟩
    · refine .inl ⟨w.setWidth 2, .inr ?_, ?_⟩
      · congr 1
        apply BitVec.eq_of_toNat_eq
        simp only [BitVec.toNat_setWidth]
        omega
      · rw [resolveChannel, chanOfWord, if_pos (by rw [le_three]; omega)]

theorem descriptorChannel_global {d : Descriptor} (h : d.scope = .global) (ch : Option Word) (s : State) :
    descriptorChannel d ch s = some 0 := by simp [descriptorChannel, h]

theorem descriptorChannel_perChannel {d : Descriptor} (h : d.scope = .perChannel) (ch : Option Word) (s : State) :
    descriptorChannel d ch s = resolveChannel ch s := by simp [descriptorChannel, h]

theorem valid_iff {d : Descriptor} {u : Word} : d.valid u = true ↔ u ∈ d.dom := by simp [Descriptor.valid]

/-! ### The readiness check -/

theorem whenReady_ready {s : State} (h : s.life = .ready) (run) : whenReady s run = run s := by simp [whenReady, h]

theorem whenReady_notReady {s : State} (h : s.life ≠ .ready) (run) :
    whenReady s run = .next (raise .deviceNotReady none s) := by simp [whenReady, h]

/-! ### `SetParam` -/

/-- The state a successful set leaves (40_engine.md R105). -/
def afterSet (f : FieldId) (c : Chan) (u : Word) (s : State) : State :=
  let r := target (s.params.table.get f) c
  let old := s.bank.word r
  let new := (s.params.table.get f).insert old u
  { s with
    bank := s.bank.put r new
    busy := false
    phase := .idle
    responses := s.responses ++ [⟨.ok, 0, none⟩]
    log := s.log ++ [.read r.offset old, .write r.offset new]
    moves := s.moves.drop 2
    tick := s.tick + 2 }

theorem setParam_done {s : State} (hl : s.life = .ready) (hp : s.pend = false) {f : FieldId} {u : Word}
    (hu : u ∈ (s.params.table.get f).dom) {ch : Option Word} {c : Chan}
    (hc : descriptorChannel (s.params.table.get f) ch s = some c) :
    setParam f u ch s = .next (afterSet f c u s) := by
  simp only [setParam, whenReady_ready hl, valid_iff.mpr hu, if_true, hc, fieldWrite]
  rw [runFrom_rmw hp (target_ne_sysconfig _ _)]
  rfl

theorem setParam_badValue {s : State} (hl : s.life = .ready) {f : FieldId} {u : Word}
    (hu : u ∉ (s.params.table.get f).dom) (ch : Option Word) :
    setParam f u ch s = .next (raise .invalidValue (some u) s) := by
  simp [setParam, whenReady_ready hl, Descriptor.valid, hu]

theorem setParam_badChannel {s : State} (hl : s.life = .ready) {f : FieldId} {u : Word}
    (hu : u ∈ (s.params.table.get f).dom) {ch : Option Word}
    (hc : descriptorChannel (s.params.table.get f) ch s = none) :
    setParam f u ch s = .next (raise .invalidChannel ch s) := by
  simp [setParam, whenReady_ready hl, Descriptor.valid, hu, hc]

/-! ### `GetParam` -/

/-- The state a successful get leaves (40_engine.md R108). -/
def afterGet (f : FieldId) (c : Chan) (s : State) : State :=
  let r := target (s.params.table.get f) c
  { s with
    busy := false
    phase := .idle
    responses := s.responses ++ [⟨.ok, (s.params.table.get f).extract (s.bank.word r), none⟩]
    log := s.log ++ [.read r.offset (s.bank.word r)]
    moves := s.moves.tail
    tick := s.tick + 1 }

theorem getParam_done {s : State} (hl : s.life = .ready) (hp : s.pend = false) {f : FieldId}
    {ch : Option Word} {c : Chan} (hc : descriptorChannel (s.params.table.get f) ch s = some c) :
    getParam f ch s = .next (afterGet f c s) := by
  simp only [getParam, whenReady_ready hl, hc, fieldRead]
  rw [runFrom_fieldRead hp]
  rfl

theorem getParam_badChannel {s : State} (hl : s.life = .ready) {f : FieldId} {ch : Option Word}
    (hc : descriptorChannel (s.params.table.get f) ch s = none) :
    getParam f ch s = .next (raise .invalidChannel ch s) := by
  simp [getParam, whenReady_ready hl, hc]

/-! ### The set and get commands are these two -/

/-- The channel operand of the command: the global commands have none. -/
def channelOperand (f : FieldId) (ch : Option Word) : Option Word :=
  match f.scope with
  | .global => none
  | .perChannel => ch

theorem exec_setCommand {f : FieldId} {u : Word} {ch : Option Word} {i : Instr} (h : setCommand f u ch = some i)
    (s : State) : exec i s = setParam f u (channelOperand f ch) s := by
  cases f <;> simp [setCommand] at h <;> subst h <;> rfl

theorem exec_getCommand {f : FieldId} {ch : Option Word} {i : Instr} (h : getCommand f ch = some i) (s : State) :
    exec i s = getParam f (channelOperand f ch) s := by
  cases f <;> simp [getCommand] at h <;> subst h <;> rfl

theorem target_eq_of_global {d : Descriptor} (h : d.scope = .global) (b c : Chan) : target d b = target d c := by
  simp [target, h]

/-- A set of a value of the domain on a channel that resolves (40_engine.md R105, R111). -/
theorem exec_set_done {s : State} (ht : s.params.table.scoped = true) (hl : s.life = .ready) (hp : s.pend = false)
    {f : FieldId} {u : Word} {ch : Option Word} {i : Instr} (h : setCommand f u ch = some i)
    (hu : u ∈ (s.params.table.get f).dom) {c : Chan} (hc : resolveChannel ch s = some c ∨ f.scope = .global) :
    exec i s = .next (afterSet f c u s) := by
  rw [exec_setCommand h]
  have hs := FieldTable.scope_of_scoped ht f
  cases hf : f.scope with
  | global =>
    rw [hf] at hs
    rw [setParam_done hl hp hu (descriptorChannel_global hs _ s)]
    simp only [afterSet, target_eq_of_global hs 0 c]
  | perChannel =>
    rw [hf] at hs
    refine setParam_done hl hp hu ?_
    rw [descriptorChannel_perChannel hs, channelOperand, hf]
    simpa [hf] using hc

/-- A get on a channel that resolves (40_engine.md R108, R111). -/
theorem exec_get_done {s : State} (ht : s.params.table.scoped = true) (hl : s.life = .ready) (hp : s.pend = false)
    {f : FieldId} {ch : Option Word} {i : Instr} (h : getCommand f ch = some i)
    {c : Chan} (hc : resolveChannel ch s = some c ∨ f.scope = .global) :
    exec i s = .next (afterGet f c s) := by
  rw [exec_getCommand h]
  have hs := FieldTable.scope_of_scoped ht f
  cases hf : f.scope with
  | global =>
    rw [hf] at hs
    rw [getParam_done hl hp (descriptorChannel_global hs _ s)]
    simp only [afterGet, target_eq_of_global hs 0 c]
  | perChannel =>
    rw [hf] at hs
    refine getParam_done hl hp ?_
    rw [descriptorChannel_perChannel hs, channelOperand, hf]
    simpa [hf] using hc

end Sys2Proof.Machine
end

