-- ==== Sys2Proof/Laws/Exec.lean ====
section
/-! SUPPORT. What exec can do, said once for all commands: it answers with an error before any access, runs a command from its
first phase, or serves the current channel. -/

namespace Sys2Proof.Machine

/-- The command `i`, accepted in `s`, makes bus accesses, the first of them that of the phase `p`. -/
inductive Starts (s : State) : Instr → Phase → Prop
  | set {f : FieldId} {u : Word} {ch : Option Word} {i : Instr} (c : Chan) :
    s.life = .ready → setCommand f u ch = some i → u ∈ (s.params.table.get f).dom →
      Starts s i (fieldWrite (s.params.table.get f) c u .done)
  | get {f : FieldId} {ch : Option Word} {i : Instr} (c : Chan) :
    s.life = .ready → getCommand f ch = some i → Starts s i (fieldRead f (s.params.table.get f) c)
  | setFifo (n : Chan) : s.life = .ready → Starts s (.setFifo (n.setWidth 32)) (.fifoScan (some n) 0 [])
  | clearFifo : s.life = .ready → Starts s (.setFifo 0xFFFFFFFF) (fieldWrite s.params.table.ffe 0 0 (.disable 0))
  | getFifo : s.life = .ready → Starts s .getFifo (.fifoScan none 0 [])
  | devStat (r : Reg) : s.life = .ready → mapAt s.params.deviceStatusOff = some (.reg r) →
      Starts s .getDevStat (.wordRead r)
  | chStat (c : Chan) : s.life = .ready → Starts s (.getChStat (c.setWidth 32)) (.wordRead (.stat c))
  | init : s.life ≠ .terminated → Starts s .init .revRead

/-- What exec answers. -/
inductive Answers (i : Instr) (s : State) : Host.Outcome State Fault Refusal → Prop
  | error (e : Status) (info : Option Word) : e ∈ [Status.invalidChannel, .invalidValue, .deviceNotReady] →
      Answers i s (.next (raise e info s))
  | getCh : i = .getCh → Answers i s (.next (returnWord (s.curch.setWidth 32) s))
  | setCh (c : Chan) : i = .setCh (c.setWidth 32) → Answers i s (.next (returnWord 0 { s with curch := c }))
  | run {p : Phase} : Starts s i p → Answers i s (.next (runFrom p s))
  | term : i = .term → Answers i s (.next (runCommand (startReset .term s)))
  | refused (x : Refusal) : i = .getDevStat → s.params.statusReadable = false → Answers i s (.refused x)

theorem setParam_answers {f : FieldId} {u : Word} {ch : Option Word} {i : Instr} (h : setCommand f u ch = some i)
    (s : State) : Answers i s (exec i s) := by
  rw [exec_setCommand h]
  by_cases hl : s.life = .ready
  · by_cases hu : u ∈ (s.params.table.get f).dom
    · cases hc : descriptorChannel (s.params.table.get f) (channelOperand f ch) s with
      | none => rw [setParam_badChannel hl hu hc]; exact .error _ _ (by simp)
      | some c =>
        simp only [setParam, whenReady_ready hl, valid_iff.mpr hu, if_true, hc]
        exact .run (.set c hl h hu)
    · rw [setParam_badValue hl hu]; exact .error _ _ (by simp)
  · rw [setParam, whenReady_notReady hl]; exact .error _ _ (by simp)

theorem getParam_answers {f : FieldId} {ch : Option Word} {i : Instr} (h : getCommand f ch = some i)
    (s : State) : Answers i s (exec i s) := by
  rw [exec_getCommand h]
  by_cases hl : s.life = .ready
  · cases hc : descriptorChannel (s.params.table.get f) (channelOperand f ch) s with
    | none => rw [getParam_badChannel hl hc]; exact .error _ _ (by simp)
    | some c =>
      simp only [getParam, whenReady_ready hl, hc]
      exact .run (.get c hl h)
  · rw [getParam, whenReady_notReady hl]; exact .error _ _ (by simp)

theorem exec_notReady_answers {i : Instr} {s : State} (hl : s.life ≠ .ready)
    (run : State → Host.Outcome State Fault Refusal) : Answers i s (whenReady s run) := by
  rw [whenReady_notReady hl]; exact .error _ _ (by simp)

theorem setFifo_cases (a : Word) :
    (a.toInt < -1 ∨ 3 < a.toInt) ∨ a = 0xFFFFFFFF ∧ ¬(a.toInt < -1 ∨ 3 < a.toInt) ∧ a.toInt = -1 ∨
      a = (a.setWidth 2).setWidth 32 ∧ ¬(a.toInt < -1 ∨ 3 < a.toInt) ∧ a.toInt ≠ -1 := by
  have h := a.isLt
  have e := BitVec.toInt_eq_toNat_cond a
  by_cases h1 : a.toInt < -1 ∨ 3 < a.toInt
  · exact .inl h1
  · by_cases h2 : a.toInt = -1
    · refine .inr (.inl ⟨?_, h1, h2⟩)
      apply BitVec.eq_of_toNat_eq
      split at e <;> simp <;> omega
    · refine .inr (.inr ⟨?_, h1, h2⟩)
      apply BitVec.eq_of_toNat_eq
      simp only [BitVec.toNat_setWidth]
      split at e <;> omega

theorem exec_answers (i : Instr) (s : State) : Answers i s (exec i s) := by
  cases i with
  | setCh arg =>
    by_cases hl : s.life = .ready
    · simp only [exec, execSetCh, whenReady_ready hl]
      cases hc : chanOfWord arg with
      | none => exact .error _ _ (by simp)
      | some c => exact .setCh c (by rw [chanOfWord_some hc])
    · simp only [exec, execSetCh]; exact exec_notReady_answers hl _
  | getCh =>
    by_cases hl : s.life = .ready
    · simp only [exec, execGetCh, whenReady_ready hl]; exact .getCh rfl
    · simp only [exec, execGetCh]; exact exec_notReady_answers hl _
  | setFifo arg =>
    by_cases hl : s.life = .ready
    · simp only [exec, execSetFifo, whenReady_ready hl]
      rcases setFifo_cases arg with h | ⟨h1, h2, h3⟩ | ⟨h1, h2, h3⟩
      · rw [if_pos h]; exact .error _ _ (by simp)
      · rw [if_neg h2, if_pos h3, h1]; exact .run (.clearFifo hl)
      · rw [if_neg h2, if_neg h3, h1]
        have e : ((arg.setWidth 2).setWidth 32 : Word).setWidth 2 = arg.setWidth 2 := by rw [← h1]
        rw [e]
        exact .run (.setFifo _ hl)
    · simp only [exec, execSetFifo]; exact exec_notReady_answers hl _
  | getFifo =>
    by_cases hl : s.life = .ready
    · simp only [exec, execGetFifo, whenReady_ready hl]; exact .run (.getFifo hl)
    · simp only [exec, execGetFifo]; exact exec_notReady_answers hl _
  | setCsgm arg => exact setParam_answers (f := .csgm) (ch := none) rfl s
  | getCsgm => exact getParam_answers (f := .csgm) (ch := none) rfl s
  | setMs arg => exact setParam_answers (f := .ms) (ch := none) rfl s
  | getMs => exact getParam_answers (f := .ms) (ch := none) rfl s
  | setChmode arg => exact setParam_answers (f := .chmode) (ch := none) rfl s
  | getChmode => exact getParam_answers (f := .chmode) (ch := none) rfl s
  | setInitdly arg => exact setParam_answers (f := .initdly) (ch := none) rfl s
  | getInitdly => exact getParam_answers (f := .initdly) (ch := none) rfl s
  | setTrm arg ch => exact setParam_answers (f := .trm) rfl s
  | getTrm ch => exact getParam_answers (f := .trm) rfl s
  | setLayout arg ch => exact setParam_answers (f := .layout) rfl s
  | getLayout ch => exact getParam_answers (f := .layout) rfl s
  | setWl arg ch => exact setParam_answers (f := .wl) rfl s
  | getWl ch => exact getParam_answers (f := .wl) rfl s
  | setTcs arg ch => exact setParam_answers (f := .tcs) rfl s
  | getTcs ch => exact getParam_answers (f := .tcs) rfl s
  | setEpol arg ch => exact setParam_answers (f := .epol) rfl s
  | getEpol ch => exact getParam_answers (f := .epol) rfl s
  | setForce arg ch => exact setParam_answers (f := .force) rfl s
  | getForce ch => exact getParam_answers (f := .force) rfl s
  | setClkd arg ch => exact setParam_answers (f := .clkd) rfl s
  | getClkd ch => exact getParam_answers (f := .clkd) rfl s
  | setPha arg ch => exact setParam_answers (f := .pha) rfl s
  | getPha ch => exact getParam_answers (f := .pha) rfl s
  | setPol arg ch => exact setParam_answers (f := .pol) rfl s
  | getPol ch => exact getParam_answers (f := .pol) rfl s
  | getDevStat =>
    by_cases hl : s.life = .ready
    · simp only [exec, execGetDevStat, whenReady_ready hl]
      split
      · next r h => exact .run (.devStat r hl h)
      · next q h => exact .refused _ rfl (by simp [Params.statusReadable, h])
      · next h => exact .refused _ rfl (by simp [Params.statusReadable, h])
    · simp only [exec, execGetDevStat]; exact exec_notReady_answers hl _
  | getChStat arg =>
    by_cases hl : s.life = .ready
    · simp only [exec, execGetChStat, whenReady_ready hl]
      cases hc : chanOfWord arg with
      | none => exact .error _ _ (by simp)
      | some c => rw [chanOfWord_some hc]; exact .run (.chStat c hl)
    · simp only [exec, execGetChStat]; exact exec_notReady_answers hl _
  | init =>
    by_cases hl : s.life = .terminated
    · simp only [exec, execInit, hl, if_true]; exact .error _ _ (by simp)
    · simp only [exec, execInit, hl, if_false]; exact .run (.init hl)
  | term => exact .term rfl

theorem answers_of_exec {i : Instr} {s t : State} (h : exec i s = .next t) : Answers i s (.next t) := h ▸ exec_answers i s

/-- A first phase is not idle, and has at most `accessBound` accesses left. -/
theorem Starts.bounded {s : State} {i : Instr} {p : Phase} (h : Starts s i p) :
    p ≠ .idle ∧ ∀ x : State, x.params = s.params → p.left x ≤ accessBound s.params := by
  have := eight_le_accessBound s.params
  cases h <;> refine ⟨by simp [fieldWrite, fieldRead], fun x hx => ?_⟩ <;>
    simp only [fieldWrite, fieldRead, Phase.left, After.left, hx] <;> simp [accessBound] at *

end Sys2Proof.Machine
end

