-- ==== Sys2Proof/Laws/PerInstr.lean ====
section
/-! SUPPORT. The per-instruction family `Canonical`: the record of every command is well-formed. One lemma for each
constructor of Instr. -/

namespace Sys2Proof

/-- The record of an operation that takes no channel. -/
theorem ctrl_wellFormed {op : Nat} {arg : Word} (h : op < 2 ^ 32) (hn : op ∈ namedOps) (ha : op ∈ argOps ∨ arg = 0) :
    (Cmd.ctrl op arg).wellFormed = true := by
  have e : (BitVec.ofNat 32 op : Word).toNat = op := by rw [BitVec.toNat_ofNat, Nat.mod_eq_of_lt h]
  have hn' : namedOps.contains op = true := by simpa using hn
  simp only [Cmd.wellFormed, Cmd.named, Cmd.opPlain, Cmd.argPlain, Cmd.chvPlain, Cmd.chPlain, Cmd.ctrl, e, hn']
  rcases ha with ha | rfl
  · simp [ha]
  · simp

/-- The record of a per-channel operation, for every channel operand. -/
theorem ctrlCh_wellFormed {op : Nat} {arg : Word} (ch : Option Word) (h : op < 2 ^ 32) (hn : op ∈ namedOps)
    (ha : op ∈ argOps ∨ arg = 0) (hc : op ∈ channelOps) : (Cmd.ctrlCh op arg ch).wellFormed = true := by
  have e : (BitVec.ofNat 32 op : Word).toNat = op := by rw [BitVec.toNat_ofNat, Nat.mod_eq_of_lt h]
  have hn' : namedOps.contains op = true := by simpa using hn
  have hc' : channelOps.contains op = true := by simpa using hc
  simp only [Cmd.wellFormed, Cmd.named, Cmd.opPlain, Cmd.argPlain, Cmd.chvPlain, Cmd.chPlain, Cmd.ctrlCh, e, hn', hc']
  rcases ha with ha | rfl
  · cases ch <;> simp [ha]
  · cases ch <;> simp

end Sys2Proof

namespace Sys2Proof.Laws.Canonical

/-- The record of the command is well-formed. -/
def Statement (i : Instr) : Prop := (encode i).wellFormed = true

theorem setCh (arg : Word) : Statement (.setCh arg) :=
  ctrl_wellFormed (by decide) (by decide) (.inl (by decide))

theorem getCh : Statement .getCh :=
  ctrl_wellFormed (by decide) (by decide) (.inr rfl)

theorem setFifo (arg : Word) : Statement (.setFifo arg) :=
  ctrl_wellFormed (by decide) (by decide) (.inl (by decide))

theorem getFifo : Statement .getFifo :=
  ctrl_wellFormed (by decide) (by decide) (.inr rfl)

theorem setCsgm (arg : Word) : Statement (.setCsgm arg) :=
  ctrl_wellFormed (by decide) (by decide) (.inl (by decide))

theorem getCsgm : Statement .getCsgm :=
  ctrl_wellFormed (by decide) (by decide) (.inr rfl)

theorem setMs (arg : Word) : Statement (.setMs arg) :=
  ctrl_wellFormed (by decide) (by decide) (.inl (by decide))

theorem getMs : Statement .getMs :=
  ctrl_wellFormed (by decide) (by decide) (.inr rfl)

theorem setChmode (arg : Word) : Statement (.setChmode arg) :=
  ctrl_wellFormed (by decide) (by decide) (.inl (by decide))

theorem getChmode : Statement .getChmode :=
  ctrl_wellFormed (by decide) (by decide) (.inr rfl)

theorem setInitdly (arg : Word) : Statement (.setInitdly arg) :=
  ctrl_wellFormed (by decide) (by decide) (.inl (by decide))

theorem getInitdly : Statement .getInitdly :=
  ctrl_wellFormed (by decide) (by decide) (.inr rfl)

theorem setTrm (arg : Word) (ch : Option Word) : Statement (.setTrm arg ch) :=
  ctrlCh_wellFormed ch (by decide) (by decide) (.inl (by decide)) (by decide)

theorem getTrm (ch : Option Word) : Statement (.getTrm ch) :=
  ctrlCh_wellFormed ch (by decide) (by decide) (.inr rfl) (by decide)

theorem setLayout (arg : Word) (ch : Option Word) : Statement (.setLayout arg ch) :=
  ctrlCh_wellFormed ch (by decide) (by decide) (.inl (by decide)) (by decide)

theorem getLayout (ch : Option Word) : Statement (.getLayout ch) :=
  ctrlCh_wellFormed ch (by decide) (by decide) (.inr rfl) (by decide)

theorem setWl (arg : Word) (ch : Option Word) : Statement (.setWl arg ch) :=
  ctrlCh_wellFormed ch (by decide) (by decide) (.inl (by decide)) (by decide)

theorem getWl (ch : Option Word) : Statement (.getWl ch) :=
  ctrlCh_wellFormed ch (by decide) (by decide) (.inr rfl) (by decide)

theorem setTcs (arg : Word) (ch : Option Word) : Statement (.setTcs arg ch) :=
  ctrlCh_wellFormed ch (by decide) (by decide) (.inl (by decide)) (by decide)

theorem getTcs (ch : Option Word) : Statement (.getTcs ch) :=
  ctrlCh_wellFormed ch (by decide) (by decide) (.inr rfl) (by decide)

theorem setEpol (arg : Word) (ch : Option Word) : Statement (.setEpol arg ch) :=
  ctrlCh_wellFormed ch (by decide) (by decide) (.inl (by decide)) (by decide)

theorem getEpol (ch : Option Word) : Statement (.getEpol ch) :=
  ctrlCh_wellFormed ch (by decide) (by decide) (.inr rfl) (by decide)

theorem setForce (arg : Word) (ch : Option Word) : Statement (.setForce arg ch) :=
  ctrlCh_wellFormed ch (by decide) (by decide) (.inl (by decide)) (by decide)

theorem getForce (ch : Option Word) : Statement (.getForce ch) :=
  ctrlCh_wellFormed ch (by decide) (by decide) (.inr rfl) (by decide)

theorem setClkd (arg : Word) (ch : Option Word) : Statement (.setClkd arg ch) :=
  ctrlCh_wellFormed ch (by decide) (by decide) (.inl (by decide)) (by decide)

theorem getClkd (ch : Option Word) : Statement (.getClkd ch) :=
  ctrlCh_wellFormed ch (by decide) (by decide) (.inr rfl) (by decide)

theorem setPha (arg : Word) (ch : Option Word) : Statement (.setPha arg ch) :=
  ctrlCh_wellFormed ch (by decide) (by decide) (.inl (by decide)) (by decide)

theorem getPha (ch : Option Word) : Statement (.getPha ch) :=
  ctrlCh_wellFormed ch (by decide) (by decide) (.inr rfl) (by decide)

theorem setPol (arg : Word) (ch : Option Word) : Statement (.setPol arg ch) :=
  ctrlCh_wellFormed ch (by decide) (by decide) (.inl (by decide)) (by decide)

theorem getPol (ch : Option Word) : Statement (.getPol ch) :=
  ctrlCh_wellFormed ch (by decide) (by decide) (.inr rfl) (by decide)

theorem getDevStat : Statement .getDevStat :=
  ctrl_wellFormed (by decide) (by decide) (.inr rfl)

theorem getChStat (arg : Word) : Statement (.getChStat arg) :=
  ctrl_wellFormed (by decide) (by decide) (.inl (by decide))

theorem init : Statement .init :=
  (by decide : (encode .init).wellFormed = true)

theorem term : Statement .term :=
  (by decide : (encode .term).wellFormed = true)

end Sys2Proof.Laws.Canonical
end

