-- ==== Sys2Proof/Tests/Slice0.lean ====
section
/-! SUPPORT. Tests on fixed values. The expected results are those of 95_test_vectors.md (cited by part) or are worked out by
hand from the rule cited; none comes from the model. Each test runs one step. The last section shows for every obligation with
hypotheses a state and operands that meet them. -/

namespace Sys2Proof.Tests

open Sys2Proof.Machine

/-! ### Helpers -/

/-- The parameters of the tests: the default table, `HW_REVISION = 0x305` and N = 3. -/
def params : Params := { Params.default with hwRevision := 0x305, resetPollMax := 3 }

/-- An Uninitialized state with the environment's choices `moves` (95_test_vectors.md, L2.6). -/
def start (moves : List EnvMove) : State := { State.powerOn params fun _ => 0 with moves := moves }

/-- A Ready state on the reset bank (95_test_vectors.md, Conventions). -/
def ready : State := { start [] with life := .ready, bank := ⟨0, 0x4, #v[0x60000, 0x60000, 0x60000, 0x60000]⟩ }

/-- `ready` with other conf registers. -/
def confs (a b c d : Word) : State := { ready with bank := ⟨0, 0x4, #v[a, b, c, d]⟩ }

/-- `ready` with another conf register of channel 0. -/
def conf0 (v : Word) : State := confs v 0x60000 0x60000 0x60000

/-- `ready` with another MODULCTRL. -/
def modulctrl (v : Word) : State := { ready with bank := { ready.bank with modulctrl := v } }

/-- `ready` with one choice of the environment, the draw `d`. -/
def drawing (d : Word) : State := { ready with moves := [⟨false, d⟩] }

/-- The environment lets time pass, with the draw `d`. -/
def wait (d : Word) : EnvMove := ⟨false, d⟩

/-- The environment takes ResetComplete, and the draw after it is `d`. -/
def finish (d : Word) : EnvMove := ⟨true, d⟩

/-- The step is a next state with the property. -/
def nextIs (o : Host.Outcome State Fault Refusal) (p : State → Bool) : Bool :=
  match o with
  | .next t => p t
  | .fault _ => false
  | .refused _ => false

/-- The step is a refusal. -/
def refuses (o : Host.Outcome State Fault Refusal) : Bool :=
  match o with
  | .next _ => false
  | .fault _ => false
  | .refused _ => true

/-- The step answers the response, with these log events. -/
def answers (o : Host.Outcome State Fault Refusal) (status : Status) (result : Word) (log : List Event) : Bool :=
  nextIs o fun t => t.responses.map (fun r => (r.status, r.result)) == [(status, result)] && t.log == log

/-! ### Decoding: words written out from 30_encoding.md R70-R74. Bits 31..0 are `op`, 63..32 `arg`, 64 `chv`, 96..65 `ch`. -/

theorem test_decode_channel : decodeTableWord 97 0x0_00000003_00000001 = some (.setCh 3) ∧
    decodeTableWord 32 0x65 = some .getCh := by decide

theorem test_decode_fifo : decodeTableWord 97 0x0_FFFFFFFF_00000002 = some (.setFifo 0xFFFFFFFF) ∧
    decodeTableWord 32 0x66 = some .getFifo := by decide

theorem test_decode_global : decodeTableWord 97 0x0_00000001_00000003 = some (.setCsgm 1) ∧
    decodeTableWord 97 0x0_00000001_00000004 = some (.setMs 1) ∧
    decodeTableWord 97 0x0_00000001_00000005 = some (.setChmode 1) ∧
    decodeTableWord 97 0x0_00000004_00000006 = some (.setInitdly 4) ∧
    decodeTableWord 32 0x67 = some .getCsgm ∧ decodeTableWord 32 0x68 = some .getMs ∧
    decodeTableWord 32 0x69 = some .getChmode ∧ decodeTableWord 32 0x6A = some .getInitdly := by decide

theorem test_decode_perChannel_set : decodeTableWord 97 0x5_00000002_00000007 = some (.setTrm 2 (some 2)) ∧
    decodeTableWord 97 0x1_00000001_00000008 = some (.setLayout 1 (some 0)) ∧
    decodeTableWord 97 0x7_00000020_00000009 = some (.setWl 32 (some 3)) ∧
    decodeTableWord 97 0x0_00000003_0000000A = some (.setTcs 3 none) ∧
    decodeTableWord 97 0x3_00000001_0000000B = some (.setEpol 1 (some 1)) ∧
    decodeTableWord 97 0x0_00000001_0000000C = some (.setForce 1 none) ∧
    decodeTableWord 97 0x1FFFFFFFF_0000000F_0000000D = some (.setClkd 15 (some 0xFFFFFFFF)) ∧
    decodeTableWord 97 0x9_00000001_0000000E = some (.setPha 1 (some 4)) ∧
    decodeTableWord 97 0x0_00000001_0000000F = some (.setPol 1 none) := by decide

theorem test_decode_perChannel_get : decodeTableWord 32 0x6B = some (.getTrm none) ∧
    decodeTableWord 97 0x7_00000000_0000006C = some (.getLayout (some 3)) ∧
    decodeTableWord 97 0x0_DEADBEEF_0000006D = some (.getWl none) ∧
    decodeTableWord 97 0x3_00000000_0000006E = some (.getTcs (some 1)) ∧
    decodeTableWord 32 0x6F = some (.getEpol none) ∧ decodeTableWord 32 0x70 = some (.getForce none) ∧
    decodeTableWord 32 0x71 = some (.getClkd none) ∧
    decodeTableWord 97 0xF_00000000_00000072 = some (.getPha (some 7)) ∧
    decodeTableWord 32 0x73 = some (.getPol none) := by decide

theorem test_decode_status_lifecycle : decodeTableWord 32 0xC8 = some .getDevStat ∧
    decodeTableWord 97 0x7_00000001_000000C9 = some (.getChStat 1) ∧
    decodeTableWord 8 1 = some .init ∧ decodeTableWord 8 2 = some .term := by decide

/-- The reserved rows of L2.1, and the codes at the edges of the reserved ranges (30_encoding.md R75). -/
theorem test_decode_reserved : ([0, 16, 50, 100, 116, 199, 202, 0xFFFFFFFF].all fun op =>
    (decode ⟨0, op, 0, false, 0⟩).isNone) = true := by decide

theorem test_decode_reserved_kind : decode ⟨3, 9, 8, false, 0⟩ = none := by decide

theorem test_decode_edges_named : ([1, 15, 101, 115, 200, 201].all fun op =>
    (decode ⟨0, op, 0, false, 0⟩).isSome) = true := by decide

/-! ### WellFormed: an ill-formed term for each check -/

theorem test_wf_named : (⟨0, 16, 0, false, 0⟩ : Cmd).wellFormed = false := by decide
theorem test_wf_opPlain : (⟨1, 9, 0, false, 0⟩ : Cmd).wellFormed = false := by decide
theorem test_wf_argPlain : (⟨0, 109, 0xDEADBEEF, false, 0⟩ : Cmd).wellFormed = false := by decide
theorem test_wf_chvPlain : (⟨0, 4, 0, true, 0⟩ : Cmd).wellFormed = false := by decide
theorem test_wf_chPlain : (⟨0, 13, 5, false, 9⟩ : Cmd).wellFormed = false := by decide

/-- Condition 1: a field that passes bit 31, and a field without width. -/
theorem test_wf_fits : (⟨.global, 30, 3, [0], .identity⟩ : Descriptor).wellFormed = false ∧
    (⟨.global, 0, 0, [0], .identity⟩ : Descriptor).wellFormed = false := by decide

/-- Condition 3: the value 2 in a field of one bit. -/
theorem test_wf_encFits : (⟨.global, 0, 1, [0, 2], .identity⟩ : Descriptor).wellFormed = false := by decide

/-- Condition 4: two values with one code. -/
theorem test_wf_roundTrips :
    (⟨.global, 0, 1, [0, 1], .listed [(0, 0), (1, 0)] [(0, 0)] 1⟩ : Descriptor).wellFormed = false := by decide

/-- Condition 5: POL on PHA's bit. -/
theorem test_wf_disjoint :
    ({ FieldTable.default with pol := ⟨.perChannel, 0, 1, valuesFrom 0 1, .identity⟩ } : FieldTable).wellFormed = false := by
  decide

/-- A per-channel parameter on MODULCTRL. -/
theorem test_wf_scoped :
    ({ FieldTable.default with pol := ⟨.global, 8, 1, valuesFrom 0 1, .identity⟩ } : FieldTable).wellFormed = false := by
  decide

/-- An FFE row that reads the field 0b01 as disabled (43_fifo.md R150). -/
theorem test_wf_fifoRow :
    ({ FieldTable.default with ffe := ⟨.perChannel, 27, 2, valuesFrom 0 1, .listed [(0, 0), (1, 3)] [(0, 0), (1, 0)] 1⟩ } :
      FieldTable).wellFormed = false := by
  decide

/-- Reset values with the FIFO enabled on two channels (10_state.md R33). -/
theorem test_wf_exclusive : ({ params with resetValue := ⟨0, 4, #v[0x18060000, 0x60000, 0x08060000, 0x60000]⟩ } :
    Params).wellFormed = false := by decide

/-- A reset value of SYSCONFIG with the soft-reset bit set (10_state.md R33). -/
theorem test_wf_resetValue : ({ params with resetValue := { ResetValues.default with sysconfig := 2 } } :
    Params).wellFormed = false := by decide

theorem test_wf_ranged : ({ params with resetPollMax := 0 } : Params).wellFormed = false ∧
    ({ params with softresetBit := 32 } : Params).wellFormed = false ∧
    ({ params with resetdoneBit := 32 } : Params).wellFormed = false := by decide

/-! ### Addressing -/

/-- L1.1: the offset table's corners. -/
theorem test_channelOffset : channelOffset 0 0x00 = 0x12c ∧ channelOffset 1 0x0c = 0x14c ∧ channelOffset 2 0x00 = 0x154 ∧
    channelOffset 3 0x00 = 0x168 ∧ channelOffset 3 0x10 = 0x178 := by decide

/-- 10_state.md R21: holes and the last entries. -/
theorem test_mapAt : mapAt 0x114 = some (.reg .sysstatus) ∧ mapAt 0x16c = some (.reg (.stat 3)) ∧
    mapAt 0x178 = some (.opaq (.rx 3)) ∧ mapAt 0x1a0 = some (.opaq .dmaRx) ∧ mapAt 0x120 = none ∧ mapAt 0x12d = none ∧
    mapAt 0x1a4 = none := by decide

/-! ### Current channel (L2.2) -/

theorem test_setCh : nextIs (exec (.setCh 3) ready) (fun t => t.curch == 3 && t.log == []) = true := by decide
theorem test_setCh_bad : answers (exec (.setCh 4) ready) .invalidChannel 0 [] = true := by decide
theorem test_getCh : answers (exec .getCh { ready with curch := 3 }) .ok 3 [] = true := by decide

/-! ### FIFO (L2.5) -/

theorem test_setFifo_any_bits : answers (exec (.setFifo 0) (conf0 0xE7FFFFFF)) .ok 0
    [.read 0x12c 0xE7FFFFFF, .read 0x140 0x60000, .read 0x154 0x60000, .read 0x168 0x60000, .read 0x12c 0xE7FFFFFF,
      .write 0x12c 0xFFFFFFFF] = true := by decide

theorem test_setFifo_conflict :
    nextIs (exec (.setFifo 1) (confs 0x60000 0x18060000 0x60000 0x18060000)) (fun t =>
      t.responses == [⟨.fifoConflict, 0, some 3⟩] && t.bank.conf == #v[0x60000, 0x18060000, 0x60000, 0x18060000]) = true := by
  decide

theorem test_getFifo_none : answers (exec .getFifo ready) .ok 0xFFFFFFFF
    [.read 0x12c 0x60000, .read 0x140 0x60000, .read 0x154 0x60000, .read 0x168 0x60000] = true := by decide

theorem test_getFifo_one_bit : nextIs (exec .getFifo (confs 0x60000 0x08060000 0x60000 0x60000))
    (fun t => t.responses == [⟨.ok, 1, none⟩]) = true := by decide

/-! ### Global parameters (L2.3) -/

theorem test_setCsgm : answers (exec (.setCsgm 1) ready) .ok 0 [.read 0x128 0x4, .write 0x128 0x6] = true := by decide
theorem test_getCsgm : answers (exec .getCsgm (modulctrl 0x6)) .ok 1 [.read 0x128 0x6] = true := by decide
theorem test_setMs : answers (exec (.setMs 0) ready) .ok 0 [.read 0x128 0x4, .write 0x128 0x0] = true := by decide
theorem test_getMs : answers (exec .getMs ready) .ok 1 [.read 0x128 0x4] = true := by decide
theorem test_setChmode : answers (exec (.setChmode 1) ready) .ok 0 [.read 0x128 0x4, .write 0x128 0x5] = true := by decide
theorem test_setChmode_bad : answers (exec (.setChmode 0x80000000) ready) .invalidValue 0 [] = true := by decide
theorem test_getChmode : answers (exec .getChmode (modulctrl 0x5)) .ok 1 [.read 0x128 0x5] = true := by decide
theorem test_setInitdly : answers (exec (.setInitdly 0) (modulctrl 0xFFFFFFFF)) .ok 0
    [.read 0x128 0xFFFFFFFF, .write 0x128 0xFFFFFF8F] = true := by decide
theorem test_setInitdly_bad : answers (exec (.setInitdly 5) ready) .invalidValue 0 [] = true := by decide
theorem test_getInitdly : answers (exec .getInitdly (modulctrl 0x74)) .ok 7 [.read 0x128 0x74] = true := by decide

/-! ### Per-channel parameters (L2.4, L1.6) -/

theorem test_setTrm : answers (exec (.setTrm 2 none) ready) .ok 0 [.read 0x12c 0x60000, .write 0x12c 0x62000] = true := by
  decide
theorem test_getTrm : answers (exec (.getTrm none) (conf0 0x63000)) .ok 3 [.read 0x12c 0x63000] = true := by decide
theorem test_setLayout : answers (exec (.setLayout 1 none) ready) .ok 0
    [.read 0x12c 0x60000, .write 0x12c 0x10000] = true := by decide
theorem test_getLayout : answers (exec (.getLayout none) (conf0 0x30000)) .ok 1 [.read 0x12c 0x30000] = true := by decide
theorem test_getLayout_bit : answers (exec (.getLayout none) (conf0 0x70000)) .ok 0 [.read 0x12c 0x70000] = true := by decide
theorem test_setWl : answers (exec (.setWl 4 none) (conf0 0xFFFFFFFF)) .ok 0
    [.read 0x12c 0xFFFFFFFF, .write 0x12c 0xFFFFF1FF] = true := by decide
theorem test_setWl_bad : answers (exec (.setWl 3 (some 9)) ready) .invalidValue 0 [] = true := by decide
theorem test_getWl : answers (exec (.getWl none) (conf0 0x60F80)) .ok 32 [.read 0x12c 0x60F80] = true := by decide
theorem test_setTcs : answers (exec (.setTcs 2 none) ready) .ok 0
    [.read 0x12c 0x60000, .write 0x12c 0x04060000] = true := by decide
theorem test_getTcs : answers (exec (.getTcs none) (conf0 0x06060000)) .ok 3 [.read 0x12c 0x06060000] = true := by decide
theorem test_setEpol : answers (exec (.setEpol 1 none) ready) .ok 0
    [.read 0x12c 0x60000, .write 0x12c 0x60040] = true := by decide
theorem test_getEpol : answers (exec (.getEpol none) (conf0 0x60040)) .ok 1 [.read 0x12c 0x60040] = true := by decide
theorem test_setForce : answers (exec (.setForce 1 none) ready) .ok 0
    [.read 0x12c 0x60000, .write 0x12c 0x160000] = true := by decide
theorem test_getForce : answers (exec (.getForce none) (conf0 0xFFEFFFFF)) .ok 0 [.read 0x12c 0xFFEFFFFF] = true := by decide
theorem test_setClkd_bad : answers (exec (.setClkd 5 (some 0xFFFFFFFF)) { ready with curch := 1 }) .invalidChannel 0 [] = true :=
  by decide
theorem test_setClkd : answers (exec (.setClkd 5 none) { ready with curch := 1 }) .ok 0
    [.read 0x140 0x60000, .write 0x140 0x60014] = true := by decide
theorem test_getClkd : answers (exec (.getClkd none) (conf0 0x6003C)) .ok 15 [.read 0x12c 0x6003C] = true := by decide
theorem test_setPha : nextIs (exec (.setPha 1 (some 3)) { ready with curch := 2 }) (fun t =>
    t.log == [.read 0x168 0x60000, .write 0x168 0x60001] && t.curch == 2) = true := by decide
theorem test_getPha_bad : answers (exec (.getPha (some 7)) ready) .invalidChannel 0 [] = true := by decide
theorem test_getPha : answers (exec (.getPha (some 0)) { ready with curch := 2 }) .ok 0 [.read 0x12c 0x60000] = true := by
  decide
theorem test_setPol : answers (exec (.setPol 1 none) (conf0 0x60001)) .ok 0
    [.read 0x12c 0x60001, .write 0x12c 0x60003] = true := by decide
theorem test_getPol : answers (exec (.getPol none) (conf0 0x60001)) .ok 0 [.read 0x12c 0x60001] = true := by decide

/-! ### Status (L2.7) -/

theorem test_getDevStat : answers (exec .getDevStat (drawing 0xFFFFFFFE)) .ok 0xFFFFFFFF
    [.read 0x114 0xFFFFFFFF] = true := by decide
theorem test_getDevStat_early : answers (exec .getDevStat (start [])) .deviceNotReady 0 [] = true := by decide
theorem test_getChStat : answers (exec (.getChStat 1) { drawing 0xABCD with curch := 2 }) .ok 0xABCD
    [.read 0x144 0xABCD] = true := by decide
theorem test_getChStat_bad : answers (exec (.getChStat 4) ready) .invalidChannel 0 [] = true := by decide

/-! ### Lifecycle (L2.6, L1.4) -/

/-- SYSCONFIG = 0x11, ResetComplete after poll 2. -/
theorem test_init : nextIs (exec .init { start [wait 0, wait 0, wait 0, wait 0xFF, wait 0xFE, finish 0xF0] with
      bank := ⟨0x11, 0x12345678, #v[0, 0, 0, 0]⟩ }) (fun t =>
    t.responses == [⟨.ok, 0, none⟩] && t.life == .ready && t.bank == ready.bank && !t.pend && t.revMajor == 3 &&
      t.revMinor == 5 && t.log == [.read 0x000 0x305, .rev 3 5, .read 0x110 0x11, .write 0x110 0x13, .read 0x114 0xFE,
        .read 0x114 0xFE, .read 0x114 0xF1]) = true := by decide

/-- L1.4: exactly N = 3 polls. -/
theorem test_init_timeout : nextIs (exec .init (start [wait 0, wait 0, wait 0, wait 1, wait 1, wait 1])) (fun t =>
    t.responses == [⟨.resetTimeout, 0, none⟩] && t.life == .uninitialized && t.pend && t.log == [.read 0x000 0x305,
      .rev 3 5, .read 0x110 0, .write 0x110 2, .read 0x114 0, .read 0x114 0, .read 0x114 0, .timeout]) = true := by decide

/-- A reset pending from before completes between the read and the write; the word written is the draw with the bit set
(L2.6, the row of 70_reset_and_hazards.md R214). -/
theorem test_term_pending : nextIs (exec .term { start [wait 0x20, finish 0, finish 0] with pend := true }) (fun t =>
    t.life == .terminated && t.bank == ready.bank && t.log == [.read 0x110 0x20, .write 0x110 0x22, .read 0x114 1]) = true :=
  by decide

theorem test_term_timeout : nextIs (exec .term { ready with moves := [wait 0, wait 0, wait 0, wait 0, wait 0] }) (fun t =>
    t.responses == [⟨.resetTimeout, 0, none⟩] && t.life == .terminated && t.pend && t.bank.sysconfig == 2) = true := by
  decide

/-! ### The port (L2.1, L2.8) -/

theorem test_step_reserved : answers (step { start [] with waiting := [⟨0, 50, 0, false, 0⟩] }) .unknownOperation 0 [] =
    true := by decide

theorem test_step_first : answers (step { ready with waiting := [⟨0, 9, 8, false, 0⟩] }) .ok 0
    [.read 0x12c 0x60000, .write 0x12c 0x60380] = true := by decide

theorem test_withFetchWord : answers (step (ready.withFetchWord 32 9)) .invalidValue 0 [] = true ∧
    nextIs (step ((start [wait 0, wait 0, wait 0, finish 0]).withFetchWord 8 1)) (fun t => t.life == .ready) = true := by
  decide

/-- 30_encoding.md R76: the numbers of two errors. -/
theorem test_status_codes : Status.invalidChannel.code = 1 ∧ Status.resetTimeout.code = 5 := by decide

/-! ### Construction (40_engine.md R101, 10_state.md R33) -/

/-- PHA and POL on one bit; a reset value that holds the soft-reset bit. -/
theorem test_construct_refuses :
    refuses (State.construct { params with table := { FieldTable.default with pol := FieldTable.default.pha } } fun _ => 0)
      = true ∧
    refuses (State.construct { params with resetValue := { ResetValues.default with sysconfig := 2 } } fun _ => 0) = true := by
  decide

/-! ### Witnesses: the hypotheses of each obligation, met together. `ready` is a Ready state, `params` are admitted. -/

/-- `ready` with this record waiting. -/
def submitted (c : Cmd) : State := { ready with waiting := [c] }

/-- The record of `SETWL 8` and of a reserved code. -/
def setWl8 : Cmd := ⟨0, 9, 8, false, 0⟩
def reserved50 : Cmd := ⟨0, 50, 0, false, 0⟩

/-- A Ready state with no reset pending, under admitted default parameters. -/
abbrev Plain (s : State) : Prop :=
  s.life = .ready ∧ s.pend = false ∧ s.Admitted ∧ s.params.table.scoped = true ∧ s.params.table = .default

theorem test_witness_params : params.wellFormed = true ∧ params.statusReadable = true ∧ params.table.scoped = true ∧
    params.table = .default ∧ params.softresetBit < 32 ∧ params.resetdoneBit < 32 := by decide

/-- The hypotheses that most statements about a Ready state share. -/
theorem test_witness_ready : ready.life = .ready ∧ ready.pend = false ∧ ready.Admitted ∧
    ready.params.table.scoped = true ∧ ready.params.table = .default ∧ ready.params.statusReadable = true ∧
    ready.busy = false ∧ ready.seq = .idle := by decide

theorem test_witness_WellFormedRecordsAreEncodings : (⟨0, 9, 32, true, 3⟩ : Cmd).wellFormed = true ∧
    (⟨1, 0, 0, false, 0⟩ : Cmd).wellFormed = true := by decide

theorem test_witness_ReservedRecordAnswersUnknownOperation : (submitted reserved50).busy = false ∧
    accept (submitted reserved50) = some (reserved50, ready) ∧ decode reserved50 = none := by decide

theorem test_witness_StepRunsTheDecodedCommand : (submitted setWl8).busy = false ∧
    accept (submitted setWl8) = some (setWl8, ready) ∧ decode setWl8 = some (.setWl 8 none) ∧
    decodeTableWord 32 9 = some (.setWl 0 none) ∧ decodeTableWord 8 2 = some .term := by decide

/-- A record waits, none waits, and the second of two waiting records is chosen. -/
theorem test_witness_AnyWaitingCommandCanBeNext : (submitted setWl8).waiting ≠ [] ∧ ready.waiting = [] ∧
    ((accept { ready with waiting := [setWl8, reserved50], picks := [1] }).map Prod.fst) = some reserved50 ∧
    [setWl8, reserved50] = [setWl8] ++ reserved50 :: [] := by decide

theorem test_witness_LockedStepMakesOneBusAccess :
    ({ ready with busy := true, phase := .wordRead .revision } : State).busy = true ∧
    ({ ready with busy := true, phase := .wordRead .revision } : State).phase ≠ .idle := by decide

theorem test_witness_IdleStepIsTheEnvironments : (start [finish 0]).busy = false ∧ (start [finish 0]).waiting = [] := by
  decide

theorem test_witness_ChannelOffsetFormula : 3 ≤ 3 ∧ (0x10 : Nat) ≤ 0x10 ∧ channelOffset 3 0x10 = 0x178 ∧
    channelOffset 0 0 = 0x12c := by decide

theorem test_witness_DescriptorAddressResolution : (FieldTable.default.get .ms).scope = .global ∧
    (FieldTable.default.get .wl).scope = .perChannel := by decide

theorem test_witness_RegisterMapIsTheTable : mapAt 0x000 = some (.reg .revision) ∧ mapAt 0x1a0 = some (.opaq .dmaRx) ∧
    mapAt 0x120 = none := by decide

theorem test_witness_ControlOperationsNeedReady : Instr.getCh ≠ .init ∧ Instr.getCh ≠ .term ∧ (start []).life ≠ .ready := by
  decide

/-- Each global set at the largest value of its domain. -/
theorem test_witness_GlobalSetsWriteTheirField : Plain ready ∧
    (1 : Word) ∈ (ready.params.table.get .csgm).dom ∧
    (1 : Word) ∈ (ready.params.table.get .ms).dom ∧ (1 : Word) ∈ (ready.params.table.get .chmode).dom ∧
    (4 : Word) ∈ (ready.params.table.get .initdly).dom := by decide

/-- Each per-channel set at a boundary value, with the current channel and with the highest explicit one. -/
theorem test_witness_PerChannelSetsWriteTheirField : Plain ready ∧
    (2 : Word) ∈ (ready.params.table.get .trm).dom ∧
    (1 : Word) ∈ (ready.params.table.get .layout).dom ∧ (32 : Word) ∈ (ready.params.table.get .wl).dom ∧
    (3 : Word) ∈ (ready.params.table.get .tcs).dom ∧ (1 : Word) ∈ (ready.params.table.get .epol).dom ∧
    (1 : Word) ∈ (ready.params.table.get .force).dom ∧ (15 : Word) ∈ (ready.params.table.get .clkd).dom ∧
    (1 : Word) ∈ (ready.params.table.get .pha).dom ∧ (0 : Word) ∈ (ready.params.table.get .pol).dom ∧
    ((none : Option Word) = none ∧ (0 : Chan) = ready.curch) ∧ some (3 : Word) = some ((3 : Chan).setWidth 32) := by decide

theorem test_witness_GlobalGetsReturnTheirField : Plain ready ∧
    (Instr.getInitdly, FieldId.initdly) ∈ [(Instr.getCsgm, FieldId.csgm), (.getMs, .ms), (.getChmode, .chmode),
      (.getInitdly, .initdly)] := by decide

theorem test_witness_PerChannelGetsReturnTheirField : Plain ready ∧
    (Instr.getPol (some 3), FieldId.pol) ∈
    [(Instr.getPha (some 3), FieldId.pha), (Instr.getPol (some 3), FieldId.pol)] ∧
    some (3 : Word) = some ((3 : Chan).setWidth 32) := by decide

/-- Both clauses, at the bounds 4 and 32 and just outside them. -/
theorem test_witness_SetsRejectExactlyTheValuesOutsideTheDomain : Plain ready ∧
    setCommand .wl 33 none = some (.setWl 33 none) ∧ (33 : Word) ∉ (ready.params.table.get .wl).dom ∧
    (3 : Word) ∉ (ready.params.table.get .wl).dom ∧ (4 : Word) ∈ (ready.params.table.get .wl).dom ∧
    (32 : Word) ∈ (ready.params.table.get .wl).dom := by decide

/-- Every clause: a Global set, channel 4, channel 3 and the current channel. -/
theorem test_witness_ChannelOfADescriptorAccess : Plain ready ∧
    (4#32).toNat ∈ [3, 4, 5, 6, 103, 104, 105, 106] ∧
    setCommand .ms 0 (some 9) = some (.setMs 0) ∧ (0 : Word) ∈ (ready.params.table.get .ms).dom ∧
    FieldId.ms.scope = .global ∧ FieldId.pha.scope = .perChannel ∧ getCommand .pha (some 4) = some (.getPha (some 4)) ∧
    3 < (4 : Word).toNat ∧ some (3 : Word) = some ((3 : Chan).setWidth 32) ∧ (0 : Chan) = ready.curch := by decide

theorem test_witness_GetAfterSetReturnsTheValue : Plain ready ∧
    (32 : Word) ∈ (ready.params.table.get .wl).dom ∧
    setCommand .wl 32 (some 3) = some (.setWl 32 (some 3)) ∧ getCommand .wl (some 3) = some (.getWl (some 3)) := by decide

theorem test_witness_SetKeepsEveryOtherField : Plain ready ∧
    setCommand .pha 1 none = some (.setPha 1 none) ∧ FieldId.pol ≠ .pha ∧
    FieldId.pha.scope = .perChannel ∧ (3 : Chan).setWidth 32 ≠ (none : Option Word).getD (ready.curch.setWidth 32) ∧
    nextIs (exec (.setPha 1 none) ready) (fun _ => true) = true := by decide

theorem test_witness_TwoSetsBothTakeEffectInEitherOrder : Plain ready ∧
    FieldId.pha ≠ .pol ∧
    (1 : Word) ∈ (ready.params.table.get .pha).dom ∧ (1 : Word) ∈ (ready.params.table.get .pol).dom ∧
    setCommand .pha 1 none = some (.setPha 1 none) ∧ setCommand .pol 1 none = some (.setPol 1 none) := by decide

/-- Both clauses of each row, at the largest value of the domain and the next one. -/
theorem test_witness_GlobalSetRules : Plain ready ∧
    (1 : Word).toNat ≤ 1 ∧ 1 < (2 : Word).toNat ∧
    (4 : Word).toNat ≤ 4 ∧ 4 < (5 : Word).toNat ∧ (6#32, Instr.setInitdly 4, 0x70#32, 4, 4) ∈
      [(3#32, Instr.setCsgm 4, 0x2#32, 1, 1), (4#32, .setMs 4, 0x4#32, 2, 1), (5#32, .setChmode 4, 0x1#32, 0, 1),
        (6#32, .setInitdly 4, 0x70#32, 4, 4)] := by decide

theorem test_witness_GlobalGetRules : Plain ready ∧
    (106#32, Instr.getInitdly, 4, 3) ∈
    [(103#32, Instr.getCsgm, 1, 1), (104#32, .getMs, 2, 1), (105#32, .getChmode, 0, 1), (106#32, .getInitdly, 4, 3)] := by
  decide

/-- Every clause: SETTRM 3, SETTRM 2 on channel 4, on channel 3 and on the current channel. -/
theorem test_witness_PerChannelSetRules : Plain ready ∧
    (7#32, Instr.setTrm 2 (some 4), 0x3000#32, 12, 2) ∈ [(7#32, Instr.setTrm 2 (some 4), 0x3000#32, 12, 2)] ∧
    2 < (3 : Word).toNat ∧ (2 : Word).toNat ≤ 2 ∧ 3 < (4 : Word).toNat ∧
    some (3 : Word) = some ((3 : Chan).setWidth 32) ∧ (0 : Chan) = ready.curch := by decide

theorem test_witness_PerChannelGetRules : Plain ready ∧
    (113#32, Instr.getClkd (some 4), 2, 4) ∈ [(113#32, Instr.getClkd (some 4), 2, 4)] ∧
    3 < (4 : Word).toNat ∧ some (3 : Word) = some ((3 : Chan).setWidth 32) ∧ (0 : Chan) = ready.curch := by decide

/-- The bounds of each clause. -/
theorem test_witness_WordLengthLayoutAndDividerRules : Plain ready ∧
    (4 ≤ (4 : Word).toNat ∧ (32 : Word).toNat ≤ 32) ∧
    ¬(4 ≤ (3 : Word).toNat ∧ (3 : Word).toNat ≤ 32) ∧ ¬(4 ≤ (33 : Word).toNat ∧ (33 : Word).toNat ≤ 32) ∧
    1 < (2 : Word).toNat ∧ (15 : Word).toNat ≤ 15 ∧ 15 < (16 : Word).toNat := by decide

theorem test_witness_CurrentChannelOperations : Plain ready ∧ 3 < (4 : Word).toNat := by decide

theorem test_witness_OnlySetChMovesTheCurrentChannel :
    nextIs (step (submitted ⟨0, 1, 3, false, 0⟩)) (fun t => t.curch != (submitted ⟨0, 1, 3, false, 0⟩).curch) = true := by
  decide

theorem test_witness_FifoIsOnWhenTheFieldIsNonZero : params.wellFormed = true := by decide

theorem test_witness_SetFifoDisableClearsEveryChannel : Plain (confs 0x18060000 0x60000 0x60000 0x60000) := by decide

theorem test_witness_SetFifoEnablesOneChannel : Plain (confs 0x60000 0x60000 0x60000 0x18060000) ∧ ∀ c : Chan, c ≠ 3 →
    (confs 0x60000 0x60000 0x60000 0x18060000).params.table.ffe.extract
      ((confs 0x60000 0x60000 0x60000 0x18060000).bank.conf[c.toNat]'c.isLt) ≠ 1 := by decide

theorem test_witness_SetFifoConflictsWithAnotherChannel : Plain (confs 0x60000 0x18060000 0x60000 0x18060000) ∧
    (3 : Chan) ≠ 1 ∧
    params.table.ffe.extract ((confs 0x60000 0x18060000 0x60000 0x18060000).bank.conf[(3 : Chan).toNat]'(by decide)) = 1 ∧
    ∀ b : Chan, b < 3 → b ≠ 1 → params.table.ffe.extract
      ((confs 0x60000 0x18060000 0x60000 0x18060000).bank.conf[b.toNat]'b.isLt) ≠ 1 := by decide

theorem test_witness_SetFifoRejectsEveryOtherWord : Plain ready ∧
    4 ≤ (4 : Word).toNat ∧ (4 : Word) ≠ 0xFFFFFFFF ∧
    4 ≤ (0xFFFFFFFE : Word).toNat ∧ (0xFFFFFFFE : Word) ≠ 0xFFFFFFFF := by decide

/-- Both clauses: channel 3 enabled alone, and none enabled. -/
theorem test_witness_GetFifoReturnsTheLowestEnabledChannel : Plain ready ∧
    Plain (confs 0x60000 0x60000 0x60000 0x08060000) ∧
    params.table.ffe.extract ((confs 0x60000 0x60000 0x60000 0x08060000).bank.conf[(3 : Chan).toNat]'(by decide)) = 1 ∧
    (∀ b : Chan, b < 3 → ¬params.table.ffe.extract
      ((confs 0x60000 0x60000 0x60000 0x08060000).bank.conf[b.toNat]'b.isLt) = 1) ∧
    ∀ c : Chan, ¬params.table.ffe.extract (ready.bank.conf[c.toNat]'c.isLt) = 1 := by decide

theorem test_witness_GetFifoAfterSetFifoReturnsTheArgument : Plain ready ∧
    nextIs (exec (.setFifo 3) ready) (fun t => t.responses == ready.responses ++ [⟨.ok, 0, none⟩]) = true ∧
    nextIs (exec (.setFifo 0xFFFFFFFF) ready) (fun t => t.responses == ready.responses ++ [⟨.ok, 0, none⟩]) = true := by
  decide

theorem test_witness_InitFromTerminatedIsNotReady : ({ ready with life := .terminated } : State).life = .terminated := by
  decide

/-- The reset completes before the first and before the last of the three polls. -/
theorem test_witness_InitSucceedsWhenTheResetCompletesInTime : params.softresetBit < 32 ∧ params.resetdoneBit < 32 ∧
    (start []).life ≠ .terminated ∧ 0 < params.resetPollMax ∧ 2 < params.resetPollMax ∧
    ((start [wait 0, wait 0, wait 0, finish 3]).moveAt (3 + 0)).complete = true ∧
    (∀ i < 2, ((start [wait 0, wait 0, wait 0, wait 1, wait 2, finish 3]).moveAt (3 + i)).complete = false) ∧
    ((start [wait 0, wait 0, wait 0, wait 1, wait 2, finish 3]).moveAt (3 + 2)).complete = true := by decide

theorem test_witness_InitTimesOutAfterExactlyNPolls : params.softresetBit < 32 ∧ params.resetdoneBit < 32 ∧
    (start []).life ≠ .terminated ∧
    ∀ i < params.resetPollMax, ((start [wait 0, finish 0, wait 0, wait 1, wait 2, wait 3]).moveAt (3 + i)).complete = false := by
  decide

theorem test_witness_TermSucceedsWhenTheResetCompletesInTime : params.softresetBit < 32 ∧ params.resetdoneBit < 32 ∧
    2 < params.resetPollMax ∧
    (∀ i < 2, ((start [wait 0, wait 0, wait 1, wait 2, finish 3]).moveAt (2 + i)).complete = false) ∧
    ((start [wait 0, wait 0, wait 1, wait 2, finish 3]).moveAt (2 + 2)).complete = true := by decide

theorem test_witness_TermTimesOutAfterExactlyNPolls : params.softresetBit < 32 ∧ params.resetdoneBit < 32 ∧
    ∀ i < params.resetPollMax, ((start [finish 0, wait 0, wait 1, wait 2, wait 3]).moveAt (2 + i)).complete = false := by
  decide

/-- In State.reset, where no choice is listed, the hypotheses of one of the two INIT statements hold, whichever choices the free
value makes. -/
theorem test_witness_reset_init : State.reset.life ≠ .terminated ∧ State.reset.params.softresetBit < 32 ∧
    State.reset.params.resetdoneBit < 32 ∧ State.reset.moves = [] ∧
    ((∃ j < State.reset.params.resetPollMax, (∀ i < j, (State.reset.moveAt (3 + i)).complete = false) ∧
        (State.reset.moveAt (3 + j)).complete = true) ∨
      ∀ i < State.reset.params.resetPollMax, (State.reset.moveAt (3 + i)).complete = false) :=
  ⟨by decide, by decide, by decide, rfl, completes_or_not _ _ _⟩

theorem test_witness_LifecycleTransitionsFollowTheTable :
    nextIs (exec .term (start [wait 0, wait 0, finish 0])) (fun _ => true) = true ∧
    nextIs (exec .init (start [wait 0, wait 0, wait 0, finish 0])) (fun _ => true) = true ∧ nextIs (exec .getCh ready) (fun _ => true) = true ∧
    nextIs (exec .init { ready with life := .terminated }) (fun _ => true) = true := by decide

theorem test_witness_SuccessfulResetLeavesTheResetValues : params.softresetBit < 32 ∧ params.resetdoneBit < 32 ∧
    nextIs (exec .init (start [wait 0, wait 0, wait 0, finish 0])) (fun t => t.responses == [⟨.ok, 0, none⟩]) = true ∧
    nextIs (exec .term (start [wait 0, wait 0, finish 0])) (fun t => t.responses == [⟨.ok, 0, none⟩]) = true := by decide

theorem test_witness_DeviceStatusIsReadWhole : Plain ready ∧
    mapAt ready.params.deviceStatusOff = some (.reg .sysstatus) ∧
    ready.params.deviceStatusOff = 0x114 := by decide

/-- Both clauses, and both stop. -/
theorem test_witness_DeviceStatusOffTheMapIsRefused : ready.life = .ready ∧ mapAt 0x120 = none ∧ mapAt 0x118 = some (.opaq .irqstatus) ∧
    refuses (exec .getDevStat { ready with params := { params with deviceStatusOff := 0x120 } }) = true ∧
    refuses (exec .getDevStat { ready with params := { params with deviceStatusOff := 0x118 } }) = true := by decide

theorem test_witness_ChannelStatusIsReadWhole : Plain ready ∧ 3 < (4 : Word).toNat := by decide

/-- Each status the statement lists. -/
theorem test_witness_ErrorsArePrecise :
    answers (exec (.setCh 4) ready) .invalidChannel 0 [] = true ∧
    answers (exec (.setWl 3 none) ready) .invalidValue 0 [] = true ∧
    answers (exec .getCh (start [])) .deviceNotReady 0 [] = true ∧
    nextIs (exec (.setFifo 1) (confs 0x60000 0x60000 0x60000 0x18060000))
      (fun t => t.responses.map (·.status) == [.fifoConflict]) = true ∧
    nextIs (exec .init (start [wait 0, wait 0, wait 0, wait 0, wait 0, wait 0]))
      (fun t => t.responses.map (·.status) == [.resetTimeout]) = true := by decide

/-- A command that answers, and a reserved record that is accepted. -/
theorem test_witness_ResponseRecordIsTheStatusCodeAndTheResult :
    nextIs (exec .getCh ready) (fun t => t.responses.map Response.record == [(0, 0)]) = true ∧
    nextIs (step (submitted reserved50)) (fun t => t.responses.map Response.record == [(6, 0)]) = true := by decide

/-- An admitted table with values in and out of their range, and a table that is refused. -/
theorem test_witness_ConstructionRefusesExactlyTheOtherTables : params.table.admitted = true ∧
    params.valuesAdmitted = true ∧ nextIs (State.construct params fun _ => 0) (fun _ => true) = true ∧
    ({ FieldTable.default with pol := FieldTable.default.pha } : FieldTable).admitted = false := by decide

theorem test_witness_EveryCommandCompletesWithinItsBound : ready.params.statusReadable = true ∧
    (start []).params.statusReadable = true := by decide

theorem test_witness_NoStepStops : (submitted setWl8).params.statusReadable = true := by decide

theorem test_witness_InvariantHoldsAtPowerOn : Params.default.wellFormed = true := by decide

theorem test_witness_EveryWriteIsTheSecondHalfOfAnRmw :
    nextIs (exec (.setPha 1 none) ready) (fun t => t.log == [] ++ .read 0x12c 0x60000 :: .write 0x12c 0x60001 :: []) = true :=
  by decide

theorem test_witness_NoStepChangesTheConstantsOrTheOpaqueRegisters :
    nextIs (step (submitted setWl8)) (fun _ => true) = true := by decide

/-- A Ready state, an Uninitialized one and a Terminated one with a reset pending meet the invariant. -/
theorem test_witness_EveryStepKeepsTheInvariant : ready.Inv ∧ (submitted setWl8).Inv ∧ (start []).Inv ∧
    ({ ready with life := .terminated, pend := true } : State).Inv ∧
    nextIs (step (submitted setWl8)) (fun t => decide t.Inv) = true := by decide

/-- A Ready state with two channels enabled does not meet it. -/
theorem test_inv_refuses_two_fifos : ¬(confs 0x18060000 0x60000 0x60000 0x08060000).Inv := by decide

end Sys2Proof.Tests
end

section
/-! SUPPORT. What one step can do, said once, and what no step changes. -/

namespace Sys2Proof.Machine

/-! ### One step -/

/-- What the port leaves of the state: only what waits and the port's own choices can change (60_exceptions.md R200). -/
theorem accept_frame {s x : State} {c : Cmd} (h : accept s = some (c, x)) :
    x = { s with waiting := x.waiting, picks := x.picks, pickTick := x.pickTick } := by
  unfold accept at h
  split at h
  · cases h
  · cases h; rfl
  · cases h; rfl

/-- The next states of one step. -/
inductive Steps (s : State) : State → Prop
  | access : s.busy = true → Steps s (access s)
  | environment : s.busy = false → accept s = none → Steps s (environment s)
  | reserved {c : Cmd} {x : State} : s.busy = false → accept s = some (c, x) → decode c = none →
      Steps s (raise .unknownOperation none x)
  | command {c : Cmd} {x t : State} {i : Instr} : s.busy = false → accept s = some (c, x) → decode c = some i →
      exec i x = .next t → Steps s t

theorem steps_of_step {s t : State} (h : step s = .next t) : Steps s t := by
  unfold step at h
  split at h
  · next hb => cases h; exact .access hb
  · next hb =>
    have hb : s.busy = false := by simpa using hb
    split at h
    · next c x ha =>
      unfold execCmd at h
      split at h
      · next i hd => exact .command hb ha hd h
      · next hd => cases h; exact .reserved hb ha hd
    · next ha => cases h; exact .environment hb ha

/-! ### What no command changes -/

@[simp] theorem runCommand_params (s : State) : (runCommand s).params = s.params := by simp [runCommand]
@[simp] theorem runCommand_opaq (s : State) : (runCommand s).opaq = s.opaq := by simp [runCommand]
@[simp] theorem runCommand_curch (s : State) : (runCommand s).curch = s.curch := by simp [runCommand]
@[simp] theorem runFrom_params (p : Phase) (s : State) : (runFrom p s).params = s.params := by simp [runFrom]
@[simp] theorem runFrom_opaq (p : Phase) (s : State) : (runFrom p s).opaq = s.opaq := by simp [runFrom]
@[simp] theorem runFrom_curch (p : Phase) (s : State) : (runFrom p s).curch = s.curch := by simp [runFrom]

theorem exec_keeps_constants {i : Instr} {s t : State} (h : exec i s = .next t) :
    t.params = s.params ∧ t.opaq = s.opaq := by
  cases answers_of_exec h <;> simp

/-- The only command that moves the current channel is SETCH, to the channel of its argument (10_state.md R37). -/
theorem exec_curch {i : Instr} {s t : State} (h : exec i s = .next t) :
    t.curch = s.curch ∨ i = .setCh (t.curch.setWidth 32) := by
  cases answers_of_exec h with
  | setCh c hi => exact .inr hi
  | error e info he => exact .inl rfl
  | getCh hi => exact .inl rfl
  | run hp => exact .inl (by simp)
  | term hi => exact .inl (by simp)

/-- Settles O53: one access, the environment, the port and every command keep both fields. -/
theorem noStepChangesTheConstantsOrTheOpaqueRegisters :
    Obligations.NoStepChangesTheConstantsOrTheOpaqueRegisters := by
  intro s t h
  cases steps_of_step h with
  | access hb => simp
  | environment hb ha => simp
  | reserved hb ha hd => rw [accept_frame ha]; simp
  | command hb ha hd he =>
    obtain ⟨hp, ho⟩ := exec_keeps_constants he
    rw [hp, ho, accept_frame ha]
    simp

/-- Settles O31, by the kinds of step: only a command can move the current channel, and then it is SETCH. -/
theorem onlySetChMovesTheCurrentChannel : Obligations.OnlySetChMovesTheCurrentChannel := by
  intro s t h hne
  cases steps_of_step h with
  | access hb => exact absurd (access_curch s) hne
  | environment hb ha => exact absurd (environment_curch s) hne
  | reserved hb ha hd =>
    rw [accept_frame ha] at hne
    exact absurd rfl hne
  | @command c x _ i hb ha hd he =>
    have hx : x.curch = s.curch := by rw [accept_frame ha]
    rcases exec_curch he with hc | rfl
    · exact absurd (hc.trans hx) hne
    · exact ⟨hb, c, x, _, ha, hd, rfl⟩

/-- Settles O8: the step is one `access`, which is one bus event, uses one choice and leaves the port alone. -/
theorem lockedStepMakesOneBusAccess : Obligations.LockedStepMakesOneBusAccess := by
  intro s hb hp
  obtain ⟨e, diag, hlog, he, hdiag⟩ := (access_advances hb hp).log
  exact ⟨access s, e, diag, by simp [step, hb], access_waiting s, access_moves hp, hlog, he, hdiag⟩

/-- Settles O9: with nothing waiting the step is the environment's choice, written field by field. -/
theorem idleStepIsTheEnvironments : Obligations.IdleStepIsTheEnvironments := by
  intro s hb hw
  have ha : accept s = none := by simp [accept, hw]
  simp only [step, hb, ha, environment_eq]
  rfl

end Sys2Proof.Machine
end

section
/-! SUPPORT. The register map is injective on offsets, and so `mapAt` is the inverse of `MapEntry.offset`
(10_state.md R21, R22). -/

namespace Sys2Proof.Machine

theorem mem_registerMap (m : MapEntry) : m ∈ registerMap := by
  have hc (c : Chan) : ∀ e ∈ channelGroup c, e ∈ registerMap := by revert c; decide
  rcases m with ((_ | (_ | _ | c) | _ | c) | (_ | _ | _ | c | c | c | _ | _ | _))
  case reg.nv.conf | reg.stat | opaq.ctrl | opaq.tx | opaq.rx => exact hc c _ (by simp [channelGroup])
  all_goals decide

/-- The offsets of the map, in its order. -/
def mapOffsets : List Nat := registerMap.map MapEntry.offset

theorem mapOffsets_nodup : mapOffsets.Nodup := by decide

theorem offset_mem_mapOffsets (m : MapEntry) : m.offset ∈ mapOffsets := List.mem_map_of_mem (mem_registerMap m)

theorem MapEntry.offset_injective : Function.Injective MapEntry.offset := fun a b h =>
  List.inj_on_of_nodup_map mapOffsets_nodup (mem_registerMap a) (mem_registerMap b) h

theorem offset_of_mapAt {off : Nat} {m : MapEntry} (h : mapAt off = some m) : m.offset = off := by
  simpa using List.find?_some h

theorem mapAt_none_iff (off : Nat) : mapAt off = none ↔ off ∉ mapOffsets := by
  simp [mapAt, mapOffsets, List.find?_eq_none]

@[simp] theorem mapAt_offset (m : MapEntry) : mapAt m.offset = some m := by
  cases h : mapAt m.offset with
  | none => exact absurd (offset_mem_mapOffsets m) ((mapAt_none_iff _).mp h)
  | some e => rw [MapEntry.offset_injective (offset_of_mapAt h)]

theorem mapOffsets_aligned : ∀ off ∈ mapOffsets, off % 4 = 0 ∧ off < 0x200 := by decide

/-- Settles O13: the listed offsets are checked one by one; the rest is that `mapAt` inverts `MapEntry.offset`. -/
theorem registerMapIsTheTable : Obligations.RegisterMapIsTheTable := by
  refine ⟨fun p hp => ?_, mapAt_offset, fun off m h => ?_, mapAt_none_iff⟩
  · have listed : p.2.offset = p.1 := by
      revert p
      decide
    exact ⟨listed ▸ mapAt_offset p.2, listed⟩
  · have ho := offset_of_mapAt h
    exact ⟨ho, mapOffsets_aligned off (ho ▸ offset_mem_mapOffsets m)⟩

end Sys2Proof.Machine
end

section
/-! SUPPORT. Every completed command answers once, and only INIT and TERM move the lifecycle state (10_state.md R36). -/

namespace Sys2Proof.Machine

/-- A command other than INIT begins outside the reset sequence. -/
theorem Starts.not_isLife {s : State} {i : Instr} {p : Phase} (h : Starts s i p) (hi : i ≠ .init) :
    Phase.isLife p = false := by
  cases h with
  | init => exact absurd rfl hi
  | _ => rfl

theorem runFrom_completes {s : State} {i : Instr} {p : Phase} (h : Starts s i p) :
    (runFrom p s).busy = false ∧ (runFrom p s).phase = .idle ∧ ∃ r, (runFrom p s).responses = s.responses ++ [r] := by
  obtain ⟨hp, hleft⟩ := h.bounded
  obtain ⟨hb, hph, hr, -⟩ := runCommand_completes (s := s.setPhase p) hp (hleft _ rfl)
  exact ⟨hb, hph, hr⟩

theorem runCommand_startReset_completes (s : State) :
    ∃ r, (runCommand (startReset .term s)).responses = s.responses ++ [r] := by
  rcases (term_concluded s).2 with ⟨-, hr, -⟩ | ⟨-, hr⟩
  · exact ⟨_, hr⟩
  · exact ⟨_, hr⟩

/-- Every command that answers gives one response, and the lock is free again. -/
theorem exec_completes {i : Instr} {s t : State} (h : exec i s = .next t) :
    t.busy = false ∧ t.phase = .idle ∧ ∃ r, t.responses = s.responses ++ [r] := by
  cases answers_of_exec h with
  | error e info he => exact ⟨rfl, rfl, _, rfl⟩
  | getCh hi => exact ⟨rfl, rfl, _, rfl⟩
  | setCh c hi => exact ⟨rfl, rfl, _, rfl⟩
  | run hp => exact runFrom_completes hp
  | term hi => exact ⟨(term_completes s).1, (term_completes s).2, runCommand_startReset_completes s⟩

theorem exec_keepsLife {i : Instr} {s t : State} (h : exec i s = .next t) (hi : i ≠ .init) (ht : i ≠ .term) :
    t.life = s.life ∧ t.seq = s.seq := by
  cases answers_of_exec h with
  | error e info he => exact ⟨rfl, rfl⟩
  | getCh hi => exact ⟨rfl, rfl⟩
  | setCh c hi => exact ⟨rfl, rfl⟩
  | run hp =>
    have hk := runFrom_keepsLife (s := s) (hp.not_isLife hi)
    exact ⟨hk.life, hk.seq⟩
  | term hi => exact absurd hi ht

theorem exec_init_terminated {s : State} (h : s.life = .terminated) :
    exec .init s = .next (raise .deviceNotReady none s) := by
  simp [exec, execInit, h]

theorem exec_init_begins {s : State} (h : s.life ≠ .terminated) : exec .init s = .next (runFrom .revRead s) := by
  simp [exec, execInit, h]

theorem exec_term (s : State) : exec .term s = .next (runCommand (startReset .term s)) := rfl

/-- Settles O44: INIT and TERM end as `Concluded` says, every other command keeps the lifecycle state. -/
theorem lifecycleTransitionsFollowTheTable : Obligations.LifecycleTransitionsFollowTheTable := by
  intro i s t h
  obtain ⟨-, -, r, hr⟩ := exec_completes h
  have status_eq {q : Response} (hq : t.responses = s.responses ++ [q]) : r.status = q.status := by
    obtain rfl : r = q := by simpa using hr.symm.trans hq
    rfl
  refine ⟨r, hr, ?_⟩
  split
  · by_cases hl : s.life = .terminated
    · rw [exec_init_terminated hl] at h
      cases h
      exact .inl ⟨hl, hl, status_eq rfl⟩
    · rw [exec_init_begins hl] at h
      cases h
      obtain ⟨-, -, ⟨hlife, hq, -⟩ | ⟨hlife, hq⟩⟩ := init_concluded s
      · exact .inr ⟨hl, .inl ⟨hlife, status_eq hq⟩⟩
      · exact .inr ⟨hl, .inr ⟨hlife, status_eq hq⟩⟩
  · rw [exec_term] at h
    cases h
    obtain ⟨-, ⟨hlife, hq, -⟩ | ⟨hlife, hq⟩⟩ := term_concluded s
    · exact ⟨hlife, .inl (status_eq hq)⟩
    · exact ⟨hlife, .inr (status_eq hq)⟩
  · next hi ht => exact (exec_keepsLife h hi ht).1

end Sys2Proof.Machine
end

section
/-! SUPPORT. The invariant: the commands of a Ready state keep "no reset pending" and FIFO exclusivity, and the reset sequence
restores both (10_state.md R42; 44_lifecycle_reset.md R170). -/

namespace Sys2Proof.Machine

/-! ### FIFO exclusivity of a state -/

theorem fifoExclusive_iff (s : State) : s.FifoExclusive ↔ ∀ c d : Chan,
    s.params.table.ffe.field (s.bank.word (.conf c)) ≠ 0 → s.params.table.ffe.field (s.bank.word (.conf d)) ≠ 0 → c = d :=
  FieldTable.exclusive_iff _ _

/-- Exclusivity is kept where every channel enabled after was enabled before. -/
theorem fifoExclusive_of_enabled_imp {s t : State} (h : s.FifoExclusive) (hp : t.params = s.params)
    (he : ∀ c, s.params.table.ffe.field (t.bank.word (.conf c)) ≠ 0 →
      s.params.table.ffe.field (s.bank.word (.conf c)) ≠ 0) : t.FifoExclusive := by
  rw [fifoExclusive_iff, hp]
  exact fun c d hc hd => (fifoExclusive_iff s).mp h c d (he c hc) (he d hd)

theorem fifoExclusive_of_bank {s t : State} (h : s.FifoExclusive) (hp : t.params = s.params) (hb : t.bank = s.bank) :
    t.FifoExclusive := by
  unfold State.FifoExclusive
  rw [hp, hb]
  exact h

/-! ### Completing with the invariant -/

theorem admitted_of_params {s t : State} (h : s.Admitted) (hp : t.params = s.params) : t.Admitted := by
  unfold State.Admitted
  rw [hp]
  exact h

/-- A command that leaves `life`, `seq` and `pend` keeps the invariant if it keeps FIFO exclusivity in Ready. -/
theorem inv_completed {s t : State} (h : s.Inv) (hb : t.busy = false) (hph : t.phase = .idle) (hs : t.seq = s.seq)
    (hp : t.params = s.params) (hl : t.life = s.life) (hpd : t.pend = s.pend)
    (he : s.life = .ready → s.FifoExclusive → t.FifoExclusive) : t.Inv := by
  obtain ⟨⟨-, -, hseq⟩, hadm, hready⟩ := h
  refine ⟨⟨hb, hph, hs.trans hseq⟩, admitted_of_params hadm hp, fun hr => ?_⟩
  have hr : s.life = .ready := hl.symm.trans hr
  obtain ⟨hno, hexcl⟩ := hready hr
  exact ⟨hpd.trans hno, he hr hexcl⟩

/-- The same for a command that leaves the bank. -/
theorem inv_completed_of_bank {s t : State} (h : s.Inv) (hb : t.busy = false) (hph : t.phase = .idle)
    (hs : t.seq = s.seq) (hp : t.params = s.params) (hl : t.life = s.life) (hpd : t.pend = s.pend)
    (hbk : t.bank = s.bank) : t.Inv :=
  inv_completed h hb hph hs hp hl hpd fun _ he => fifoExclusive_of_bank he hp hbk

theorem inv_raise {s : State} (h : s.Inv) (e : Status) (info : Option Word) : (raise e info s).Inv :=
  inv_completed_of_bank h rfl rfl rfl rfl rfl rfl rfl

theorem inv_accept {s x : State} {c : Cmd} (h : s.Inv) (ha : accept s = some (c, x)) : x.Inv := by
  rw [accept_frame ha]
  exact h

theorem inv_environment {s : State} (h : s.Inv) : (environment s).Inv := by
  obtain ⟨⟨hb, hph, hseq⟩, hadm, hready⟩ := h
  refine ⟨⟨by simpa using hb, by simpa using hph, by simpa using hseq⟩, admitted_of_params hadm (by simp), fun hr => ?_⟩
  obtain ⟨hno, hexcl⟩ := hready (by simpa using hr)
  rw [environment_noPend hno]
  exact ⟨hno, hexcl⟩

/-! ### The sets -/

theorem setCommand_ne_ffe {f : FieldId} {u : Word} {ch : Option Word} {i : Instr} (h : setCommand f u ch = some i) :
    f ≠ .ffe := by
  rintro rfl
  cases h

/-- A set leaves the FFE field of every channel (40_engine.md R101 condition 5, R109). -/
theorem afterSet_ffe_field {s : State} (ht : s.params.table.wellFormed = true) {f : FieldId} (hf : f ≠ .ffe)
    {u : Word} (hu : u ∈ (s.params.table.get f).dom) (b c : Chan) :
    s.params.table.ffe.field ((afterSet f c u s).bank.word (.conf b)) =
      s.params.table.ffe.field (s.bank.word (.conf b)) := by
  simp only [afterSet, word_put]
  split
  · next hb =>
    have hrow := FieldTable.row_wellFormed ht f
    have hscope : (s.params.table.get f).scope = .perChannel := by
      cases hs : (s.params.table.get f).scope with
      | global => rw [target_global hs] at hb; cases hb
      | perChannel => rfl
    have hffe : (s.params.table.get .ffe).scope = .perChannel :=
      FieldTable.scope_of_scoped (FieldTable.scoped_of_wellFormed ht) .ffe
    have hmask := FieldTable.mask_disjoint ht hf.symm (hffe.trans hscope.symm)
    obtain ⟨-, hfits⟩ := Descriptor.fits_of_wellFormed (FieldTable.row_wellFormed ht .ffe)
    rw [← hb]
    exact Descriptor.field_rmwWord _ hmask (Descriptor.bits_within (Descriptor.enc_lt hrow hu)) hfits
  · rfl

theorem inv_set {s : State} (h : s.Inv) (hl : s.life = .ready) {f : FieldId} (hf : f ≠ .ffe) {u : Word}
    (hu : u ∈ (s.params.table.get f).dom) (c : Chan) :
    (runFrom (fieldWrite (s.params.table.get f) c u .done) s).Inv := by
  have ⟨_, hadm, hready⟩ := h
  rw [fieldWrite, runFrom_rmw (hready hl).1 (target_ne_sysconfig _ _)]
  refine inv_completed (t := afterSet f c u s) h rfl rfl rfl rfl rfl rfl fun _ hexcl => ?_
  refine fifoExclusive_of_enabled_imp hexcl rfl fun b hb => ?_
  rwa [afterSet_ffe_field (Params.table_wellFormed hadm) hf hu] at hb

/-! ### The FIFO operations -/

theorem ffe_perChannel {s : State} (h : s.Admitted) : s.params.table.ffe.scope = .perChannel :=
  FieldTable.scope_of_scoped (FieldTable.scoped_of_wellFormed (Params.table_wellFormed h)) .ffe

/-- A channel whose FFE field is non-zero is among those the scan finds (43_fifo.md R150). -/
theorem mem_enabledOf {s : State} (h : s.Admitted) {c : Chan}
    (hc : s.params.table.ffe.field (s.bank.word (.conf c)) ≠ 0) : c ∈ enabledOf s allChans := by
  rw [Ne, FieldTable.ffe_field_zero (Params.table_wellFormed h), not_not] at hc
  have hall : ∀ c : Chan, c ∈ allChans := by decide
  exact List.mem_filter.mpr ⟨hall c, by simpa using hc⟩

/-- SETFIFO n: FifoConflict after reads only, or channel n is the only one enabled (43_fifo.md R151). -/
theorem inv_setFifo {s : State} (h : s.Inv) (hl : s.life = .ready) (n : Chan) :
    (runFrom (.fifoScan (some n) 0 []) s).Inv := by
  have ⟨_, hadm, hready⟩ := h
  have hno := (hready hl).1
  cases hc : (enabledOf s allChans).find? (· != n) with
  | some c =>
    rw [runFrom_setFifo_conflict hno (ffe_perChannel hadm) hc]
    exact inv_completed_of_bank h rfl rfl rfl rfl rfl rfl rfl
  | none =>
    rw [runFrom_setFifo_enable hno (ffe_perChannel hadm) hc]
    refine inv_completed h rfl rfl rfl rfl rfl rfl fun _ _ => (fifoExclusive_iff _).mpr ?_
    have only (c : Chan) (hon : s.params.table.ffe.field
        ((s.bank.put (.conf n) (s.params.table.ffe.insert (s.bank.word (.conf n)) 1)).word (.conf c)) ≠ 0) : c = n := by
      by_contra hne
      rw [word_put_ne _ _ (by simpa using hne)] at hon
      have := List.find?_eq_none.mp hc c (mem_enabledOf hadm hon)
      simp [hne] at this
    exact fun c d hc hd => (only c hc).trans (only d hd).symm

theorem clearConf_word (c : Chan) (r : NvReg) (s : State) : (clearConf c s).bank.word r =
    if r = .conf c then s.params.table.ffe.insert (s.bank.word (.conf c)) 0 else s.bank.word r :=
  word_put _ _ _ _

/-- The FFE field of an RMW of the disable loop is zero (43_fifo.md R150, R151). -/
theorem ffe_field_insert_zero {s : State} (h : s.Admitted) (v : Word) :
    s.params.table.ffe.field (s.params.table.ffe.insert v 0) = 0 := by
  have ht := Params.table_wellFormed h
  have hx : s.params.table.ffe.extract (s.params.table.ffe.insert v 0) = 0 :=
    Descriptor.extract_insert (FieldTable.row_wellFormed ht .ffe)
      (show (0 : Word) ∈ s.params.table.ffe.dom by simp [FieldTable.ffe_dom ht]) v
  rw [FieldTable.ffe_field_zero ht, hx]
  decide

/-- One RMW of the disable loop enables no channel. -/
theorem clearConf_enabled_imp {s : State} (h : s.Admitted) (b c : Chan)
    (hc : s.params.table.ffe.field ((clearConf b s).bank.word (.conf c)) ≠ 0) :
    s.params.table.ffe.field (s.bank.word (.conf c)) ≠ 0 := by
  rw [clearConf_word] at hc
  split at hc
  · exact absurd (ffe_field_insert_zero h _) hc
  · exact hc

theorem clearConf_fifoExclusive {s : State} (h : s.Admitted) (c : Chan) (he : s.FifoExclusive) :
    (clearConf c s).FifoExclusive :=
  fifoExclusive_of_enabled_imp he rfl (clearConf_enabled_imp h c)

theorem inv_clearFifo {s : State} (h : s.Inv) (hl : s.life = .ready) :
    (runFrom (fieldWrite s.params.table.ffe 0 0 (.disable 0)) s).Inv := by
  have ⟨_, hadm, hready⟩ := h
  change (runCommand (disableFifo 0 s)).Inv
  rw [runCommand_disableFifo (hready hl).1 (ffe_perChannel hadm)]
  refine inv_completed h rfl rfl rfl rfl rfl rfl fun _ he => ?_
  have h0 := clearConf_fifoExclusive hadm 0 he
  have h1 := clearConf_fifoExclusive (s := clearConf 0 s) hadm 1 h0
  have h2 := clearConf_fifoExclusive (s := clearConf 1 (clearConf 0 s)) hadm 2 h1
  exact clearConf_fifoExclusive (s := clearConf 2 (clearConf 1 (clearConf 0 s))) hadm 3 h2

/-! ### The lifecycle commands -/

theorem inv_init {s : State} (h : s.Inv) : (runFrom .revRead s).Inv := by
  obtain ⟨-, hadm, -⟩ := h
  obtain ⟨hb, hph⟩ := init_completes s
  obtain ⟨hseq, -, hend⟩ := init_concluded s
  refine ⟨⟨hb, hph, hseq⟩, admitted_of_params hadm (by simp), fun hr => ?_⟩
  rcases hend with ⟨-, -, hdone⟩ | ⟨hlife, -⟩
  · obtain ⟨h1, h2⟩ := Params.bits_lt hadm
    obtain ⟨hno, hbank⟩ := hdone h1 h2
    refine ⟨hno, ?_⟩
    rw [State.FifoExclusive, runFrom_params, hbank]
    exact Params.reset_exclusive hadm
  · rw [hlife] at hr
    cases hr

theorem inv_term {s : State} (h : s.Inv) : (runCommand (startReset .term s)).Inv := by
  obtain ⟨-, hadm, -⟩ := h
  obtain ⟨hb, hph⟩ := term_completes s
  obtain ⟨hseq, hend⟩ := term_concluded s
  have hlife : (runCommand (startReset .term s)).life = .terminated := hend.elim And.left And.left
  exact ⟨⟨hb, hph, hseq⟩, admitted_of_params hadm (by simp), fun hr => nomatch hlife.symm.trans hr⟩

/-! ### Every command and every step -/

theorem inv_runFrom {s : State} (h : s.Inv) {i : Instr} {p : Phase} (hp : Starts s i p) : (runFrom p s).Inv := by
  have ⟨_, hadm, hready⟩ := h
  cases hp with
  | set c hl hi hu => exact inv_set h hl (setCommand_ne_ffe hi) hu c
  | get c hl hi =>
    rw [fieldRead, runFrom_fieldRead (hready hl).1]
    exact inv_completed_of_bank h rfl rfl rfl rfl rfl rfl rfl
  | setFifo n hl => exact inv_setFifo h hl n
  | clearFifo hl => exact inv_clearFifo h hl
  | getFifo hl =>
    rw [runFrom_getFifo (hready hl).1 (ffe_perChannel hadm)]
    exact inv_completed_of_bank h rfl rfl rfl rfl rfl rfl rfl
  | devStat r hl | chStat c hl =>
    rw [runFrom_wordRead (hready hl).1]
    exact inv_completed_of_bank h rfl rfl rfl rfl rfl rfl rfl
  | init hl => exact inv_init h

theorem inv_exec {s t : State} {i : Instr} (h : s.Inv) (he : exec i s = .next t) : t.Inv := by
  cases answers_of_exec he with
  | error e info _ => exact inv_raise h e info
  | getCh _ | setCh c _ => exact inv_completed_of_bank h rfl rfl rfl rfl rfl rfl rfl
  | run hp => exact inv_runFrom h hp
  | term _ => exact inv_term h

/-- Settles O58, by the kinds of step; each command is covered by its closed form (`inv_runFrom`). -/
theorem everyStepKeepsTheInvariant : Obligations.EveryStepKeepsTheInvariant := by
  intro s t h hstep
  cases steps_of_step hstep with
  | access hb =>
    obtain ⟨⟨hquiet, -⟩, -⟩ := h
    exact absurd (hb.symm.trans hquiet) (by decide)
  | environment hb ha => exact inv_environment h
  | reserved hb ha hd => exact inv_raise (inv_accept h ha) _ _
  | command hb ha hd he => exact inv_exec (inv_accept h ha) he

/-! ### Power-on -/

theorem inv_powerOn {p : Params} (h : p.wellFormed = true) (word : Nat → Word) : (State.powerOn p word).Inv :=
  ⟨⟨rfl, rfl, rfl⟩, h, nofun⟩

theorem default_wellFormed : Params.default.wellFormed = true := by decide

/-- Settles O57: the power-on state is quiet and not Ready, and the default parameters are admitted. -/
theorem invariantHoldsAtPowerOn : Obligations.InvariantHoldsAtPowerOn :=
  ⟨fun _ word h => inv_powerOn h word, inv_powerOn default_wellFormed _⟩

/-- Settles O56: the fields are those of `State.powerOn`, and a read of REVISION returns the parameter. -/
theorem powerOnState : Obligations.PowerOnState := by
  intro p word
  exact ⟨rfl, rfl, rfl, rfl, rfl, rfl, rfl, rfl, readWord_revision _, rfl, rfl⟩

end Sys2Proof.Machine
end

section
/-! SUPPORT. The bus trace of a command: only registers the block reads are read, and every write is the second half of an RMW
(10_state.md R31). -/

namespace Sys2Proof.Machine

/-! ### Traces made of reads and RMWs -/

/-- Reads are of registers the block reads; each write is of a non-volatile register, right after a read of its offset. -/
structure RmwTrace (es : List Event) : Prop where
  reads : ∀ off v, Event.read off v ∈ es → ∃ r : Reg, off = r.offset
  writes : ∀ pre off w post, es = pre ++ .write off w :: post →
    (∃ r : NvReg, off = r.offset) ∧ ∃ pre' v, pre = pre' ++ [.read off v]

theorem rmwTrace_nil : RmwTrace [] := ⟨by simp, by simp⟩

/-- Where an element of a list with one more at its end stands: at the end, or before it. -/
theorem concat_eq_append_cons {α : Type} {es pre post : List α} {e x : α} (h : es ++ [e] = pre ++ x :: post) :
    pre = es ∧ x = e ∨ ∃ post', es = pre ++ x :: post' := by
  rcases List.eq_nil_or_concat' post with rfl | ⟨post', y, rfl⟩
  · obtain ⟨hpre, hx⟩ := List.append_inj' h rfl
    exact .inl ⟨hpre.symm, by simpa using hx.symm⟩
  · rw [← List.cons_append, ← List.append_assoc] at h
    exact .inr ⟨post', (List.append_inj' h rfl).1⟩

theorem RmwTrace.concat {es : List Event} (h : RmwTrace es) {e : Event}
    (hread : ∀ off v, e = .read off v → ∃ r : Reg, off = r.offset)
    (hwrite : ∀ off w, e = .write off w → (∃ r : NvReg, off = r.offset) ∧ ∃ pre v, es = pre ++ [.read off v]) :
    RmwTrace (es ++ [e]) := by
  refine ⟨fun off v hm => ?_, fun pre off w post heq => ?_⟩
  · rcases List.mem_append.mp hm with hm | hm
    · exact h.reads off v hm
    · exact hread off v (List.mem_singleton.mp hm).symm
  · rcases concat_eq_append_cons heq with ⟨rfl, hx⟩ | ⟨post', hx⟩
    · exact hwrite off w hx.symm
    · exact h.writes pre off w post' hx

theorem RmwTrace.concat_read {es : List Event} (h : RmwTrace es) (r : Reg) (v : Word) :
    RmwTrace (es ++ [.read r.offset v]) :=
  h.concat (fun _ _ he => ⟨r, by cases he; rfl⟩) nofun

theorem RmwTrace.concat_write {es : List Event} (h : RmwTrace es) (r : NvReg) {v w : Word} {pre : List Event}
    (hlast : es = pre ++ [.read r.offset v]) : RmwTrace (es ++ [.write r.offset w]) :=
  h.concat nofun fun _ _ he => by cases he; exact ⟨⟨r, rfl⟩, pre, v, hlast⟩

theorem RmwTrace.append_diag {es diag : List Event} (h : RmwTrace es) (hd : ∀ d ∈ diag, d.isBus = false) :
    RmwTrace (es ++ diag) := by
  induction diag generalizing es with
  | nil => simpa using h
  | cons d diag ih =>
    have hfirst : d.isBus = false := hd d (by simp)
    have hone : RmwTrace (es ++ [d]) :=
      h.concat (fun _ _ he => by subst he; cases hfirst) (fun _ _ he => by subst he; cases hfirst)
    simpa using ih hone fun e he => hd e (by simp [he])

/-! ### Only the read of an RMW is followed by a write -/

/-- The next access is the write of an RMW. -/
def Phase.isWrite : Phase → Bool
  | .rmwWrite _ _ _ _ _ => true
  | .idle | .rmwRead _ _ _ _ | .fieldRead _ _ | .fifoScan _ _ _ | .revRead | .poll _ | .wordRead _ => false

theorem conclude_phase (l : LifeCmd) (s : State) : (conclude l s).phase = .idle := by
  unfold conclude; split <;> rfl

theorem pollOrFail_not_isWrite (l : LifeCmd) (s : State) : (pollOrFail l s).phase.isWrite = false := by
  unfold pollOrFail
  split
  · rfl
  · rw [conclude_phase]; rfl

theorem afterPoll_not_isWrite (l : LifeCmd) (v : Word) (s : State) : (afterPoll l v s).phase.isWrite = false := by
  simp only [afterPoll]
  split
  · rw [conclude_phase]; rfl
  · exact pollOrFail_not_isWrite _ _

theorem afterDisable_not_isWrite (c : Chan) (s : State) : (afterDisable c s).phase.isWrite = false := by
  unfold afterDisable; split <;> rfl

theorem afterWrite_not_isWrite (k : After) (s : State) : (afterWrite k s).phase.isWrite = false := by
  cases k with
  | done => rfl
  | disable c => exact afterDisable_not_isWrite c s
  | polling l => exact pollOrFail_not_isWrite l s

theorem decideFifo_not_isWrite (t : Option Chan) (on : List Chan) (s : State) :
    (decideFifo t on s).phase.isWrite = false := by
  unfold decideFifo enableFifo reportFifo
  split <;> split <;> rfl

theorem afterScan_not_isWrite (t : Option Chan) (c : Chan) (v : Word) (on : List Chan) (s : State) :
    (afterScan t c v on s).phase.isWrite = false := by
  unfold afterScan
  split
  · exact decideFifo_not_isWrite _ _ _
  · rfl

theorem Starts.not_isWrite {s : State} {i : Instr} {p : Phase} (h : Starts s i p) : p.isWrite = false := by
  cases h <;> rfl

/-! ### The trace of a command under way -/

/-- The events of the command accepted in `s`, which is in the state `x`; before the write of an RMW the last of them is the
RMW's read. -/
def Traced (s x : State) : Prop :=
  ∃ es, x.log = s.log ++ es ∧ RmwTrace es ∧
    ∀ r mask bits old k, x.phase = .rmwWrite r mask bits old k → ∃ pre v, es = pre ++ [.read r.offset v]

theorem traced_of_not_isWrite {s x : State} {es : List Event} (hlog : x.log = s.log ++ es) (hes : RmwTrace es)
    (hp : x.phase.isWrite = false) : Traced s x :=
  ⟨es, hlog, hes, fun r mask bits old k hw => by rw [hw] at hp; cases hp⟩

/-- A command that goes on from a bus access with no further one, and not to a write, extends the trace by diagnostics. -/
theorem Reaches.traced {s y t : State} {n : Nat} {es : List Event} (h : Reaches y t n) (hlog : y.log = s.log ++ es)
    (hes : RmwTrace es) (hp : t.phase.isWrite = false) : Traced s t := by
  obtain ⟨diag, hd, hbus⟩ := h.log
  exact traced_of_not_isWrite (es := es ++ diag) (by rw [hd, hlog, List.append_assoc]) (hes.append_diag hbus) hp

/-- A read, and what follows it. -/
theorem Traced.after_read {s x t : State} {n : Nat} (h : Traced s x) (r : Reg) (ht : Reaches (memRead r x).2 t n)
    (hp : t.phase.isWrite = false) : Traced s t := by
  obtain ⟨es, hlog, hes, -⟩ := h
  exact ht.traced (by rw [memRead_log, hlog, List.append_assoc]) (hes.concat_read r (readWord r x)) hp

theorem access_traced {s x : State} (h : Traced s x) (hb : x.busy = true) : Traced s (access x) := by
  have hread (r : Reg) : (memRead r x).2.busy = true := by simpa using hb
  unfold access
  split
  · next hp =>
    obtain ⟨es, hlog, hes, -⟩ := h
    exact traced_of_not_isWrite hlog hes (by simp only [hp]; rfl)
  · next r mask bits k hp =>
    obtain ⟨es, hlog, hes, -⟩ := h
    refine ⟨es ++ [.read r.offset (readWord (.nv r) x)], by simp [hlog, Reg.offset],
      hes.concat_read (.nv r) _, fun q _ _ _ _ hq => ?_⟩
    cases hq
    exact ⟨es, _, rfl⟩
  · next r mask bits old k hp =>
    obtain ⟨es, hlog, hes, hlast⟩ := h
    obtain ⟨pre, v, hpre⟩ := hlast r mask bits old k hp
    exact (afterWrite_reaches k (by simpa using hb)).traced (by rw [memWrite_log, hlog, List.append_assoc])
      (hes.concat_write r hpre) (afterWrite_not_isWrite _ _)
  · next f r hp => exact h.after_read (.nv r) (respond_reaches _ _ 0) rfl
  · next t c on hp =>
    exact h.after_read _ (afterScan_reaches t c _ on (hread _)) (afterScan_not_isWrite _ _ _ _ _)
  · next hp => exact h.after_read _ (afterRevision_reaches _ (hread _)) rfl
  · next l hp => exact h.after_read _ (afterPoll_reaches l _ (hread _)) (afterPoll_not_isWrite _ _ _)
  · next r hp => exact h.after_read r (respond_reaches _ _ 0) rfl

theorem traced_start {s x : State} (hlog : x.log = s.log) (hp : x.phase.isWrite = false) : Traced s x :=
  traced_of_not_isWrite (es := []) (by simp [hlog]) rmwTrace_nil hp

theorem runCommand_traced {s x : State} (hlog : x.log = s.log) (hp : x.phase.isWrite = false) :
    Traced s (runCommand x) :=
  runCommand_keeps (P := Traced s) (fun _ hb hy => access_traced hy hb) (traced_start hlog hp)

theorem exec_traced {i : Instr} {s t : State} (h : exec i s = .next t) : Traced s t := by
  cases answers_of_exec h with
  | error e info he => exact traced_start rfl rfl
  | getCh hi | setCh c hi => exact traced_start rfl rfl
  | run hp => exact runCommand_traced rfl hp.not_isWrite
  | term hi => exact runCommand_traced rfl rfl

/-- Settles O52: every access keeps `Traced`, so the events of a whole command are reads and RMWs. -/
theorem everyWriteIsTheSecondHalfOfAnRmw : Obligations.EveryWriteIsTheSecondHalfOfAnRmw := by
  intro i s t h
  obtain ⟨es, hlog, hes, -⟩ := exec_traced h
  exact ⟨es, hlog, hes.reads, hes.writes⟩

end Sys2Proof.Machine
end

section
/-! SUPPORT. Addressing and single bus accesses: the channel offset, the register a descriptor reaches, what `memRead` and
`memWrite` do by the register's class, and the bus's own check of GETDEVSTAT (20_memory.md R52-R58). -/

namespace Sys2Proof.Machine

/-! ### Addressing -/

/-- The channel offset grows with the channel and with the offset in its group. -/
theorem channelOffset_le {c b rel m : Nat} (hc : c ≤ b) (hr : rel ≤ m) : channelOffset c rel ≤ channelOffset b m := by
  have hstride := Nat.mul_le_mul_right channelStride hc
  unfold channelOffset
  omega

/-- Settles O11: the offset is monotonic, so the range follows from its greatest value, rx of channel 3. -/
theorem channelOffsetFormula : Obligations.ChannelOffsetFormula := by
  refine ⟨fun c rel => rfl, fun c hc rel hr => ?_, rfl⟩
  have hle : channelOffset c rel ≤ channelOffset 3 relRx := channelOffset_le hc hr
  have hlast : channelOffset 3 relRx = 0x178 := rfl
  have hnext : offXferLevel = 0x17c := rfl
  omega

theorem addr_global {d : Descriptor} (h : d.scope = .global) (c : Nat) : d.addr c = d.reg := by
  simp [Descriptor.addr, h]

theorem addr_perChannel {d : Descriptor} (h : d.scope = .perChannel) (c : Nat) : d.addr c = channelOffset c d.reg := by
  simp [Descriptor.addr, h]

/-- Settles O12: `addr` by scope, and `target` stands at it. -/
theorem descriptorAddressResolution : Obligations.DescriptorAddressResolution :=
  fun d c => ⟨fun h => addr_global h c.toNat, fun h => addr_perChannel h c.toNat, target_offset d c⟩

/-! ### One access -/

/-- The ready bit of a SYSSTATUS word in R32's words (10_state.md R32). -/
theorem statusWord_eq_shift (p : Params) (pend : Bool) (draw : Word) :
    statusWord p pend draw =
      (draw &&& ~~~(1#32 <<< p.resetdoneBit)) ||| ((if pend then 0#32 else 1#32) <<< p.resetdoneBit) := by
  cases pend <;> simp [statusWord, bitWord_def]

/-- A read changes nothing but the log, after the environment's choice. -/
theorem memRead_state (r : Reg) (s : State) :
    (memRead r s).2 = { environment s with log := s.log ++ [.read r.offset (memRead r s).1] } := by
  simp [State.emit]

/-- A write changes nothing but the bank, `pend` and the log, after the environment's choice. -/
theorem memWrite_state (r : NvReg) (v : Word) (s : State) :
    memWrite r v s = { environment s with
      bank := (memWrite r v s).bank
      pend := (memWrite r v s).pend
      log := s.log ++ [.write r.offset v] } := by
  simp [memWrite, State.emit, store]

/-- Settles O10: the state of each access, the offset on the map, then the word of each register class and, for a write, the
bank and `pend`. -/
theorem busAccessesFollowTheRegisterClasses : Obligations.BusAccessesFollowTheRegisterClasses := by
  refine ⟨fun r s => ⟨memRead_state r s, ⟨.reg r, mapAt_offset (.reg r)⟩, ?_⟩,
    fun r v s => ⟨memWrite_state r v s, ⟨.reg (.nv r), mapAt_offset (.reg (.nv r))⟩, fun q => ?_, ?_⟩⟩
  · cases r with
    | revision => exact readWord_revision s
    | nv q => rfl
    | sysstatus => exact (readWord_sysstatus s).trans (statusWord_eq_shift _ _ _)
    | stat c => exact readWord_stat s c
  · rw [memWrite_bank, word_put]
  · simp [startsReset]

/-! ### GETDEVSTAT -/

theorem exec_getDevStat_notMapped {s : State} (hl : s.life = .ready) (h : mapAt s.params.deviceStatusOff = none) :
    exec .getDevStat s = .refused (.offsetNotInMap s.params.deviceStatusOff) := by
  simp only [exec, execGetDevStat, whenReady_ready hl, h]

theorem exec_getDevStat_opaque {s : State} (hl : s.life = .ready) {q : OpaqueReg}
    (h : mapAt s.params.deviceStatusOff = some (.opaq q)) :
    exec .getDevStat s = .refused (.opaqueRegister s.params.deviceStatusOff) := by
  simp only [exec, execGetDevStat, whenReady_ready hl, h]

/-- Settles O47: in Ready the command is the lookup of its offset parameter, and neither lookup gives a register to read. -/
theorem deviceStatusOffTheMapIsRefused : Obligations.DeviceStatusOffTheMapIsRefused :=
  fun _ hl => ⟨exec_getDevStat_notMapped hl, fun _ => exec_getDevStat_opaque hl⟩

end Sys2Proof.Machine
end

section
/-! SUPPORT. What a set does to its own field and to the others, and that two sets of different fields commute
(40_engine.md R109, R110; 20_memory.md R64). -/

namespace Sys2Proof.Machine

/-! ### Which descriptors reach one register -/

theorem scope_eq_of_target_eq {d e : Descriptor} {b c : Chan} (h : target d b = target e c) : d.scope = e.scope := by
  unfold target at h
  cases hd : d.scope <;> cases he : e.scope <;> simp_all

theorem target_eq_of_scope_eq {d e : Descriptor} (h : d.scope = e.scope) (c : Chan) : target d c = target e c := by
  simp [target, h]

/-! ### The bank after a set -/

theorem afterSet_bank (f : FieldId) (c : Chan) (u : Word) (s : State) :
    (afterSet f c u s).bank = s.bank.put (target (s.params.table.get f) c)
      ((s.params.table.get f).insert (s.bank.word (target (s.params.table.get f) c)) u) := rfl

@[simp] theorem afterSet_params (f : FieldId) (c : Chan) (u : Word) (s : State) :
    (afterSet f c u s).params = s.params := rfl

section
variable {s : State} (ht : s.params.table.wellFormed = true) {f g : FieldId} {u v : Word}
include ht

/-- A set field holds its value (40_engine.md R110). -/
theorem afterSet_extract_self (hu : u ∈ (s.params.table.get f).dom) (c : Chan) :
    (s.params.table.get f).extract ((afterSet f c u s).bank.word (target (s.params.table.get f) c)) = u := by
  rw [afterSet_bank, word_put_self]
  exact Descriptor.extract_insert (FieldTable.row_wellFormed ht f) hu _

/-- A set keeps every other field, on every channel (40_engine.md R109). -/
theorem afterSet_extract_other (hfg : f ≠ g) (hu : u ∈ (s.params.table.get f).dom) (c b : Chan) :
    (s.params.table.get g).extract ((afterSet f c u s).bank.word (target (s.params.table.get g) b)) =
      (s.params.table.get g).extract (s.bank.word (target (s.params.table.get g) b)) := by
  rw [afterSet_bank, word_put]
  split
  · next hreg =>
    have hmask := FieldTable.mask_disjoint ht hfg.symm (scope_eq_of_target_eq hreg)
    rw [hreg]
    exact Descriptor.extract_insert_other (FieldTable.row_wellFormed ht g) (FieldTable.row_wellFormed ht f) hu hmask _
  · rfl

/-- Two sets of different fields give one bank in either order: in one register their masks are disjoint, and writes of two
registers commute (20_memory.md R64). -/
theorem afterSet_bank_comm (hfg : f ≠ g) (hu : u ∈ (s.params.table.get f).dom) (hv : v ∈ (s.params.table.get g).dom)
    (c : Chan) : (afterSet g c v (afterSet f c u s)).bank = (afterSet f c u (afterSet g c v s)).bank := by
  simp only [afterSet_bank, afterSet_params]
  by_cases hscope : (s.params.table.get f).scope = (s.params.table.get g).scope
  · have hmask := FieldTable.mask_disjoint ht hfg hscope
    rw [target_eq_of_scope_eq hscope c]
    simp only [word_put_self, put_put_self]
    rw [Descriptor.insert_comm (FieldTable.row_wellFormed ht f) (FieldTable.row_wellFormed ht g) hu hv hmask]
  · have hreg : target (s.params.table.get f) c ≠ target (s.params.table.get g) c :=
      fun h => hscope (scope_eq_of_target_eq h)
    rw [word_put_ne _ _ hreg, word_put_ne _ _ hreg.symm, put_comm _ _ _ hreg]

end

/-! ### Two sets in a row -/

/-- After a set the next one completes too, on the same channel operand. -/
theorem exec_set_set_done {s : State} (ht : s.params.table.scoped = true) (hl : s.life = .ready) (hp : s.pend = false)
    {f g : FieldId} {u v : Word} {ch : Option Word} {c : Chan} {i j : Instr}
    (hi : setCommand f u ch = some i) (hj : setCommand g v ch = some j)
    (hu : u ∈ (s.params.table.get f).dom) (hv : v ∈ (s.params.table.get g).dom)
    (hc : ch = none ∧ c = s.curch ∨ ch = some (c.setWidth 32)) :
    exec i s = .next (afterSet f c u s) ∧
      exec j (afterSet f c u s) = .next (afterSet g c v (afterSet f c u s)) := by
  have hfirst : resolveChannel ch s = some c := resolveChannel_eq hc
  have hsecond : resolveChannel ch (afterSet f c u s) = some c := resolveChannel_eq hc
  exact ⟨exec_set_done ht hl hp hi hu (.inl hfirst),
    exec_set_done (s := afterSet f c u s) ht hl hp hj hv (.inl hsecond)⟩

/-- Settles O23: both orders complete with one bank, the second set's field holds its value, and the first's is kept by the
second set. -/
theorem twoSetsBothTakeEffectInEitherOrder : Obligations.TwoSetsBothTakeEffectInEitherOrder := by
  intro s f g u v ch c i j hadm hl hp hfg hu hv hc hi hj
  have ht := Params.table_wellFormed hadm
  have hscoped := FieldTable.scoped_of_wellFormed ht
  obtain ⟨hi1, hj2⟩ := exec_set_set_done hscoped hl hp hi hj hu hv hc
  obtain ⟨hj1, hi2⟩ := exec_set_set_done hscoped hl hp hj hi hv hu hc
  refine ⟨_, _, _, _, hi1, hj2, hj1, hi2, afterSet_bank_comm ht hfg hu hv c, ?_, ?_⟩
  · have hkept := afterSet_extract_other (s := afterSet f c u s) ht hfg.symm hv c c
    exact hkept.trans (afterSet_extract_self ht hu c)
  · exact afterSet_extract_self (s := afterSet f c u s) ht hv c

end Sys2Proof.Machine
end

section
/-! SUPPORT. The decoder and the encoder, said once: what `decode` does on each kind, which operation codes `decodeOp` names and
the record of the command it gives (30_encoding.md R70-R75, R78). -/

namespace Sys2Proof

/-! ### The decoder on the fields of a record -/

theorem decode_kind_zero {c : Cmd} (h : c.kind = 0) : decode c = decodeOp c.op.toNat c.arg c.explicit := by
  simp [decode, h]

theorem decode_kind_one {c : Cmd} (h : c.kind = 1) : decode c = some .init := by simp [decode, h]

theorem decode_kind_two {c : Cmd} (h : c.kind = 2) : decode c = some .term := by simp [decode, h]

theorem decode_kind_three {c : Cmd} (h : c.kind = 3) : decode c = none := by simp [decode, h]

/-! ### Decoding the records of the encoder -/

theorem explicit_ctrlCh (op : Nat) (arg : Word) (ch : Option Word) : (Cmd.ctrlCh op arg ch).explicit = ch := by
  cases ch <;> rfl

theorem decode_ctrlCh {op : Nat} (h : op < 2 ^ 32) (arg : Word) (ch : Option Word) :
    decode (.ctrlCh op arg ch) = decodeOp op arg ch := by
  have hop : (Cmd.ctrlCh op arg ch).op.toNat = op := (BitVec.toNat_ofNat op 32).trans (Nat.mod_eq_of_lt h)
  rw [decode_kind_zero rfl, hop, explicit_ctrlCh]
  rfl

theorem decode_ctrl {op : Nat} (h : op < 2 ^ 32) (arg : Word) : decode (.ctrl op arg) = decodeOp op arg none :=
  decode_ctrlCh h arg none

theorem decode_encode (i : Instr) : decode (encode i) = some i := by
  cases i with
  | init | term => rfl
  | setCh arg | setFifo arg | setCsgm arg | setMs arg | setChmode arg | setInitdly arg | getChStat arg =>
    exact decode_ctrl (by decide) arg
  | getCh | getFifo | getCsgm | getMs | getChmode | getInitdly | getDevStat => exact decode_ctrl (by decide) 0
  | setTrm arg ch | setLayout arg ch | setWl arg ch | setTcs arg ch | setEpol arg ch | setForce arg ch
  | setClkd arg ch | setPha arg ch | setPol arg ch => exact decode_ctrlCh (by decide) arg ch
  | getTrm ch | getLayout ch | getWl ch | getTcs ch | getEpol ch | getForce ch | getClkd ch | getPha ch | getPol ch =>
    exact decode_ctrlCh (by decide) 0 ch

/-- Settles O2: the encoder writes the code of the decoder's own row, and the record keeps the operands. -/
theorem decodeOfEncodeIsTheCommand : Obligations.DecodeOfEncodeIsTheCommand := decode_encode

/-! ### The operation codes -/

theorem not_mem_namedOps_iff (op : Nat) :
    op ∉ namedOps ↔ op = 0 ∨ (16 ≤ op ∧ op ≤ 100) ∨ (116 ≤ op ∧ op ≤ 199) ∨ 202 ≤ op := by
  simp only [namedOps, List.mem_append, List.mem_range'_1, List.mem_cons, List.not_mem_nil, or_false, not_or]
  constructor <;> omega

/-- The record of a control operation in which the fields the operation ignores are 0 (95_test_vectors.md, Conventions). -/
def Cmd.canonical (op : Nat) (arg : Word) (ch : Option Word) : Cmd :=
  .ctrlCh op (if op ∈ argOps then arg else 0) (if op ∈ channelOps then ch else none)

/-- A control operation that decodes has a named code, and its command encodes to the canonical record of that code. -/
theorem encode_of_decodeOp {op : Nat} {arg : Word} {ch : Option Word} {i : Instr} (h : decodeOp op arg ch = some i) :
    op ∈ namedOps ∧ encode i = .canonical op arg ch := by
  unfold decodeOp at h
  split at h <;> cases h <;> exact ⟨by decide, rfl⟩

/-- Every named code decodes, whatever the operands are. -/
theorem exists_decodeOp {op : Nat} (h : op ∈ namedOps) (arg : Word) (ch : Option Word) :
    ∃ i, decodeOp op arg ch = some i := by
  have hall : namedOps.all (fun n => (decodeOp n arg ch).isSome) = true := rfl
  exact Option.isSome_iff_exists.mp (List.all_eq_true.mp hall op h)

theorem decodeOp_eq_none_iff (op : Nat) (arg : Word) (ch : Option Word) :
    decodeOp op arg ch = none ↔ op ∉ namedOps := by
  constructor
  · intro hnone hop
    obtain ⟨i, hi⟩ := exists_decodeOp hop arg ch
    rw [hi] at hnone
    cases hnone
  · intro hop
    rw [Option.eq_none_iff_forall_ne_some]
    exact fun i hi => hop (encode_of_decodeOp hi).1

/-- RESERVED: kind 3, and kind 0 with a code that is not named (30_encoding.md R71, R75). -/
theorem decode_eq_none_iff (c : Cmd) : decode c = none ↔ c.kind = 3 ∨ c.kind = 0 ∧ c.op.toNat ∉ namedOps := by
  rcases chan_cases c.kind with hk | hk | hk | hk
  · rw [decode_kind_zero hk, decodeOp_eq_none_iff]; simp [hk]
  · simp [decode_kind_one hk, hk]
  · simp [decode_kind_two hk, hk]
  · simp [decode_kind_three hk, hk]

/-- Settles O4: the reserved records, with the codes that are not named written as ranges. -/
theorem decoderRefusesExactlyTheReserved : Obligations.DecoderRefusesExactlyTheReserved := by
  intro c
  rw [decode_eq_none_iff, not_mem_namedOps_iff]

/-! ### Well-formed records -/

theorem Cmd.wellFormed_iff (c : Cmd) : c.wellFormed = true ↔ c.named = true ∧ (c.kind = 0 ∨ c.op = 0) ∧
    (c.kind = 0 ∧ c.op.toNat ∈ argOps ∨ c.arg = 0) ∧ (c.kind = 0 ∧ c.op.toNat ∈ channelOps ∨ c.chv = false) ∧
    (c.chv = true ∨ c.ch = 0) := by
  simp [wellFormed, opPlain, argPlain, chvPlain, chPlain, and_assoc]

theorem Cmd.op_named {c : Cmd} (hk : c.kind = 0) (h : c.named = true) : c.op.toNat ∈ namedOps := by
  simpa [named, hk] using h

theorem Cmd.kind_ne_three {c : Cmd} (h : c.named = true) : c.kind ≠ 3 := fun hk => by
  simp [named, hk] at h

/-- A control record is made of its own fields, if `ch` is 0 where it is not read. -/
theorem Cmd.ctrlCh_fields {c : Cmd} (hk : c.kind = 0) (hch : c.chv = true ∨ c.ch = 0) :
    ctrlCh c.op.toNat c.arg c.explicit = c := by
  obtain ⟨kind, op, arg, chv, ch⟩ := c
  obtain rfl : kind = 0 := hk
  cases chv with
  | true => simp [ctrlCh, explicit]
  | false =>
    obtain rfl : ch = 0 := hch.resolve_left Bool.false_ne_true
    simp [ctrlCh, explicit]

/-- A well-formed control record is the canonical record of its own fields. -/
theorem Cmd.canonical_of_wellFormed {c : Cmd} (hk : c.kind = 0) (h : c.wellFormed = true) :
    canonical c.op.toNat c.arg c.explicit = c := by
  obtain ⟨-, -, harg, hchv, hch⟩ := c.wellFormed_iff.mp h
  have harg' : (if c.op.toNat ∈ argOps then c.arg else 0) = c.arg :=
    ite_eq_left_iff.mpr fun hop => (harg.resolve_left fun hin => hop hin.2).symm
  have hexplicit : (if c.op.toNat ∈ channelOps then c.explicit else none) = c.explicit := by
    refine ite_eq_left_iff.mpr fun hop => ?_
    have hchv' : c.chv = false := hchv.resolve_left fun hin => hop hin.2
    simp [explicit, hchv']
  rw [canonical, harg', hexplicit]
  exact ctrlCh_fields hk hch

/-- A well-formed lifecycle record has 0 in every field but its kind. -/
theorem Cmd.life_of_wellFormed {c : Cmd} {k : BitVec 2} (hk : c.kind = k) (hne : k ≠ 0) (h : c.wellFormed = true) :
    life k.toNat = c := by
  obtain ⟨-, hop, harg, hchv, hch⟩ := c.wellFormed_iff.mp h
  obtain ⟨kind, op, arg, chv, ch⟩ := c
  obtain rfl : kind = k := hk
  obtain rfl : op = 0 := hop.resolve_left hne
  obtain rfl : arg = 0 := harg.resolve_left fun ha => hne ha.1
  obtain rfl : chv = false := hchv.resolve_left fun hc => hne hc.1
  obtain rfl : ch = 0 := hch.resolve_left Bool.false_ne_true
  simp [life]

/-- Settles O3, by the kinds: a control record is canonical and so is its command's, a lifecycle record holds its kind alone. -/
theorem wellFormedRecordsAreEncodings : Obligations.WellFormedRecordsAreEncodings := by
  intro c h
  have hnamed : c.named = true := (c.wellFormed_iff.mp h).1
  rcases chan_cases c.kind with hk | hk | hk | hk
  · obtain ⟨i, hi⟩ := exists_decodeOp (Cmd.op_named hk hnamed) c.arg c.explicit
    exact ⟨i, (decode_kind_zero hk).trans hi, (encode_of_decodeOp hi).2.trans (Cmd.canonical_of_wellFormed hk h)⟩
  · exact ⟨.init, decode_kind_one hk, Cmd.life_of_wellFormed hk (by decide) h⟩
  · exact ⟨.term, decode_kind_two hk, Cmd.life_of_wellFormed hk (by decide) h⟩
  · exact absurd hk (Cmd.kind_ne_three hnamed)

/-- Settles O1: the records written out decode by computation. -/
theorem recordsDecodeAsWritten : Obligations.RecordsDecodeAsWritten :=
  ⟨rfl, rfl, rfl, rfl, rfl, rfl, rfl, rfl, rfl, rfl, rfl⟩

end Sys2Proof
end

section
/-! SUPPORT. The step on an accepted record, and what a command answers: the response record, with result 0 on every error
(30_encoding.md R75-R78). -/

namespace Sys2Proof.Machine

/-! ### The step on an accepted record -/

theorem step_accept {s t : State} {c : Cmd} (hb : s.busy = false) (ha : accept s = some (c, t)) :
    step s = execCmd c t := by
  simp [step, hb, ha]

theorem execCmd_decoded {c : Cmd} {i : Instr} (h : decode c = some i) (s : State) : execCmd c s = exec i s := by
  simp [execCmd, h]

theorem execCmd_reserved {c : Cmd} (h : decode c = none) (s : State) :
    execCmd c s = .next (raise .unknownOperation none s) := by
  simp [execCmd, h]

theorem step_reserved {s t : State} {c : Cmd} (hb : s.busy = false) (ha : accept s = some (c, t))
    (hd : decode c = none) : step s = .next (raise .unknownOperation none t) :=
  (step_accept hb ha).trans (execCmd_reserved hd t)

/-- The state `withFetchWord` makes accepts the record of the table word, which waits alone (log 16). -/
theorem accept_withFetchWord (s : State) (nbits w : Nat) : accept (s.withFetchWord nbits w) =
    some (Cmd.ofTableWord nbits w, { s with busy := false, phase := .idle, waiting := [] }) := rfl

/-- Settles O5: taking the error is `raise`, whose whole next state is the statement's. -/
theorem reservedRecordAnswersUnknownOperation : Obligations.ReservedRecordAnswersUnknownOperation :=
  fun _ _ _ => step_reserved

/-- Settles O6: both clauses are the step on an accepted record that decodes. -/
theorem stepRunsTheDecodedCommand : Obligations.StepRunsTheDecodedCommand := by
  refine ⟨fun s t c i hb ha hd => ?_, fun s nbits w i hd => ?_⟩
  · exact (step_accept hb ha).trans (execCmd_decoded hd t)
  · exact (step_accept rfl (accept_withFetchWord s nbits w)).trans (execCmd_decoded hd _)

/-! ### The status codes -/

/-- The status of a code, in the order of 30_encoding.md R76. -/
def Status.ofCode (w : Word) : Option Status :=
  [.ok, .invalidChannel, .invalidValue, .fifoConflict, .deviceNotReady, .resetTimeout, .unknownOperation][w.toNat]?

theorem Status.ofCode_code (a : Status) : ofCode a.code = some a := by cases a <;> rfl

theorem Status.code_injective : Function.Injective Status.code := fun a b h => by
  have hab := congrArg ofCode h
  rw [ofCode_code, ofCode_code] at hab
  exact Option.some.inj hab

theorem Status.code_eq_zero_iff (a : Status) : a.code = 0 ↔ a = .ok := code_injective.eq_iff (b := .ok)

/-! ### Errors answer with result 0 -/

/-- The responses given from `s` to `x` have result 0 unless they answer OK (30_encoding.md R77). -/
def ErrorsAnswerZero (s x : State) : Prop :=
  ∃ rs, x.responses = s.responses ++ rs ∧ ∀ r ∈ rs, r.status ≠ .ok → r.result = 0

theorem errorsAnswerZero_of_responses_eq {s x : State} (h : x.responses = s.responses) : ErrorsAnswerZero s x :=
  ⟨[], by simp [h], by simp⟩

theorem ErrorsAnswerZero.congr {s x y : State} (h : ErrorsAnswerZero s x) (e : y.responses = x.responses) :
    ErrorsAnswerZero s y := by
  unfold ErrorsAnswerZero
  rwa [e]

section
variable {s x : State} (h : ErrorsAnswerZero s x)
include h

theorem ErrorsAnswerZero.respond {r : Response} (hr : r.status ≠ .ok → r.result = 0) :
    ErrorsAnswerZero s (respond r x) := by
  obtain ⟨rs, hx, hrs⟩ := h
  refine ⟨rs ++ [r], by simp [hx], fun q hq => ?_⟩
  rcases List.mem_append.mp hq with hq | hq
  · exact hrs q hq
  · obtain rfl := List.mem_singleton.mp hq
    exact hr

theorem ErrorsAnswerZero.returnWord (v : Word) : ErrorsAnswerZero s (returnWord v x) := h.respond fun hne => absurd rfl hne

theorem ErrorsAnswerZero.raise (e : Status) (info : Option Word) : ErrorsAnswerZero s (raise e info x) :=
  h.respond fun _ => rfl

theorem ErrorsAnswerZero.conclude (l : LifeCmd) : ErrorsAnswerZero s (conclude l x) := by
  unfold Machine.conclude
  split
  · exact h.returnWord 0
  · exact h.raise _ _
  · exact h.returnWord 0
  · exact h.raise _ _

theorem ErrorsAnswerZero.pollOrFail (l : LifeCmd) : ErrorsAnswerZero s (pollOrFail l x) := by
  unfold Machine.pollOrFail
  split
  · exact h
  · exact ErrorsAnswerZero.conclude (x := (x.emit .timeout).setSeq .failed) h l

theorem ErrorsAnswerZero.afterPoll (l : LifeCmd) (v : Word) : ErrorsAnswerZero s (afterPoll l v x) := by
  unfold Machine.afterPoll
  split
  · exact ErrorsAnswerZero.conclude (x := x.setSeq .done) h l
  · exact ErrorsAnswerZero.pollOrFail (x := x.setSeq (.resetting (x.seq.polls + 1))) h l

theorem ErrorsAnswerZero.afterDisable (c : Chan) : ErrorsAnswerZero s (afterDisable c x) := by
  unfold Machine.afterDisable
  split
  · exact h.returnWord 0
  · exact h

theorem ErrorsAnswerZero.afterWrite (k : After) : ErrorsAnswerZero s (afterWrite k x) := by
  cases k with
  | done => exact h.returnWord 0
  | disable c => exact h.afterDisable c
  | polling l => exact h.pollOrFail l

theorem ErrorsAnswerZero.enableFifo (n : Chan) (on : List Chan) : ErrorsAnswerZero s (enableFifo n on x) := by
  unfold Machine.enableFifo
  split
  · exact h.raise _ _
  · exact h

theorem ErrorsAnswerZero.reportFifo (on : List Chan) : ErrorsAnswerZero s (reportFifo on x) := by
  cases on <;> exact h.returnWord _

theorem ErrorsAnswerZero.decideFifo (t : Option Chan) (on : List Chan) : ErrorsAnswerZero s (decideFifo t on x) := by
  cases t with
  | some n => exact h.enableFifo n on
  | none => exact h.reportFifo on

theorem ErrorsAnswerZero.afterScan (t : Option Chan) (c : Chan) (v : Word) (on : List Chan) :
    ErrorsAnswerZero s (afterScan t c v on x) := by
  unfold Machine.afterScan
  split
  · exact h.decideFifo _ _
  · exact h

theorem ErrorsAnswerZero.access : ErrorsAnswerZero s (access x) := by
  have hread (r : Reg) : ErrorsAnswerZero s (memRead r x).2 := h.congr (by simp)
  have hwrite (r : NvReg) (v : Word) : ErrorsAnswerZero s (memWrite r v x) := h.congr (by simp)
  unfold Machine.access
  split
  · exact h
  · next r mask bits k hp => exact (hread (.nv r)).congr rfl
  · next r mask bits old k hp => exact (hwrite r _).afterWrite k
  · next f r hp => exact (hread (.nv r)).returnWord _
  · next t c on hp => exact (hread _).afterScan t c _ on
  · next hp => exact (hread .revision).congr (afterRevision_responses _ _)
  · next l hp => exact (hread .sysstatus).afterPoll l _
  · next r hp => exact (hread r).returnWord _

theorem ErrorsAnswerZero.runCommand : ErrorsAnswerZero s (runCommand x) :=
  runCommand_keeps (P := ErrorsAnswerZero s) (fun _ _ hy => hy.access) h

end

theorem exec_errorsAnswerZero {i : Instr} {s t : State} (h : exec i s = .next t) : ErrorsAnswerZero s t := by
  have hstart : ErrorsAnswerZero s s := errorsAnswerZero_of_responses_eq rfl
  cases answers_of_exec h with
  | error e info he => exact hstart.raise e info
  | getCh hi | setCh c hi => exact hstart.returnWord _
  | run hp | term hi => exact ErrorsAnswerZero.runCommand hstart

/-- The one response of a command, with result 0 if it is an error (30_encoding.md R77). -/
theorem exec_response {i : Instr} {s t : State} (h : exec i s = .next t) :
    ∃ r, t.responses = s.responses ++ [r] ∧ (r.status ≠ .ok → r.result = 0) := by
  obtain ⟨-, -, r, hr⟩ := exec_completes h
  obtain ⟨rs, hrs, hzero⟩ := exec_errorsAnswerZero h
  obtain rfl : rs = [r] := List.append_cancel_left (hrs.symm.trans hr)
  exact ⟨r, hr, hzero r (by simp)⟩

/-- Settles O51: the codes are decoded by `Status.ofCode`, and every error answers through `raise`. -/
theorem responseRecordIsTheStatusCodeAndTheResult : Obligations.ResponseRecordIsTheStatusCodeAndTheResult := by
  refine ⟨rfl, fun a b => (Status.code_injective ·), fun r => rfl, fun i s t h => ?_, fun s t c hb ha hd => ?_⟩
  · obtain ⟨r, hr, hzero⟩ := exec_response h
    have hcode : r.record.1 = 0 ↔ r.status = .ok := r.status.code_eq_zero_iff
    exact ⟨r, hr, hcode, fun hne => hzero fun hok => hne (hcode.mpr hok)⟩
  · exact ⟨_, ⟨.unknownOperation, 0, none⟩, step_reserved hb ha hd, rfl, rfl⟩

end Sys2Proof.Machine
end

section
/-! SUPPORT. The descriptor engine: what a set and a get answer on each channel operand, whatever the environment does, what a set
leaves of the other fields, and the current channel (40_engine.md R103-R111). -/

namespace Sys2Proof.Machine

/-! ### The channel a command's descriptor resolves -/

section
variable {s : State} (ht : s.params.table.scoped = true) {f : FieldId}
include ht

theorem target_globalField (hf : f.scope = .global) (c : Chan) : target (s.params.table.get f) c = .modulctrl :=
  target_global ((FieldTable.scope_of_scoped ht f).trans hf) c

theorem target_channelField (hf : f.scope = .perChannel) (c : Chan) : target (s.params.table.get f) c = .conf c :=
  target_perChannel ((FieldTable.scope_of_scoped ht f).trans hf) c

theorem descriptorChannel_globalField (hf : f.scope = .global) (ch : Option Word) :
    descriptorChannel (s.params.table.get f) ch s = some 0 :=
  descriptorChannel_global ((FieldTable.scope_of_scoped ht f).trans hf) ch s

theorem descriptorChannel_channelField (hf : f.scope = .perChannel) (ch : Option Word) :
    descriptorChannel (s.params.table.get f) ch s = resolveChannel ch s :=
  descriptorChannel_perChannel ((FieldTable.scope_of_scoped ht f).trans hf) ch s

end

theorem channelOperand_perChannel {f : FieldId} (hf : f.scope = .perChannel) (ch : Option Word) :
    channelOperand f ch = ch := by
  simp [channelOperand, hf]

/-- The channel resolved is the one of the explicit word, else the current one (30_encoding.md R74). -/
theorem word_of_resolveChannel {ch : Option Word} {s : State} {c : Chan} (h : resolveChannel ch s = some c) :
    c.setWidth 32 = ch.getD (s.curch.setWidth 32) := by
  cases ch with
  | none => cases h; rfl
  | some w => exact (chanOfWord_some h).symm

/-! ### The sets and gets that complete, while no reset is in progress -/

theorem globalSets_commands (u : Word) :
    ∀ p ∈ [(Instr.setCsgm u, FieldId.csgm), (.setMs u, .ms), (.setChmode u, .chmode), (.setInitdly u, .initdly)],
      setCommand p.2 u none = some p.1 ∧ p.2.scope = .global := by
  simp [setCommand, FieldId.scope]

theorem globalGets_commands :
    ∀ p ∈ [(Instr.getCsgm, FieldId.csgm), (.getMs, .ms), (.getChmode, .chmode), (.getInitdly, .initdly)],
      getCommand p.2 none = some p.1 ∧ p.2.scope = .global := by
  simp [getCommand, FieldId.scope]

theorem perChannelSets_commands (u : Word) (ch : Option Word) :
    ∀ p ∈ [(Instr.setTrm u ch, FieldId.trm), (.setLayout u ch, .layout), (.setWl u ch, .wl), (.setTcs u ch, .tcs),
        (.setEpol u ch, .epol), (.setForce u ch, .force), (.setClkd u ch, .clkd), (.setPha u ch, .pha),
        (.setPol u ch, .pol)],
      setCommand p.2 u ch = some p.1 ∧ p.2.scope = .perChannel := by
  simp [setCommand, FieldId.scope]

theorem perChannelGets_commands (ch : Option Word) :
    ∀ p ∈ [(Instr.getTrm ch, FieldId.trm), (.getLayout ch, .layout), (.getWl ch, .wl), (.getTcs ch, .tcs),
        (.getEpol ch, .epol), (.getForce ch, .force), (.getClkd ch, .clkd), (.getPha ch, .pha), (.getPol ch, .pol)],
      getCommand p.2 ch = some p.1 ∧ p.2.scope = .perChannel := by
  simp [getCommand, FieldId.scope]

/-- Settles O15: the set completes as `afterSet`, on MODULCTRL. -/
theorem globalSetsWriteTheirField : Obligations.GlobalSetsWriteTheirField := by
  intro s u i f hmem ht hl hp hu
  obtain ⟨hi, hf⟩ := globalSets_commands u _ hmem
  rw [exec_set_done ht hl hp hi hu (c := 0) (.inr hf), afterSet, target_globalField ht hf]
  rfl

/-- Settles O16: the set completes as `afterSet`, on the conf register of the channel resolved. -/
theorem perChannelSetsWriteTheirField : Obligations.PerChannelSetsWriteTheirField := by
  intro s u ch c i f hmem ht hl hp hu hc
  obtain ⟨hi, hf⟩ := perChannelSets_commands u ch _ hmem
  rw [exec_set_done ht hl hp hi hu (.inl (resolveChannel_eq hc)), afterSet, target_channelField ht hf]
  rfl

/-- Settles O17: the get completes as `afterGet`, on MODULCTRL. -/
theorem globalGetsReturnTheirField : Obligations.GlobalGetsReturnTheirField := by
  intro s i f hmem ht hl hp
  obtain ⟨hi, hf⟩ := globalGets_commands _ hmem
  rw [exec_get_done ht hl hp hi (c := 0) (.inr hf), afterGet, target_globalField ht hf]
  rfl

/-- Settles O18: the get completes as `afterGet`, on the conf register of the channel resolved. -/
theorem perChannelGetsReturnTheirField : Obligations.PerChannelGetsReturnTheirField := by
  intro s ch c i f hmem ht hl hp hc
  obtain ⟨hi, hf⟩ := perChannelGets_commands ch _ hmem
  rw [exec_get_done ht hl hp hi (.inl (resolveChannel_eq hc)), afterGet, target_channelField ht hf]
  rfl

/-! ### Round trip and non-interference -/

/-- Settles O21: the get reads the field that the set left, on the same channel. -/
theorem getAfterSetReturnsTheValue : Obligations.GetAfterSetReturnsTheValue := by
  intro s f u ch c i j hadm hl hp hu hc hi hj
  have ht := Params.table_wellFormed hadm
  have hscoped := FieldTable.scoped_of_wellFormed ht
  have hset : exec i s = .next (afterSet f c u s) := exec_set_done hscoped hl hp hi hu (.inl (resolveChannel_eq hc))
  have hget : exec j (afterSet f c u s) = .next (afterGet f c (afterSet f c u s)) :=
    exec_get_done (s := afterSet f c u s) hscoped hl hp hj (.inl (resolveChannel_eq hc))
  refine ⟨_, _, hset, hget, ?_⟩
  have hvalue := afterSet_extract_self ht hu c
  simp only [afterGet, afterSet_params, hvalue]
  simp [afterSet]

/-- What a set can leave of the state while no reset is in progress: an error, or the write on the channel resolved. -/
theorem setParam_cases {s t : State} (hl : s.life = .ready) (hp : s.pend = false) {f : FieldId} {u : Word}
    {ch : Option Word} (h : setParam f u ch s = .next t) :
    (∃ e info, t = raise e info s) ∨
      ∃ c, u ∈ (s.params.table.get f).dom ∧ descriptorChannel (s.params.table.get f) ch s = some c ∧
        t = afterSet f c u s := by
  by_cases hu : u ∈ (s.params.table.get f).dom
  · cases hc : descriptorChannel (s.params.table.get f) ch s with
    | none =>
      rw [setParam_badChannel hl hu hc] at h
      cases h
      exact .inl ⟨_, _, rfl⟩
    | some c =>
      rw [setParam_done hl hp hu hc] at h
      cases h
      exact .inr ⟨c, hu, rfl, rfl⟩
  · rw [setParam_badValue hl hu] at h
    cases h
    exact .inl ⟨_, _, rfl⟩

/-- A set on one channel keeps the word of another channel's conf register. -/
theorem afterSet_word_otherChannel {s : State} (ht : s.params.table.scoped = true) {f : FieldId}
    (hf : f.scope = .perChannel) {b c : Chan} (h : c ≠ b) (u : Word) :
    (afterSet f b u s).bank.word (.conf c) = s.bank.word (.conf c) := by
  rw [afterSet_bank, target_channelField ht hf]
  exact word_put_ne _ _ (by simpa using h)

/-- Settles O22: an error writes nothing; the write keeps another field by its mask, and its own field of another channel
because that is another register. -/
theorem setKeepsEveryOtherField : Obligations.SetKeepsEveryOtherField := by
  intro s t f g u ch i c hadm hl hp hi hexec hother
  have ht := Params.table_wellFormed hadm
  have hscoped := FieldTable.scoped_of_wellFormed ht
  rw [exec_setCommand hi] at hexec
  rcases setParam_cases hl hp hexec with ⟨e, info, rfl⟩ | ⟨b, hu, hb, rfl⟩
  · rfl
  · by_cases hfg : f = g
    · subst hfg
      obtain ⟨hf, hne⟩ := hother.resolve_left (fun h => h rfl)
      rw [channelOperand_perChannel hf, descriptorChannel_channelField hscoped hf] at hb
      have hcb : c ≠ b := fun h => hne (h ▸ word_of_resolveChannel hb)
      simp only [target_channelField hscoped hf, afterSet_word_otherChannel hscoped hf hcb]
    · exact afterSet_extract_other ht hfg hu b c

/-! ### The sets and gets that complete, whatever the environment does -/

theorem setParam_runs {s : State} (hl : s.life = .ready) {f : FieldId} {u : Word}
    (hu : u ∈ (s.params.table.get f).dom) {ch : Option Word} {c : Chan}
    (hc : descriptorChannel (s.params.table.get f) ch s = some c) :
    setParam f u ch s = .next (runFrom (fieldWrite (s.params.table.get f) c u .done) s) := by
  simp only [setParam, whenReady_ready hl, valid_iff.mpr hu, if_true, hc]

theorem getParam_runs {s : State} (hl : s.life = .ready) {f : FieldId} {ch : Option Word} {c : Chan}
    (hc : descriptorChannel (s.params.table.get f) ch s = some c) :
    getParam f ch s = .next (runFrom (fieldRead f (s.params.table.get f) c) s) := by
  simp only [getParam, whenReady_ready hl, hc]

/-- The command accepted in `s` has ended in `t` with OK, and its accesses were all of the register `r`. -/
structure DoneAt (r : NvReg) (s t : State) : Prop where
  answer : ∃ q : Response, t.responses = s.responses ++ [q] ∧ q.status = .ok
  curch : t.curch = s.curch
  trace : ∃ es, t.log = s.log ++ es ∧ es ≠ [] ∧ ∀ e ∈ es, ∃ v, e = .read r.offset v ∨ e = .write r.offset v

theorem doneAt_returnWord {r : NvReg} {s x : State} {es : List Event} (hr : x.responses = s.responses)
    (hc : x.curch = s.curch) (hlog : x.log = s.log ++ es) (hne : es ≠ [])
    (hes : ∀ e ∈ es, ∃ v, e = .read r.offset v ∨ e = .write r.offset v) (v : Word) : DoneAt r s (returnWord v x) :=
  ⟨⟨⟨.ok, v, none⟩, by rw [returnWord_responses, hr], rfl⟩, hc, es, hlog, hne, hes⟩

theorem fieldRead_doneAt (f : FieldId) (r : NvReg) (s : State) : DoneAt r s (runFrom (.fieldRead f r) s) := by
  rw [runFrom_fieldRead_any]
  have hlog := memRead_log (.nv r) (locked (.fieldRead f r) s)
  exact doneAt_returnWord (s := s) (by simp [locked]) (by simp [locked]) hlog (by simp) (by simp [Reg.offset]) _

theorem memWrite_rmwMid_log (r : NvReg) (mask bits w : Word) (k : After) (s : State) :
    (memWrite r w (rmwMid r mask bits k s)).log =
      s.log ++ [.read r.offset (readWord (.nv r) s), .write r.offset w] := by
  simp [rmwMid, Reg.offset]

theorem rmw_doneAt (r : NvReg) (mask bits : Word) (s : State) :
    DoneAt r s (runFrom (.rmwRead r mask bits .done) s) := by
  rw [runFrom_rmw_any]
  have hlog := memWrite_rmwMid_log r mask bits
    (rmwWord (memRead (.nv r) (locked (.rmwRead r mask bits .done) s)).1 mask bits) .done
    (locked (.rmwRead r mask bits .done) s)
  exact doneAt_returnWord (s := s) (by simp [rmwMid, locked]) (by simp [rmwMid, locked]) hlog (by simp) (by simp) 0

/-- Settles O19: the domain check comes first; past it, the set is rejected for its channel or ends with OK. -/
theorem setsRejectExactlyTheValuesOutsideTheDomain : Obligations.SetsRejectExactlyTheValuesOutsideTheDomain := by
  intro s f u ch i hi hl
  rw [exec_setCommand hi]
  refine ⟨fun hu => setParam_badValue hl hu _, fun hu => ?_⟩
  cases hc : descriptorChannel (s.params.table.get f) (channelOperand f ch) s with
  | none => exact ⟨_, _, setParam_badChannel hl hu hc, rfl, nofun⟩
  | some c =>
    obtain ⟨q, hq, hok⟩ := (rmw_doneAt (target (s.params.table.get f) c) _ _ s).answer
    exact ⟨_, q, setParam_runs hl hu hc, hq, by simp [hok]⟩

/-! ### The channel of a descriptor access -/

section
variable {s : State} {f : FieldId} {u : Word} {ch : Option Word} {i : Instr} (hl : s.life = .ready)
  (hi : setCommand f u ch = some i ∧ u ∈ (s.params.table.get f).dom ∨ getCommand f ch = some i)
include hl hi

/-- A set of a value of the domain, and a get, whose channel resolves end with OK after accesses of the descriptor's register. -/
theorem exec_doneAt {c : Chan} (hc : descriptorChannel (s.params.table.get f) (channelOperand f ch) s = some c) :
    ∃ t, exec i s = .next t ∧ DoneAt (target (s.params.table.get f) c) s t := by
  rcases hi with ⟨hset, hu⟩ | hget
  · exact ⟨_, (exec_setCommand hset s).trans (setParam_runs hl hu hc), rmw_doneAt _ _ _ _⟩
  · exact ⟨_, (exec_getCommand hget s).trans (getParam_runs hl hc), fieldRead_doneAt _ _ _⟩

theorem exec_badChannel (hc : descriptorChannel (s.params.table.get f) (channelOperand f ch) s = none) :
    exec i s = .next (raise .invalidChannel (channelOperand f ch) s) := by
  rcases hi with ⟨hset, hu⟩ | hget
  · exact (exec_setCommand hset s).trans (setParam_badChannel hl hu hc)
  · exact (exec_getCommand hget s).trans (getParam_badChannel hl hc)

end

/-- The global operations read no channel (30_encoding.md R74). -/
theorem decodeOp_global_channel {op : Nat} (h : op ∈ [3, 4, 5, 6, 103, 104, 105, 106]) (arg : Word) (ch : Option Word) :
    decodeOp op arg ch = decodeOp op arg none := by
  simp only [List.mem_cons, List.not_mem_nil, or_false] at h
  rcases h with rfl | rfl | rfl | rfl | rfl | rfl | rfl | rfl <;> rfl

/-- Settles O20: the decoder drops the operands that are not read; of the others the channel resolved decides. -/
theorem channelOfADescriptorAccess : Obligations.ChannelOfADescriptorAccess := by
  refine ⟨fun op arg ch chv hop => ?_, fun op arg ch => rfl,
    fun s f u ch i ht hl hi => ⟨fun hf => ?_, fun hf => ⟨?_, ?_⟩⟩⟩
  · rw [decode_kind_zero rfl, decode_kind_zero rfl]
    exact decodeOp_global_channel hop arg _
  · obtain ⟨t, hexec, hdone⟩ := exec_doneAt hl hi (descriptorChannel_globalField ht hf _)
    obtain ⟨q, hq, hok⟩ := hdone.answer
    exact ⟨t, q, hexec, hq, hok⟩
  · rintro w rfl hw
    have hc := (descriptorChannel_channelField ht hf (some w)).trans (chanOfWord_none hw)
    rw [← channelOperand_perChannel hf (some w)] at hc
    rw [exec_badChannel hl hi hc, channelOperand_perChannel hf]
    rfl
  · intro c hc
    have hchan := (descriptorChannel_channelField ht hf ch).trans (resolveChannel_eq hc)
    rw [← channelOperand_perChannel hf ch] at hchan
    obtain ⟨t, hexec, hdone⟩ := exec_doneAt hl hi hchan
    rw [target_channelField ht hf] at hdone
    obtain ⟨⟨q, hq, hok⟩, hcurch, es, hlog, hne, hes⟩ := hdone
    exact ⟨t, q, es, hexec, hq, hok, hcurch, hlog, hne, hes⟩

/-! ### The current channel -/

theorem exec_setCh_index {s : State} (hl : s.life = .ready) (c : Chan) :
    exec (.setCh (c.setWidth 32)) s = .next (returnWord 0 { s with curch := c }) := by
  simp only [exec, execSetCh, whenReady_ready hl, chanOfWord_setWidth]

theorem exec_setCh_above {s : State} (hl : s.life = .ready) {a : Word} (ha : 3 < a.toNat) :
    exec (.setCh a) s = .next (raise .invalidChannel (some a) s) := by
  simp only [exec, execSetCh, whenReady_ready hl, chanOfWord_none ha]

theorem exec_getCh {s : State} (hl : s.life = .ready) :
    exec .getCh s = .next (returnWord (s.curch.setWidth 32) s) := by
  simp only [exec, execGetCh, whenReady_ready hl]

/-- Settles O30: SETCH by its argument, and GETCH; the whole next states are those of `returnWord` and `raise`. -/
theorem currentChannelOperations : Obligations.CurrentChannelOperations :=
  fun _ hl => ⟨exec_setCh_index hl, fun _ => exec_setCh_above hl, exec_getCh hl⟩

end Sys2Proof.Machine
end

section
/-! SUPPORT. The build-time check written out: what an admitted table is, and what the construction of a block takes
(40_engine.md R101, R102; 00_scope.md R8; 10_state.md R33). -/

namespace Sys2Proof

/-! ### The six conditions -/

theorem FieldId.all_all_iff (p : FieldId → Bool) : FieldId.all.all p = true ↔ ∀ f, p f = true := by
  simp [List.all_eq_true, mem_all]

/-- Conditions 1, 3 and 4 (40_engine.md R101). -/
theorem Descriptor.wellFormed_iff (d : Descriptor) : d.wellFormed = true ↔
    (1 ≤ d.w ∧ d.pos + d.w ≤ 32) ∧ (∀ v ∈ d.dom, (d.codec.enc v).toNat < 2 ^ d.w) ∧
      ∀ v ∈ d.dom, d.codec.dec (d.codec.enc v) = v := by
  simp [wellFormed, fits_iff, encFits, roundTrips, and_assoc]

/-- Condition 2: the register is fixed by the scope (40_engine.md R101; log 2). -/
theorem Descriptor.reg_of_scope (d : Descriptor) :
    d.scope = .global ∧ d.reg = 0x128 ∨ d.scope = .perChannel ∧ d.reg = 0x00 := by
  unfold reg
  cases h : d.scope with
  | global => exact .inl ⟨rfl, rfl⟩
  | perChannel => exact .inr ⟨rfl, rfl⟩

/-- Condition 5: two descriptors of one register have disjoint masks (40_engine.md R101). -/
theorem FieldTable.disjoint_iff (t : FieldTable) : t.disjoint = true ↔
    ∀ f g : FieldId, g ≠ f → (t.get g).scope = (t.get f).scope → (t.get g).mask &&& (t.get f).mask = 0 := by
  simp only [disjoint, FieldId.all_all_iff, disjointAt, Bool.or_eq_true, beq_iff_eq, bne_iff_ne]
  refine forall₂_congr fun f g => ?_
  rw [BitVec.and_comm, eq_comm (a := f), or_assoc]
  simp only [or_iff_not_imp_left, Ne, not_not, eq_comm (a := (t.get f).scope)]

theorem FieldTable.admitted_iff (t : FieldTable) :
    t.admitted = true ↔ (∀ f, (t.get f).wellFormed = true) ∧ t.disjoint = true := by
  rw [admitted, Bool.and_eq_true, FieldId.all_all_iff]

/-! ### The other parameters -/

theorem Params.valuesAdmitted_iff (p : Params) : p.valuesAdmitted = true ↔
    1 ≤ p.resetPollMax ∧ p.softresetBit < 32 ∧ p.resetdoneBit < 32 ∧
      p.resetValue.sysconfig.getLsbD p.softresetBit = false ∧ p.table.exclusive p.resetValue.conf = true := by
  simp only [valuesAdmitted, resetValueAdmitted, ranged, Bool.and_eq_true, Bool.not_eq_true', decide_eq_true_eq]
  exact ⟨fun ⟨⟨hsys, hexcl⟩, ⟨hpoll, hsoft⟩, hdone⟩ => ⟨hpoll, hsoft, hdone, hsys, hexcl⟩,
    fun ⟨hpoll, hsoft, hdone, hsys, hexcl⟩ => ⟨⟨hsys, hexcl⟩, ⟨hpoll, hsoft⟩, hdone⟩⟩

namespace Machine

theorem construct_eq_next_iff (p : Params) (word : Nat → Word) (t : State) : State.construct p word = .next t ↔
    t = State.powerOn p word ∧ p.table.admitted = true ∧ p.valuesAdmitted = true := by
  rcases construct_cases p word with ⟨ht, hc⟩ | ⟨-, hv, hc⟩ | ⟨ht, hv, hc⟩
  · simp [hc, ht]
  · simp [hc, hv]
  · simp [hc, ht, hv, eq_comm]

/-- Settles O55: the check is the conditions written out, row by row, and `construct` branches on it. -/
theorem constructionRefusesExactlyTheOtherTables : Obligations.ConstructionRefusesExactlyTheOtherTables := by
  refine ⟨fun t => ?_, fun p word => ?_, construct_of_wellFormed default_wellFormed _⟩
  · rw [FieldTable.admitted_iff, FieldTable.disjoint_iff, ← forall_and]
    refine forall_congr' fun f => ?_
    simp only [Descriptor.wellFormed_iff, (t.get f).reg_of_scope, true_and, and_assoc]
  · rw [← Params.valuesAdmitted_iff]
    refine ⟨fun ht => if_pos ht, fun ht hv => ?_, fun t => (construct_eq_next_iff p word t).mp⟩
    exact (construct_eq_next_iff p word _).mpr ⟨rfl, ht, hv⟩

/-- Settles O24: the default parameters are literals, and the checks are run on them. -/
theorem defaultTableIsAdmitted : Obligations.DefaultTableIsAdmitted :=
  ⟨default_wellFormed, by decide, by decide, rfl, by decide⟩

end Machine

end Sys2Proof
end

section
/-! SUPPORT. The rows of the default table that store a value as it is, and the global parameters, which are four of them
(40_engine.md R102; 41_global_params.md R120-R127). -/

namespace Sys2Proof.Machine

/-! ### Rows with the identity codec -/

/-- The default row of `f` stores each of the values 0 to `max` as it is, in the `width` bits from bit `pos` on. -/
structure IdentityRow (f : FieldId) (pos width max : Nat) : Prop where
  row : FieldTable.default.get f = ⟨f.scope, pos, width, valuesFrom 0 max, .identity⟩
  max_lt : max < 2 ^ 32

theorem identityRow_csgm : IdentityRow .csgm 1 1 1 := ⟨rfl, by decide⟩
theorem identityRow_ms : IdentityRow .ms 2 1 1 := ⟨rfl, by decide⟩
theorem identityRow_chmode : IdentityRow .chmode 0 1 1 := ⟨rfl, by decide⟩
theorem identityRow_initdly : IdentityRow .initdly 4 3 4 := ⟨rfl, by decide⟩

section
variable {f : FieldId} {pos width max : Nat} (hrow : IdentityRow f pos width max)
include hrow

theorem IdentityRow.mem_dom_iff (u : Word) : u ∈ (FieldTable.default.get f).dom ↔ u.toNat ≤ max := by
  rw [hrow.row, mem_valuesFrom hrow.max_lt]
  exact and_iff_right (Nat.zero_le _)

/-- A set clears the row's bits and puts the value itself into them (40_engine.md R105). -/
theorem IdentityRow.insert (old u : Word) :
    (FieldTable.default.get f).insert old u = (old &&& ~~~(lowMask width <<< pos)) ||| (u <<< pos) := by
  rw [hrow.row, Descriptor.insert, Descriptor.bits, identity_enc]
  rfl

/-- A get reads the slice of the row's bits itself (40_engine.md R108). -/
theorem IdentityRow.extract (v : Word) :
    (FieldTable.default.get f).extract v = (v.extractLsb' pos width).setWidth 32 := by
  rw [hrow.row, Descriptor.extract, identity_dec]
  exact field_eq_slice v pos width

end

/-! ### The set and get operations of the rules -/

theorem scoped_of_default {s : State} (ht : s.params.table = .default) : s.params.table.scoped = true :=
  ht ▸ default_scoped

/-- Each set operation of 41_global_params.md is the set command of a global identity row, whatever its `chv` and `ch`. -/
theorem globalSetRules_commands {a op mask : Word} {shift max : Nat} {i : Instr}
    (h : (op, i, mask, shift, max) ∈ [(3#32, Instr.setCsgm a, 0x2#32, 1, 1), (4#32, .setMs a, 0x4#32, 2, 1),
      (5#32, .setChmode a, 0x1#32, 0, 1), (6#32, .setInitdly a, 0x70#32, 4, 4)]) :
    ∃ f width, setCommand f a none = some i ∧ f.scope = .global ∧ IdentityRow f shift width max ∧
      lowMask width <<< shift = mask ∧ ∀ chv ch, decode ⟨0, op, a, chv, ch⟩ = some i := by
  simp only [List.mem_cons, List.not_mem_nil, or_false, Prod.mk.injEq] at h
  rcases h with ⟨rfl, rfl, rfl, rfl, rfl⟩ | ⟨rfl, rfl, rfl, rfl, rfl⟩ | ⟨rfl, rfl, rfl, rfl, rfl⟩ |
    ⟨rfl, rfl, rfl, rfl, rfl⟩
  · exact ⟨.csgm, 1, rfl, rfl, identityRow_csgm, rfl, fun _ _ => rfl⟩
  · exact ⟨.ms, 1, rfl, rfl, identityRow_ms, rfl, fun _ _ => rfl⟩
  · exact ⟨.chmode, 1, rfl, rfl, identityRow_chmode, rfl, fun _ _ => rfl⟩
  · exact ⟨.initdly, 3, rfl, rfl, identityRow_initdly, rfl, fun _ _ => rfl⟩

/-- Each get operation of 41_global_params.md is the get command of a global identity row, whatever the other fields of its
record. -/
theorem globalGetRules_commands {op : Word} {shift width : Nat} {i : Instr}
    (h : (op, i, shift, width) ∈ [(103#32, Instr.getCsgm, 1, 1), (104#32, .getMs, 2, 1), (105#32, .getChmode, 0, 1),
      (106#32, .getInitdly, 4, 3)]) :
    ∃ f max, getCommand f none = some i ∧ f.scope = .global ∧ IdentityRow f shift width max ∧
      ∀ arg chv ch, decode ⟨0, op, arg, chv, ch⟩ = some i := by
  simp only [List.mem_cons, List.not_mem_nil, or_false, Prod.mk.injEq] at h
  rcases h with ⟨rfl, rfl, rfl, rfl⟩ | ⟨rfl, rfl, rfl, rfl⟩ | ⟨rfl, rfl, rfl, rfl⟩ | ⟨rfl, rfl, rfl, rfl⟩
  · exact ⟨.csgm, 1, rfl, rfl, identityRow_csgm, fun _ _ _ => rfl⟩
  · exact ⟨.ms, 1, rfl, rfl, identityRow_ms, fun _ _ _ => rfl⟩
  · exact ⟨.chmode, 1, rfl, rfl, identityRow_chmode, fun _ _ _ => rfl⟩
  · exact ⟨.initdly, 4, rfl, rfl, identityRow_initdly, fun _ _ _ => rfl⟩

/-- Settles O25: past the domain check, `a ≤ max`, the set completes as `afterSet`, on MODULCTRL and with the word of
an identity row. -/
theorem globalSetRules : Obligations.GlobalSetRules := by
  refine ⟨fun s a op mask shift max i hmem ht hl hp => ?_, by decide, by decide, by decide, by decide⟩
  obtain ⟨f, width, hi, hf, hrow, rfl, hdecode⟩ := globalSetRules_commands hmem
  have hdom : a ∈ (s.params.table.get f).dom ↔ a.toNat ≤ max := ht ▸ hrow.mem_dom_iff a
  refine ⟨hdecode, fun hmax => ?_, fun hmax => ?_⟩
  · rw [exec_setCommand hi, setParam_badValue hl (hdom.not.mpr (Nat.not_le.mpr hmax))]
    rfl
  · have hscoped := scoped_of_default ht
    rw [exec_set_done hscoped hl hp hi (hdom.mpr hmax) (c := 0) (.inr hf), afterSet, target_globalField hscoped hf, ht,
      hrow.insert]
    rfl

/-- Settles O26: the get completes as `afterGet`, on MODULCTRL and with the slice of an identity row. -/
theorem globalGetRules : Obligations.GlobalGetRules := by
  refine ⟨fun s op shift width i hmem ht hl hp => ?_, by decide, by decide, by decide, by decide, by decide⟩
  obtain ⟨f, max, hi, hf, hrow, hdecode⟩ := globalGetRules_commands hmem
  have hscoped := scoped_of_default ht
  refine ⟨hdecode, ?_⟩
  rw [exec_get_done hscoped hl hp hi (c := 0) (.inr hf), afterGet, target_globalField hscoped hf, ht, hrow.extract]
  rfl

end Sys2Proof.Machine
end

section
/-! SUPPORT. The per-channel parameters under the default table, on the conf register of their channel (42_channel_params.md
R130-R147). -/

namespace Sys2Proof.Machine

/-! ### The rows -/

theorem identityRow_trm : IdentityRow .trm 12 2 2 := ⟨rfl, by decide⟩
theorem identityRow_tcs : IdentityRow .tcs 25 2 3 := ⟨rfl, by decide⟩
theorem identityRow_epol : IdentityRow .epol 6 1 1 := ⟨rfl, by decide⟩
theorem identityRow_force : IdentityRow .force 20 1 1 := ⟨rfl, by decide⟩
theorem identityRow_clkd : IdentityRow .clkd 2 4 15 := ⟨rfl, by decide⟩
theorem identityRow_pha : IdentityRow .pha 0 1 1 := ⟨rfl, by decide⟩
theorem identityRow_pol : IdentityRow .pol 1 1 1 := ⟨rfl, by decide⟩

/-- The clock divider is stored as it is (D38). -/
theorem clkd_insert (old u : Word) :
    (FieldTable.default.get .clkd).insert old u = (old &&& ~~~0x3C#32) ||| (u <<< 2) :=
  identityRow_clkd.insert old u

/-- The word length row takes the lengths 4 to 32 (D11). -/
theorem mem_wl_dom_iff (u : Word) : u ∈ (FieldTable.default.get .wl).dom ↔ 4 ≤ u.toNat ∧ u.toNat ≤ 32 :=
  mem_valuesFrom (by decide) u

theorem wl_insert (old u : Word) :
    (FieldTable.default.get .wl).insert old u = (old &&& ~~~0xF80#32) ||| ((u - 1) <<< 7) := rfl

theorem wl_extract (v : Word) : (FieldTable.default.get .wl).extract v = (v.extractLsb' 7 5).setWidth 32 + 1 :=
  congrArg (· + 1) (field_eq_slice v 7 5)

/-- The pin layout row takes 0 and 1 (D12). -/
theorem mem_layout_dom_iff (u : Word) : u ∈ (FieldTable.default.get .layout).dom ↔ u.toNat ≤ 1 :=
  (mem_valuesFrom (by decide) u).trans (and_iff_right (Nat.zero_le _))

theorem layout_insert_zero (old : Word) :
    (FieldTable.default.get .layout).insert old 0 = (old &&& ~~~0x70000#32) ||| (0b110#32 <<< 16) := rfl

theorem layout_insert_one (old : Word) :
    (FieldTable.default.get .layout).insert old 1 = (old &&& ~~~0x70000#32) ||| (0b001#32 <<< 16) := rfl

/-- The layout decoded is 1 less the field's bit 2 (D12). -/
theorem pinLayout_dec : ∀ f : BitVec 3, Codec.pinLayout.dec (f.setWidth 32) = 1 - (f.extractLsb' 2 1).setWidth 32 := by
  decide

theorem layout_extract (v : Word) :
    (FieldTable.default.get .layout).extract v = 1 - (v.extractLsb' 18 1).setWidth 32 := by
  have hbit : (v.extractLsb' 16 3).extractLsb' 2 1 = v.extractLsb' 18 1 := by
    ext j hj
    simp [Nat.lt_one_iff.mp hj]
  rw [← hbit, ← pinLayout_dec, ← field_eq_slice]
  rfl

/-! ### A set and a get on the conf register of a channel -/

/-- The state that a completed RMW of the channel's conf register leaves, `new` being the word written. -/
def afterConfWrite (c : Chan) (new : Word) (s : State) : State :=
  { s with
    bank := { s.bank with conf := s.bank.conf.set c.toNat new c.isLt }
    busy := false
    phase := .idle
    responses := s.responses ++ [⟨.ok, 0, none⟩]
    log := s.log ++ [.read (0x12c + c.toNat * 0x14) (s.bank.word (.conf c)), .write (0x12c + c.toNat * 0x14) new]
    moves := s.moves.drop 2
    tick := s.tick + 2 }

/-- The state that a completed read of the channel's conf register leaves, `result` being the value returned. -/
def afterConfRead (c : Chan) (result : Word) (s : State) : State :=
  { s with
    busy := false
    phase := .idle
    responses := s.responses ++ [⟨.ok, result, none⟩]
    log := s.log ++ [.read (0x12c + c.toNat * 0x14) (s.bank.word (.conf c))]
    moves := s.moves.tail
    tick := s.tick + 1 }

section
variable {s : State} (ht : s.params.table = .default) (hl : s.life = .ready) {f : FieldId} {u : Word} {ch : Option Word}
  {i : Instr}
include ht hl

/-- A value outside the domain is rejected before the channel is looked at (40_engine.md R105). -/
theorem exec_set_outside (hi : setCommand f u ch = some i) (hu : u ∉ (FieldTable.default.get f).dom) :
    exec i s = .next (raise .invalidValue (some u) s) := by
  rw [exec_setCommand hi]
  exact setParam_badValue hl (ht ▸ hu) _

variable (hf : f.scope = .perChannel)
include hf

/-- Past the domain check, an explicit channel above 3 is rejected (30_encoding.md R74). -/
theorem exec_channel_above {w : Word} (hw : 3 < w.toNat)
    (hi : setCommand f u (some w) = some i ∧ u ∈ (FieldTable.default.get f).dom ∨ getCommand f (some w) = some i) :
    exec i s = .next (raise .invalidChannel (some w) s) := by
  have hc : descriptorChannel (s.params.table.get f) (channelOperand f (some w)) s = none := by
    rw [channelOperand_perChannel hf, descriptorChannel_channelField (scoped_of_default ht) hf]
    exact chanOfWord_none hw
  rw [exec_badChannel hl (ht ▸ hi) hc, channelOperand_perChannel hf]

variable (hp : s.pend = false) {c : Chan} (hc : ch = none ∧ c = s.curch ∨ ch = some (c.setWidth 32))
include hp hc

/-- A set of a value of the domain inserts it into the conf register of the channel (40_engine.md R105). -/
theorem exec_set_conf (hi : setCommand f u ch = some i) (hu : u ∈ (FieldTable.default.get f).dom) :
    exec i s = .next (afterConfWrite c ((FieldTable.default.get f).insert (s.bank.word (.conf c)) u) s) := by
  have hscoped := scoped_of_default ht
  rw [exec_set_done hscoped hl hp hi (ht ▸ hu) (.inl (resolveChannel_eq hc)), afterSet, target_channelField hscoped hf, ht]
  rfl

/-- A get returns what the conf register of the channel decodes to (40_engine.md R108). -/
theorem exec_get_conf (hi : getCommand f ch = some i) :
    exec i s = .next (afterConfRead c ((FieldTable.default.get f).extract (s.bank.word (.conf c))) s) := by
  have hscoped := scoped_of_default ht
  rw [exec_get_done hscoped hl hp hi (.inl (resolveChannel_eq hc)), afterGet, target_channelField hscoped hf, ht]
  rfl

end

/-! ### The rules -/

/-- Each set operation that stores its value as it is, is the set command of a per-channel identity row. -/
theorem channelSetRules_commands {a op mask : Word} {shift max : Nat} {ch : Option Word} {i : Instr}
    (h : (op, i, mask, shift, max) ∈ [(7#32, Instr.setTrm a ch, 0x3000#32, 12, 2), (10#32, .setTcs a ch, 0x06000000#32, 25, 3),
      (11#32, .setEpol a ch, 0x40#32, 6, 1), (12#32, .setForce a ch, 0x100000#32, 20, 1),
      (14#32, .setPha a ch, 0x1#32, 0, 1), (15#32, .setPol a ch, 0x2#32, 1, 1)]) :
    ∃ f width, setCommand f a ch = some i ∧ f.scope = .perChannel ∧ IdentityRow f shift width max ∧
      lowMask width <<< shift = mask ∧ encode i = ⟨0, op, a, ch.isSome, ch.getD 0⟩ := by
  simp only [List.mem_cons, List.not_mem_nil, or_false, Prod.mk.injEq] at h
  rcases h with ⟨rfl, rfl, rfl, rfl, rfl⟩ | ⟨rfl, rfl, rfl, rfl, rfl⟩ | ⟨rfl, rfl, rfl, rfl, rfl⟩ |
    ⟨rfl, rfl, rfl, rfl, rfl⟩ | ⟨rfl, rfl, rfl, rfl, rfl⟩ | ⟨rfl, rfl, rfl, rfl, rfl⟩
  · exact ⟨.trm, 2, rfl, rfl, identityRow_trm, rfl, rfl⟩
  · exact ⟨.tcs, 2, rfl, rfl, identityRow_tcs, rfl, rfl⟩
  · exact ⟨.epol, 1, rfl, rfl, identityRow_epol, rfl, rfl⟩
  · exact ⟨.force, 1, rfl, rfl, identityRow_force, rfl, rfl⟩
  · exact ⟨.pha, 1, rfl, rfl, identityRow_pha, rfl, rfl⟩
  · exact ⟨.pol, 1, rfl, rfl, identityRow_pol, rfl, rfl⟩

/-- Each get operation that returns its field as it is, is the get command of a per-channel identity row, whatever the
argument of its record. -/
theorem channelGetRules_commands {op : Word} {shift width : Nat} {ch : Option Word} {i : Instr}
    (h : (op, i, shift, width) ∈ [(107#32, Instr.getTrm ch, 12, 2), (110#32, .getTcs ch, 25, 2), (111#32, .getEpol ch, 6, 1),
      (112#32, .getForce ch, 20, 1), (113#32, .getClkd ch, 2, 4), (114#32, .getPha ch, 0, 1), (115#32, .getPol ch, 1, 1)]) :
    ∃ f max, getCommand f ch = some i ∧ f.scope = .perChannel ∧ IdentityRow f shift width max ∧
      ∀ arg, decode ⟨0, op, arg, ch.isSome, ch.getD 0⟩ = some i := by
  have hdecode (n : Nat) (hn : n < 2 ^ 32) (arg : Word) := decode_ctrlCh hn arg ch
  simp only [List.mem_cons, List.not_mem_nil, or_false, Prod.mk.injEq] at h
  rcases h with ⟨rfl, rfl, rfl, rfl⟩ | ⟨rfl, rfl, rfl, rfl⟩ | ⟨rfl, rfl, rfl, rfl⟩ | ⟨rfl, rfl, rfl, rfl⟩ |
    ⟨rfl, rfl, rfl, rfl⟩ | ⟨rfl, rfl, rfl, rfl⟩ | ⟨rfl, rfl, rfl, rfl⟩
  · exact ⟨.trm, 2, rfl, rfl, identityRow_trm, hdecode 107 (by decide)⟩
  · exact ⟨.tcs, 3, rfl, rfl, identityRow_tcs, hdecode 110 (by decide)⟩
  · exact ⟨.epol, 1, rfl, rfl, identityRow_epol, hdecode 111 (by decide)⟩
  · exact ⟨.force, 1, rfl, rfl, identityRow_force, hdecode 112 (by decide)⟩
  · exact ⟨.clkd, 15, rfl, rfl, identityRow_clkd, hdecode 113 (by decide)⟩
  · exact ⟨.pha, 1, rfl, rfl, identityRow_pha, hdecode 114 (by decide)⟩
  · exact ⟨.pol, 1, rfl, rfl, identityRow_pol, hdecode 115 (by decide)⟩

/-- Settles O27: the domain, `a ≤ max`, is checked before the channel; past both, the set writes the word of an identity row
to the conf register. -/
theorem perChannelSetRules : Obligations.PerChannelSetRules := by
  refine ⟨fun s a op mask shift max ch i hmem ht hl hp => ?_, by decide⟩
  obtain ⟨f, width, hi, hf, hrow, rfl, hencode⟩ := channelSetRules_commands hmem
  have hdom := hrow.mem_dom_iff a
  refine ⟨hencode ▸ decode_encode i, fun hmax => ?_, fun hmax w hw habove => ?_, fun hmax c hc => ?_⟩
  · exact exec_set_outside ht hl hi (hdom.not.mpr (Nat.not_le.mpr hmax))
  · subst hw
    exact exec_channel_above ht hl hf habove (.inl ⟨hi, hdom.mpr hmax⟩)
  · rw [exec_set_conf ht hl hf hp hc hi (hdom.mpr hmax), hrow.insert]
    rfl

/-- Settles O28: a channel that resolves gives the slice of an identity row, of the conf register. -/
theorem perChannelGetRules : Obligations.PerChannelGetRules := by
  refine ⟨fun s op shift width ch i hmem ht hl hp => ?_, by decide⟩
  obtain ⟨f, max, hi, hf, hrow, hdecode⟩ := channelGetRules_commands hmem
  refine ⟨hdecode, fun w hw habove => ?_, fun c hc => ?_⟩
  · subst hw
    exact exec_channel_above (u := 0) ht hl hf habove (.inr hi)
  · rw [exec_get_conf ht hl hf hp hc hi, hrow.extract]
    rfl

/-- Settles O29: each clause is the set, the rejection or the get of its row, whose domain, insertion and extraction are
those of the row's lemmas. -/
theorem wordLengthLayoutAndDividerRules : Obligations.WordLengthLayoutAndDividerRules := by
  intro s a c ht hl hp old ch off set got bad
  have hset {f : FieldId} {u : Word} {i : Instr} (hi : setCommand f u ch = some i) (hf : f.scope = .perChannel)
      (hu : u ∈ (FieldTable.default.get f).dom) : exec i s = .next (set ((FieldTable.default.get f).insert old u)) :=
    exec_set_conf ht hl hf hp (.inr rfl) hi hu
  have hget {f : FieldId} {i : Instr} (hi : getCommand f ch = some i) (hf : f.scope = .perChannel) :
      exec i s = .next (got ((FieldTable.default.get f).extract old)) :=
    exec_get_conf ht hl hf hp (.inr rfl) hi
  have hbad {f : FieldId} {i : Instr} (hi : setCommand f a ch = some i) (hu : a ∉ (FieldTable.default.get f).dom) :
      exec i s = .next bad :=
    exec_set_outside ht hl hi hu
  refine ⟨fun ha => ?_, fun ha => ?_, ?_, fun ha => ?_, fun ha => ?_, fun ha => ?_, ?_, fun ha => ?_, fun ha => ?_⟩
  · rw [← wl_insert]
    exact hset rfl rfl ((mem_wl_dom_iff a).mpr ha)
  · exact hbad (f := .wl) rfl ((mem_wl_dom_iff a).not.mpr ha)
  · rw [← wl_extract]
    exact hget rfl rfl
  · subst ha
    rw [← layout_insert_zero]
    exact hset rfl rfl ((mem_layout_dom_iff 0).mpr (by decide))
  · subst ha
    rw [← layout_insert_one]
    exact hset rfl rfl ((mem_layout_dom_iff 1).mpr (by decide))
  · exact hbad (f := .layout) rfl ((mem_layout_dom_iff a).not.mpr (Nat.not_le.mpr ha))
  · rw [← layout_extract]
    exact hget rfl rfl
  · rw [← clkd_insert]
    exact hset rfl rfl ((identityRow_clkd.mem_dom_iff a).mpr ha)
  · exact hbad (f := .clkd) rfl ((identityRow_clkd.mem_dom_iff a).not.mpr (Nat.not_le.mpr ha))

end Sys2Proof.Machine
end

section
/-! SUPPORT. SETFIFO and GETFIFO while no reset is in progress, by SETFIFO's argument and by the channels that read enabled
(43_fifo.md R150-R153). -/

namespace Sys2Proof.Machine

/-- Settles O32: what the check of the FFE row asks (log 18). -/
theorem fifoIsOnWhenTheFieldIsNonZero : Obligations.FifoIsOnWhenTheFieldIsNonZero :=
  fun _ v h => FieldTable.ffe_extract (Params.table_wellFormed h) v

/-! ### The lowest enabled channel -/

/-- `fifoOn(c) = 1` (43_fifo.md R150). -/
abbrev State.FifoOn (s : State) (c : Chan) : Prop := s.params.table.ffe.extract (s.bank.word (.conf c)) = 1

theorem find?_allChans_eq_some {p : Chan → Bool} {c : Chan} (hc : p c = true) (hlow : ∀ b < c, p b = false) :
    allChans.find? p = some c := by
  rcases chan_cases c with rfl | rfl | rfl | rfl
  · simp only [allChans, List.find?_cons, hc]
  · simp only [allChans, List.find?_cons, hc, hlow 0 (by decide)]
  · simp only [allChans, List.find?_cons, hc, hlow 0 (by decide), hlow 1 (by decide)]
  · simp only [allChans, List.find?_cons, hc, hlow 0 (by decide), hlow 1 (by decide), hlow 2 (by decide)]

section
variable {s : State}

/-- The lowest enabled channel that is not `n` (43_fifo.md R151). -/
theorem find?_enabledOf_eq_some {n c : Chan} (hne : c ≠ n) (hon : s.FifoOn c)
    (hlow : ∀ b : Chan, b < c → b ≠ n → ¬s.FifoOn b) :
    (enabledOf s allChans).find? (· != n) = some c := by
  rw [enabledOf, List.find?_filter]
  exact find?_allChans_eq_some (by simp [hon, hne]) fun b hb => by simpa [not_imp_not] using hlow b hb

theorem find?_enabledOf_eq_none {n : Chan} : (enabledOf s allChans).find? (· != n) = none ↔
    ∀ c : Chan, c ≠ n → ¬s.FifoOn c := by
  have hall : ∀ c : Chan, c ∈ allChans := by decide
  simp [enabledOf, List.find?_eq_none, hall, not_imp_not]

/-- The lowest enabled channel (43_fifo.md R152). -/
theorem head?_enabledOf_eq_some {c : Chan} (hon : s.FifoOn c) (hlow : ∀ b : Chan, b < c → ¬s.FifoOn b) :
    (enabledOf s allChans).head? = some c := by
  rw [enabledOf, List.head?_filter]
  exact find?_allChans_eq_some (decide_eq_true hon) fun b hb => decide_eq_false (hlow b hb)

theorem enabledOf_eq_nil (hoff : ∀ c : Chan, ¬s.FifoOn c) :
    enabledOf s allChans = [] :=
  List.filter_eq_nil_iff.mpr fun c _ => by simpa using hoff c

end

/-! ### The whole next states -/

/-- The state that the disable form of SETFIFO leaves: four RMWs, in the order of the channels (43_fifo.md R151). -/
def fifoCleared (s : State) : State :=
  let old (c : Chan) : Word := s.bank.word (.conf c)
  let off (c : Chan) : Word := s.params.table.ffe.insert (old c) 0
  { s with
    bank := { s.bank with conf := #v[off 0, off 1, off 2, off 3] }
    busy := false
    phase := .idle
    responses := s.responses ++ [⟨.ok, 0, none⟩]
    log := s.log ++ allChans.flatMap fun c => [.read (NvReg.conf c).offset (old c), .write (NvReg.conf c).offset (off c)]
    moves := s.moves.drop 8
    tick := s.tick + 8 }

/-- The state that SETFIFO n leaves with no other channel enabled: four reads and one RMW (43_fifo.md R151). -/
def fifoGiven (n : Chan) (s : State) : State :=
  let old : Word := s.bank.word (.conf n)
  let new : Word := s.params.table.ffe.insert old 1
  { readConfs s allChans with
    bank := s.bank.put (.conf n) new
    busy := false
    phase := .idle
    responses := s.responses ++ [⟨.ok, 0, none⟩]
    log := (readConfs s allChans).log ++ [.read (NvReg.conf n).offset old, .write (NvReg.conf n).offset new]
    moves := s.moves.drop 6
    tick := s.tick + 6 }

theorem put_conf_all (b : Bank) (v₀ v₁ v₂ v₃ : Word) :
    (((b.put (.conf 0) v₀).put (.conf 1) v₁).put (.conf 2) v₂).put (.conf 3) v₃ = { b with conf := #v[v₀, v₁, v₂, v₃] } := by
  refine congrArg (Bank.mk b.sysconfig b.modulctrl) ((vector_four _).trans ?_)
  simp [Bank.put]

theorem returnWord_clearConf_all (s : State) :
    returnWord 0 (clearConf 3 (clearConf 2 (clearConf 1 (clearConf 0 s)))) = fifoCleared s := by
  simpa [returnWord, respond, clearConf, fifoCleared, word_put_ne, allChans] using put_conf_all s.bank _ _ _ _

@[simp] theorem fifoCleared_params (s : State) : (fifoCleared s).params = s.params := rfl

theorem fifoCleared_word (c : Chan) (s : State) :
    (fifoCleared s).bank.word (.conf c) = s.params.table.ffe.insert (s.bank.word (.conf c)) 0 := by
  rcases chan_cases c with rfl | rfl | rfl | rfl <;> rfl

@[simp] theorem fifoGiven_params (n : Chan) (s : State) : (fifoGiven n s).params = s.params := rfl

theorem fifoGiven_word (n c : Chan) (s : State) : (fifoGiven n s).bank.word (.conf c) =
    if c = n then s.params.table.ffe.insert (s.bank.word (.conf n)) 1 else s.bank.word (.conf c) := by
  simp [fifoGiven, word_put]

/-! ### The commands -/

/-- Read as signed, the other words are below −1 or above 3 (43_fifo.md R151). -/
theorem toInt_outside {a : Word} (ha : 4 ≤ a.toNat) (hne : a ≠ 0xFFFFFFFF) : a.toInt < -1 ∨ 3 < a.toInt := by
  rcases setFifo_cases a with h | ⟨h, -⟩ | ⟨h, -⟩
  · exact h
  · exact absurd h hne
  · have hmod := congrArg BitVec.toNat h
    simp only [BitVec.toNat_setWidth] at hmod
    omega

section
variable {s : State} (hl : s.life = .ready)
include hl

theorem exec_setFifo_outside {a : Word} (ha : a.toInt < -1 ∨ 3 < a.toInt) :
    exec (.setFifo a) s = .next (raise .invalidValue (some a) s) := by
  simp only [exec, execSetFifo, whenReady_ready hl]
  exact if_pos ha

theorem exec_setFifo_channel (n : Chan) :
    exec (.setFifo (n.setWidth 32)) s = .next (runFrom (.fifoScan (some n) 0 []) s) := by
  simp only [exec, execSetFifo, whenReady_ready hl]
  have harg : ∀ n : Chan, ¬((n.setWidth 32).toInt < -1 ∨ 3 < (n.setWidth 32).toInt) ∧ (n.setWidth 32).toInt ≠ -1 ∧
      (n.setWidth 32).setWidth 2 = n := by decide
  obtain ⟨hrange, hneg, hback⟩ := harg n
  rw [if_neg hrange, if_neg hneg, hback]

variable (hp : s.pend = false) (hs : s.params.table.ffe.scope = .perChannel)
include hp hs

theorem exec_setFifo_clears : exec (.setFifo 0xFFFFFFFF) s = .next (fifoCleared s) := by
  rw [← returnWord_clearConf_all, ← runCommand_disableFifo hp hs]
  simp [exec, execSetFifo, whenReady_ready hl]

theorem exec_setFifo_gives {n : Chan} (h : (enabledOf s allChans).find? (· != n) = none) :
    exec (.setFifo (n.setWidth 32)) s = .next (fifoGiven n s) := by
  rw [exec_setFifo_channel hl, runFrom_setFifo_enable hp hs h]
  rfl

theorem exec_setFifo_conflict {n c : Chan} (h : (enabledOf s allChans).find? (· != n) = some c) :
    exec (.setFifo (n.setWidth 32)) s =
      .next (raise .fifoConflict (some (c.setWidth 32)) (readConfs s allChans)) := by
  rw [exec_setFifo_channel hl, runFrom_setFifo_conflict hp hs h]

theorem exec_getFifo_lowest {c : Chan} (hon : s.FifoOn c) (hlow : ∀ b : Chan, b < c → ¬s.FifoOn b) :
    exec .getFifo s = .next (returnWord (c.setWidth 32) (readConfs s allChans)) := by
  obtain ⟨rest, he⟩ := List.head?_eq_some_iff.mp (head?_enabledOf_eq_some hon hlow)
  simp only [exec, execGetFifo, whenReady_ready hl, runFrom_getFifo hp hs, he]

theorem exec_getFifo_none (hoff : ∀ c : Chan, ¬s.FifoOn c) :
    exec .getFifo s = .next (returnWord 0xFFFFFFFF (readConfs s allChans)) := by
  simp only [exec, execGetFifo, whenReady_ready hl, runFrom_getFifo hp hs, enabledOf_eq_nil hoff]

/-- A SETFIFO that answers OK took −1, or a channel beside which no other is enabled. -/
theorem setFifo_ok_cases {t : State} {a : Word} {info : Option Word} (h : exec (.setFifo a) s = .next t)
    (hok : t.responses = s.responses ++ [⟨.ok, 0, info⟩]) :
    a = 0xFFFFFFFF ∧ t = fifoCleared s ∨ ∃ n : Chan, a = n.setWidth 32 ∧ t = fifoGiven n s ∧
      ∀ c : Chan, c ≠ n → ¬s.FifoOn c := by
  rcases setFifo_cases a with ha | ⟨rfl, -⟩ | ⟨ha, -⟩
  · rw [exec_setFifo_outside hl ha] at h
    cases h
    simp at hok
  · rw [exec_setFifo_clears hl hp hs] at h
    cases h
    exact .inl ⟨rfl, rfl⟩
  · obtain ⟨n, rfl⟩ : ∃ n : Chan, a = n.setWidth 32 := ⟨_, ha⟩
    cases hc : (enabledOf s allChans).find? (· != n) with
    | some c =>
      rw [exec_setFifo_conflict hl hp hs hc] at h
      cases h
      simp [readConfs] at hok
    | none =>
      rw [exec_setFifo_gives hl hp hs hc] at h
      cases h
      exact .inr ⟨n, rfl, rfl, find?_enabledOf_eq_none.mp hc⟩

end

theorem ffe_scope_of_scoped {t : FieldTable} (h : t.scoped = true) : t.ffe.scope = .perChannel :=
  FieldTable.scope_of_scoped h .ffe

/-- Settles O33: the four RMWs leave `fifoCleared`. -/
theorem setFifoDisableClearsEveryChannel : Obligations.SetFifoDisableClearsEveryChannel :=
  fun _ ht hl hp => exec_setFifo_clears hl hp (ffe_scope_of_scoped ht)

/-- Settles O34: the scan finds no other channel, and the RMW leaves `fifoGiven`. -/
theorem setFifoEnablesOneChannel : Obligations.SetFifoEnablesOneChannel := by
  intro s n ht hl hp hothers
  refine (exec_setFifo_gives hl hp (ffe_scope_of_scoped ht) (find?_enabledOf_eq_none.mpr hothers)).trans ?_
  simp only [fifoGiven, readConfs, List.append_assoc]
  rfl

/-- Settles O35: the scan finds the lowest other channel. -/
theorem setFifoConflictsWithAnotherChannel : Obligations.SetFifoConflictsWithAnotherChannel :=
  fun _ _ _ ht hl hp hne hon hlow =>
    exec_setFifo_conflict hl hp (ffe_scope_of_scoped ht) (find?_enabledOf_eq_some hne hon hlow)

/-- Settles O36: read as signed, the argument is below −1 or above 3. -/
theorem setFifoRejectsEveryOtherWord : Obligations.SetFifoRejectsEveryOtherWord :=
  fun _ _ hl ha hne => exec_setFifo_outside hl (toInt_outside ha hne)

/-- Settles O37: the head of the channels found enabled is the lowest one. -/
theorem getFifoReturnsTheLowestEnabledChannel : Obligations.GetFifoReturnsTheLowestEnabledChannel :=
  fun _ ht hl hp => ⟨fun _ => exec_getFifo_lowest hl hp (ffe_scope_of_scoped ht),
    exec_getFifo_none hl hp (ffe_scope_of_scoped ht)⟩

/-! ### The round trip -/

section
variable {s : State} (hadm : s.Admitted)
include hadm

/-- An enable written reads back as written (40_engine.md R101 condition 4). -/
theorem ffe_extract_insert {u : Word} (hu : u ∈ [(0 : Word), 1]) (v : Word) :
    s.params.table.ffe.extract (s.params.table.ffe.insert v u) = u := by
  have ht := Params.table_wellFormed hadm
  rw [← FieldTable.ffe_dom ht] at hu
  exact Descriptor.extract_insert (FieldTable.row_wellFormed ht .ffe) hu v

theorem fifoCleared_off (c : Chan) : ¬(fifoCleared s).FifoOn c := by
  rw [State.FifoOn, fifoCleared_params, fifoCleared_word, ffe_extract_insert hadm (by simp)]
  decide

theorem fifoGiven_on (n : Chan) : (fifoGiven n s).FifoOn n := by
  rw [State.FifoOn, fifoGiven_params, fifoGiven_word, if_pos rfl]
  exact ffe_extract_insert hadm (by simp) _

end

/-- Settles O38: after −1 every channel reads disabled; after n channel n does not, and the channels below it, which the scan
found disabled, are left. -/
theorem getFifoAfterSetFifoReturnsTheArgument : Obligations.GetFifoAfterSetFifoReturnsTheArgument := by
  intro s t a info hadm hl hp hset hok
  have hs := ffe_perChannel hadm
  rcases setFifo_ok_cases hl hp hs hset hok with ⟨rfl, rfl⟩ | ⟨n, rfl, rfl, hothers⟩
  · exact ⟨_, exec_getFifo_none (s := fifoCleared s) hl hp hs (fifoCleared_off hadm), rfl⟩
  · refine ⟨_, exec_getFifo_lowest (s := fifoGiven n s) hl hp hs (fifoGiven_on hadm n) fun b hb => ?_, rfl⟩
    rw [State.FifoOn, fifoGiven_word, if_neg (BitVec.ne_of_lt hb)]
    exact hothers b (BitVec.ne_of_lt hb)

end Sys2Proof.Machine
end

section
/-! SUPPORT. INIT and TERM as whole commands: the closed forms of the reset sequence read at the command's own start, and every
command completes within its bound (44_lifecycle_reset.md R160-R170). -/

namespace Sys2Proof.Machine

/-- Settles O39: the error is taken before any access, and its whole next state is that of `raise`. -/
theorem initFromTerminatedIsNotReady : Obligations.InitFromTerminatedIsNotReady := fun _ => exec_init_terminated

/-! ### The bound on accesses -/

/-- The bound leaves room for N polls after the RMW of SYSCONFIG, and for INIT's REVISION read before it. -/
theorem accessBound_polls (p : Params) : ∃ n, accessBound p = n + 3 ∧ p.resetPollMax ≤ n :=
  ⟨accessBound p - 3, by unfold accessBound; omega, by unfold accessBound; omega⟩

/-! ### TERM -/

/-- Settles O42: TERM is the reset sequence from its start, concluded with Done. -/
theorem termSucceedsWhenTheResetCompletesInTime : Obligations.TermSucceedsWhenTheResetCompletesInTime := by
  intro s j h1 h2 hj hbefore hat
  obtain ⟨n, hn, hN⟩ := accessBound_polls s.params
  rw [exec_term, runCommand, startReset_params, hn,
    runAccesses_reset_done h1 h2 hbefore hat hj (Nat.le_succ_of_le hN)]
  rfl

/-- Settles O43: TERM is the reset sequence from its start, concluded with Failed. -/
theorem termTimesOutAfterExactlyNPolls : Obligations.TermTimesOutAfterExactlyNPolls := by
  intro s h1 h2 hnone
  obtain ⟨n, hn, hN⟩ := accessBound_polls s.params
  obtain ⟨p, hp⟩ := runAccesses_reset_failed (l := .term) h1 h2 hnone (Nat.le_succ_of_le hN)
  rw [exec_term, runCommand, startReset_params, hn, hp]
  rfl

/-! ### INIT -/

/-- The state after INIT's REVISION read, in which its reset sequence starts (44_lifecycle_reset.md R166). -/
def revisionCaptured (s : State) : State :=
  { s with
    bank := if s.pend && s.move.complete then ResetValues.bank s.params.resetValue else s.bank
    pend := s.pend && !s.move.complete
    revMajor := revisionMajor s.params.hwRevision
    revMinor := revisionMinor s.params.hwRevision
    log := s.log ++ [.read offRevision s.params.hwRevision,
      .rev (revisionMajor s.params.hwRevision) (revisionMinor s.params.hwRevision)]
    moves := s.moves.tail
    tick := s.tick + 1 }

section
variable (s : State)

theorem params_revisionCaptured : (revisionCaptured s).params = s.params := rfl

theorem bank_revisionCaptured : (revisionCaptured s).bank =
    if s.pend && (s.moveAt 0).complete then ResetValues.bank s.params.resetValue else s.bank := rfl

theorem pend_revisionCaptured : (revisionCaptured s).pend = (s.pend && !(s.moveAt 0).complete) := rfl

theorem moveAt_revisionCaptured (k i : Nat) : (revisionCaptured s).moveAt (k + i) = s.moveAt (k + 1 + i) := by
  rw [moveAt_next (s := s) rfl rfl, Nat.add_right_comm]

theorem moves_revisionCaptured (k i : Nat) : (revisionCaptured s).moves.drop (k + i) = s.moves.drop (k + 1 + i) := by
  rw [Nat.add_right_comm, ← List.drop_tail]
  rfl

theorem tick_revisionCaptured (k i : Nat) : (revisionCaptured s).tick + (k + i) = s.tick + (k + 1 + i) := by
  simp only [revisionCaptured]
  omega

theorem pendingReads_revisionCaptured (k j : Nat) :
    pendingReads (revisionCaptured s) k j = pendingReads s (k + 1) j := by
  rw [pendingReads_later (s := s) (t := revisionCaptured s) (n := 1) rfl List.drop_one.symm rfl, Nat.add_comm]

/-- The trace of INIT up to its RMW of SYSCONFIG (44_lifecycle_reset.md R161, R166). -/
theorem log_revisionCaptured (e f : Event) : (revisionCaptured s).log ++ [e, f] =
    s.log ++ [.read offRevision s.params.hwRevision,
      .rev (revisionMajor s.params.hwRevision) (revisionMinor s.params.hwRevision), e, f] :=
  List.append_assoc _ _ _

/-- The SYSCONFIG word INIT reads: an earlier reset is still pending there only if it was completed neither before the REVISION
read nor before this one (10_state.md R32, R35). -/
theorem sysconfigRead_revisionCaptured : sysconfigRead (revisionCaptured s) =
    if s.pend && !(s.moveAt 0).complete && !(s.moveAt 1).complete then (s.moveAt 1).draw
    else if s.pend then s.params.resetValue.sysconfig else s.bank.sysconfig := by
  have hnext : (revisionCaptured s).move = s.moveAt 1 := moveAt_revisionCaptured s 0 0
  rw [sysconfigRead, hnext, bank_revisionCaptured, pend_revisionCaptured, params_revisionCaptured]
  by_cases hp : s.pend
  · by_cases hc : (s.moveAt 0).complete <;> simp [hp, hc, ResetValues.bank]
  · simp [hp]

/-- The bank when INIT starts to poll: an earlier reset may have been completed before any of the three accesses (10_state.md
R35). -/
theorem bank_resetRequested_revisionCaptured : (resetRequested (revisionCaptured s)).bank =
    if s.pend && ((s.moveAt 0).complete || (s.moveAt 1).complete || (s.moveAt 2).complete)
    then ⟨sysconfigWritten (revisionCaptured s), s.params.resetValue.modulctrl, s.params.resetValue.conf⟩
    else { s.bank with sysconfig := sysconfigWritten (revisionCaptured s) } := by
  have h1 : (revisionCaptured s).move = s.moveAt 1 := moveAt_revisionCaptured s 0 0
  have h2 : (revisionCaptured s).moveAt 1 = s.moveAt 2 := moveAt_revisionCaptured s 1 0
  simp only [resetRequested, h1, h2, bank_revisionCaptured, pend_revisionCaptured, params_revisionCaptured]
  by_cases hp : s.pend
  · by_cases hc : (s.moveAt 0).complete <;> simp [hp, hc, ResetValues.bank]
  · simp [hp]

end

/-- INIT is its REVISION read and then the reset sequence. -/
theorem exec_init_eq {s : State} (h : s.life ≠ .terminated) {n : Nat} (hn : accessBound s.params = n + 3) :
    exec .init s = .next (runAccesses (n + 2) (startReset .init (revisionCaptured s)).lock) := by
  rw [exec_init_begins h, runFrom_eq, hn, runAccesses_revRead]
  rfl

/-- Settles O40: after the REVISION read INIT is the reset sequence, concluded with Done. -/
theorem initSucceedsWhenTheResetCompletesInTime : Obligations.InitSucceedsWhenTheResetCompletesInTime := by
  intro s j hl h1 h2 hj hbefore hat
  obtain ⟨n, hn, hN⟩ := accessBound_polls s.params
  rw [exec_init_eq hl hn, runAccesses_reset_done (s := revisionCaptured s) h1 h2
    (fun i hi => moveAt_revisionCaptured s 2 i ▸ hbefore i hi) (moveAt_revisionCaptured s 2 j ▸ hat) hj hN]
  simp only [sysconfigWritten, sysconfigRead_revisionCaptured, pendingReads_revisionCaptured, log_revisionCaptured,
    moveAt_revisionCaptured, moves_revisionCaptured, tick_revisionCaptured]
  rfl

/-- Settles O41: after the REVISION read INIT is the reset sequence, concluded with Failed. -/
theorem initTimesOutAfterExactlyNPolls : Obligations.InitTimesOutAfterExactlyNPolls := by
  intro s hl h1 h2 hnone
  obtain ⟨n, hn, hN⟩ := accessBound_polls s.params
  obtain ⟨p, hp⟩ := runAccesses_reset_failed (l := .init) (s := revisionCaptured s) h1 h2
    (fun i hi => moveAt_revisionCaptured s 2 i ▸ hnone i hi) hN
  rw [exec_init_eq hl hn, hp]
  simp only [bank_resetRequested_revisionCaptured, sysconfigWritten, sysconfigRead_revisionCaptured,
    pendingReads_revisionCaptured, log_revisionCaptured, moves_revisionCaptured, tick_revisionCaptured]
  rfl

/-! ### What an OK leaves -/

theorem exec_init_cases {s t : State} (h : exec .init s = .next t) :
    t = raise .deviceNotReady none s ∨ t = runFrom .revRead s := by
  by_cases hl : s.life = .terminated
  · rw [exec_init_terminated hl] at h
    cases h
    exact .inl rfl
  · rw [exec_init_begins hl] at h
    cases h
    exact .inr rfl

/-- A lifecycle command that ended with OK left nothing pending and the reset values in place (44_lifecycle_reset.md R162). -/
theorem Concluded.of_ok {l : LifeCmd} {s t : State} {r : Response} (h : Concluded l s t)
    (h1 : s.params.softresetBit < 32) (h2 : s.params.resetdoneBit < 32)
    (hr : t.responses = s.responses ++ [r]) (hok : r.status = .ok) :
    t.pend = false ∧ t.bank = ResetValues.bank s.params.resetValue := by
  rcases h with ⟨-, -, hdone⟩ | ⟨-, hfailed⟩
  · exact hdone h1 h2
  · obtain rfl : r = ⟨.resetTimeout, 0, none⟩ := by simpa using hr.symm.trans hfailed
    cases hok

/-- Settles O45: both commands end as `Concluded` says; INIT from Terminated does not answer OK. -/
theorem successfulResetLeavesTheResetValues : Obligations.SuccessfulResetLeavesTheResetValues := by
  rintro i s t r (rfl | rfl) h1 h2 h hr hok
  · rcases exec_init_cases h with rfl | rfl
    · obtain rfl : ⟨.deviceNotReady, 0, none⟩ = r := by simpa [raise] using hr
      cases hok
    · obtain ⟨-, hrev, hend⟩ := init_concluded s
      obtain ⟨hpend, hbank⟩ := hend.of_ok h1 h2 hr hok
      exact ⟨hpend, hbank, fun _ => hrev rfl⟩
  · rw [exec_term] at h
    cases h
    obtain ⟨hpend, hbank⟩ := (term_concluded s).2.of_ok h1 h2 hr hok
    exact ⟨hpend, hbank, nofun⟩

/-! ### Every command completes -/

/-- Only GETDEVSTAT can be refused, and not with a readable status offset (log 13). -/
theorem exec_next {s : State} (h : s.params.statusReadable = true) (i : Instr) : ∃ t, exec i s = .next t := by
  cases hx : exec i s with
  | next t => exact ⟨t, rfl⟩
  | refused x =>
    have ha := exec_answers i s
    rw [hx] at ha
    cases ha with
    | refused _ _ hno => exact absurd (h.symm.trans hno) (by decide)
  | fault x => cases x

/-- The events a command adds to the log, with at most `accessBound` bus accesses among them (44_lifecycle_reset.md R169). -/
theorem exec_log {i : Instr} {s t : State} (h : exec i s = .next t) :
    ∃ es, t.log = s.log ++ es ∧ es.countP Event.isBus ≤ accessBound s.params := by
  cases answers_of_exec h with
  | error e info _ => exact ⟨[], by simp, by simp⟩
  | getCh _ | setCh c _ => exact ⟨[], by simp, by simp⟩
  | @run p hp =>
    obtain ⟨hne, hleft⟩ := hp.bounded
    obtain ⟨-, -, -, hlog⟩ := runCommand_completes (s := s.setPhase p) hne (hleft _ rfl)
    exact hlog
  | term _ =>
    obtain ⟨-, -, -, hlog⟩ := runCommand_completes (s := startReset .term s) (by simp)
      (by simp [Phase.left, After.left, Seq.polls, accessBound])
    exact hlog

@[simp] theorem runCommand_waiting (s : State) : (runCommand s).waiting = s.waiting := by simp [runCommand]
@[simp] theorem runFrom_waiting (p : Phase) (s : State) : (runFrom p s).waiting = s.waiting := by simp [runFrom]

theorem exec_waiting {i : Instr} {s t : State} (h : exec i s = .next t) : t.waiting = s.waiting := by
  cases answers_of_exec h <;> simp

/-- No command leaves the reset sequencer at work (10_state.md R39). -/
theorem exec_seq {i : Instr} {s t : State} (h : exec i s = .next t) (hs : s.seq = .idle) : t.seq = .idle := by
  by_cases hi : i = .init
  · subst hi
    rcases exec_init_cases h with rfl | rfl
    · exact hs
    · exact (init_concluded s).1
  by_cases ht : i = .term
  · subst ht
    rw [exec_term] at h
    cases h
    exact (term_concluded s).1
  · exact (exec_keepsLife h hi ht).2.trans hs

/-- Settles O49: a command that answers is complete, and one that can be refused is excluded. -/
theorem everyCommandCompletesWithinItsBound : Obligations.EveryCommandCompletesWithinItsBound := by
  intro i s hread
  obtain ⟨t, h⟩ := exec_next hread i
  obtain ⟨hbusy, hphase, r, hr⟩ := exec_completes h
  obtain ⟨es, hlog, hbound⟩ := exec_log h
  exact ⟨t, r, es, h, hbusy, hphase, exec_seq h, exec_waiting h, hr, hlog, hbound⟩

/-- Settles O54, by the kinds of step: an access, the environment's, a reserved record's, or a command's, which answers. -/
theorem noStepStops : Obligations.NoStepStops := by
  intro s hread
  unfold State.StepsOn
  cases hb : s.busy with
  | true => exact ⟨access s, by simp [step, hb]⟩
  | false =>
    cases ha : accept s with
    | none => exact ⟨environment s, by simp [step, hb, ha]⟩
    | some ct =>
      obtain ⟨c, x⟩ := ct
      rw [step_accept hb ha]
      cases hd : decode c with
      | none => exact ⟨_, execCmd_reserved hd x⟩
      | some i =>
        rw [execCmd_decoded hd]
        exact exec_next (by rw [accept_frame ha]; exact hread) i

end Sys2Proof.Machine
end

section
/-! SUPPORT. GETDEVSTAT and GETCHSTAT while no reset is in progress: each is one read of a whole register (45_status.md
R180-R182). -/

namespace Sys2Proof.Machine

/-! ### GETDEVSTAT -/

theorem exec_getDevStat_register {s : State} (hl : s.life = .ready) {r : Reg}
    (h : mapAt s.params.deviceStatusOff = some (.reg r)) :
    exec .getDevStat s = .next (runFrom (.wordRead r) s) := by
  simp only [exec, execGetDevStat, whenReady_ready hl, h]

/-- With no reset pending SYSCONFIG reads as stored too (10_state.md R32). -/
theorem regWord_nv {s : State} (h : s.pend = false) (q : NvReg) (draw : Word) : regWord (.nv q) draw s = s.bank.word q := by
  simp [regWord, h]

/-- With no reset pending the ready bit of SYSSTATUS reads 1 (10_state.md R32). -/
theorem regWord_sysstatus {s : State} (h : s.pend = false) (draw : Word) : regWord .sysstatus draw s =
    (draw &&& ~~~(1#32 <<< s.params.resetdoneBit)) ||| (1#32 <<< s.params.resetdoneBit) := by
  rw [regWord, h]
  exact statusWord_eq_shift s.params false draw

/-- The default offset of the device status is that of SYSSTATUS (D16). -/
theorem eq_sysstatus_of_mapAt {r : Reg} (h : mapAt 0x114 = some (.reg r)) : r = .sysstatus := by
  have hmap : mapAt 0x114 = some (.reg .sysstatus) := mapAt_offset (.reg .sysstatus)
  cases hmap.symm.trans h
  rfl

/-- Settles O46: the command is one read of the register at its offset; the word read is by the register's class. -/
theorem deviceStatusIsReadWhole : Obligations.DeviceStatusIsReadWhole := by
  intro s r hl hp h
  have hoff : r.offset = s.params.deviceStatusOff := offset_of_mapAt h
  refine ⟨?_, fun hdefault hbit => ?_⟩
  · rw [exec_getDevStat_register hl h, runFrom_wordRead hp, hoff]
    cases r with
    | revision | stat c => rfl
    | nv q => rw [regWord_nv hp]
    | sysstatus => rw [regWord_sysstatus hp]
  · rw [hdefault] at h
    obtain rfl := eq_sysstatus_of_mapAt h
    have hready := readyBit_statusWord hbit false s.move.draw
    rw [statusWord_eq_shift] at hready
    exact ⟨rfl, hready⟩

/-! ### GETCHSTAT -/

theorem exec_getChStat_index {s : State} (hl : s.life = .ready) (c : Chan) :
    exec (.getChStat (c.setWidth 32)) s = .next (runFrom (.wordRead (.stat c)) s) := by
  simp only [exec, execGetChStat, whenReady_ready hl, chanOfWord_setWidth]

theorem exec_getChStat_above {s : State} (hl : s.life = .ready) {a : Word} (ha : 3 < a.toNat) :
    exec (.getChStat a) s = .next (raise .invalidChannel (some a) s) := by
  simp only [exec, execGetChStat, whenReady_ready hl, chanOfWord_none ha]

/-- The stat register of a channel stands at the formula's offset (10_state.md R22; 20_memory.md R53). -/
theorem stat_offset (c : Chan) : (Reg.stat c).offset = 0x130 + c.toNat * 0x14 := by
  revert c
  decide

/-- Settles O48: a channel index gives one read of its stat register, whose word is the draw; any other argument is
`raise`. -/
theorem channelStatusIsReadWhole : Obligations.ChannelStatusIsReadWhole := by
  intro s hl hp
  refine ⟨fun c => ?_, fun a => exec_getChStat_above hl⟩
  rw [exec_getChStat_index hl, runFrom_wordRead hp, stat_offset]
  rfl

end Sys2Proof.Machine
end

section
/-! SUPPORT. The command port: which of the waiting records is accepted, and what the acceptance leaves waiting
(60_exceptions.md R200). -/

namespace Sys2Proof.Machine

/-- A list cut at one of its elements. -/
theorem exists_append_of_getElem?_eq_some {α : Type} {l : List α} {k : Nat} {a : α} (h : l[k]? = some a) :
    ∃ pre post, l = pre ++ a :: post ∧ l.eraseIdx k = pre ++ post := by
  obtain ⟨hk, rfl⟩ := List.getElem?_eq_some_iff.mp h
  refine ⟨l.take k, l.drop (k + 1), ?_, List.eraseIdx_eq_take_drop_succ l k⟩
  rw [← List.drop_eq_getElem_cons hk, List.take_append_drop]

/-- When a record waits, the one at the port's choice is accepted and waits no more. -/
theorem accept_picks {s : State} (h : s.waiting ≠ []) : ∃ c t, accept s = some (c, t) ∧
    s.waiting[s.pick % s.waiting.length]? = some c ∧ t.waiting = s.waiting.eraseIdx (s.pick % s.waiting.length) := by
  unfold accept
  split
  · contradiction
  · next c hw => exact ⟨c, _, rfl, by simp [hw, Nat.mod_one], by simp [hw, Nat.mod_one]⟩
  · next c d rest hw =>
    rw [hw]
    have hlt : s.pick % (c :: d :: rest).length < (c :: d :: rest).length := Nat.mod_lt _ (by simp)
    exact ⟨_, _, rfl, by rw [List.getD_eq_getElem _ _ hlt, List.getElem?_eq_getElem hlt], rfl⟩

theorem accept_eq_none {s : State} (h : s.waiting = []) : accept s = none := by
  simp [accept, h]

/-- The accepted record waited, and the others still wait, in their order. -/
theorem accept_waiting {s t : State} {c : Cmd} (h : accept s = some (c, t)) :
    ∃ pre post, s.waiting = pre ++ c :: post ∧ t.waiting = pre ++ post := by
  have hw : s.waiting ≠ [] := fun hw => nomatch (accept_eq_none hw).symm.trans h
  obtain ⟨d, x, hx, hget, herase⟩ := accept_picks hw
  cases hx.symm.trans h
  rw [herase]
  exact exists_append_of_getElem?_eq_some hget

/-- A port that picks its position accepts the record there. -/
theorem accept_picked {s : State} {pre post : List Cmd} {c : Cmd} (hw : s.waiting = pre ++ c :: post)
    (hp : s.pick = pre.length) : ∃ t, accept s = some (c, t) ∧ t.waiting = pre ++ post := by
  obtain ⟨d, t, ht, hget, herase⟩ := accept_picks (s := s) (by simp [hw])
  have hmod : s.pick % s.waiting.length = pre.length := by
    rw [hp, hw]
    exact Nat.mod_eq_of_lt (by simp)
  rw [hmod, hw] at hget herase
  obtain rfl : c = d := by simpa using hget
  exact ⟨t, ht, herase.trans (by simp [List.eraseIdx_append_of_length_le])⟩

/-- Settles O7: the record at the port's choice is the one accepted, and any position can be chosen. -/
theorem anyWaitingCommandCanBeNext : Obligations.AnyWaitingCommandCanBeNext := by
  refine ⟨fun s hw => ?_, fun s => accept_eq_none, fun s t c h => ?_, fun s pre post c hw => ?_⟩
  · obtain ⟨c, t, h, -⟩ := accept_picks hw
    exact ⟨c, t, h⟩
  · obtain ⟨pre, post, hs, ht⟩ := accept_waiting h
    exact ⟨pre, post, hs, ht ▸ accept_frame h⟩
  · exact ⟨pre.length, accept_picked (s := { s with picks := pre.length :: s.picks }) hw rfl⟩

end Sys2Proof.Machine
end

section
/-! SUPPORT. Errors: the readiness check of the control operations, and what a command that ends in an error has done
(60_exceptions.md R190-R193). -/

namespace Sys2Proof.Machine

/-! ### The readiness check -/

/-- Every command but INIT and TERM begins with the readiness check, which fails outside Ready. -/
theorem exec_notReady {i : Instr} {s : State} (hi : i ≠ .init) (ht : i ≠ .term) (hl : s.life ≠ .ready) :
    exec i s = .next (raise .deviceNotReady none s) := by
  cases i with
  | init => exact absurd rfl hi
  | term => exact absurd rfl ht
  | _ => exact if_neg hl

/-- Settles O14: the whole next state is that of `raise`. -/
theorem controlOperationsNeedReady : Obligations.ControlOperationsNeedReady := fun _ _ => exec_notReady

/-! ### The control operations -/

/-- From `s` to `x` nothing was written, so that only a reset already pending can have changed the bank (10_state.md R35). -/
structure ReadsOnly (s x : State) : Prop where
  bank : s.pend = false → x.pend = false ∧ x.bank = s.bank
  log : ∃ es, x.log = s.log ++ es ∧ ∀ e ∈ es, e.isWrite = false

theorem readsOnly_refl (s : State) : ReadsOnly s s := ⟨fun h => ⟨h, rfl⟩, [], by simp, by simp⟩

theorem ReadsOnly.after_read {s x : State} (h : ReadsOnly s x) (r : Reg) : ReadsOnly s (memRead r x).2 := by
  obtain ⟨hbank, es, hlog, hes⟩ := h
  refine ⟨fun hp => ?_, es ++ [.read r.offset (readWord r x)], by simp [hlog], ?_⟩
  · obtain ⟨hno, hb⟩ := hbank hp
    simp [environment_noPend hno, hno, hb]
  · simpa [or_imp, forall_and, Event.isWrite] using hes

/-- The FIFO scan is under way. -/
def Phase.isScan : Phase → Bool
  | .fifoScan _ _ _ => true
  | .idle | .rmwRead _ _ _ _ | .rmwWrite _ _ _ _ _ | .fieldRead _ _ | .revRead | .poll _ | .wordRead _ => false

/-- The state `x` of a control operation that was accepted in `s`: up to the end of a FIFO scan nothing is written, and
FifoConflict, the only error answered after an access, comes there (43_fifo.md R151). -/
structure Controls (s x : State) : Prop where
  underway : x.busy = true →
    x.responses = s.responses ∧ x.phase.isLife = false ∧ (x.phase.isScan = true → ReadsOnly s x)
  answer : ∀ r, x.responses = s.responses ++ [r] → r.status = .ok ∨ r.status = .fifoConflict ∧ ReadsOnly s x

theorem controls_underway {s x : State} (hr : x.responses = s.responses) (hl : x.phase.isLife = false)
    (hs : x.phase.isScan = true → ReadsOnly s x) : Controls s x :=
  ⟨fun _ => ⟨hr, hl, hs⟩, fun r h => by simp [hr] at h⟩

theorem controls_respond {s x : State} {q : Response} (hr : x.responses = s.responses)
    (hq : q.status = .ok ∨ q.status = .fifoConflict ∧ ReadsOnly s x) : Controls s (respond q x) := by
  refine ⟨nofun, fun r h => ?_⟩
  obtain rfl : q = r := by simpa [hr] using h
  exact hq.imp_right fun ⟨hc, hro⟩ => ⟨hc, hro.bank, hro.log⟩

theorem controls_returnWord {s x : State} (hr : x.responses = s.responses) (v : Word) : Controls s (returnWord v x) :=
  controls_respond hr (.inl rfl)

theorem decideFifo_controls {s x : State} (hr : x.responses = s.responses) (h : ReadsOnly s x) (t : Option Chan)
    (on : List Chan) : Controls s (decideFifo t on x) := by
  unfold decideFifo enableFifo reportFifo
  split
  · split
    · exact controls_respond hr (.inr ⟨rfl, h⟩)
    · exact controls_underway hr rfl nofun
  · split <;> exact controls_returnWord hr _

theorem afterScan_controls {s x : State} (hr : x.responses = s.responses) (h : ReadsOnly s x) (t : Option Chan)
    (c : Chan) (v : Word) (on : List Chan) : Controls s (afterScan t c v on x) := by
  unfold afterScan
  split
  · exact decideFifo_controls hr h t _
  · exact controls_underway hr rfl fun _ => ⟨h.bank, h.log⟩

theorem afterDisable_controls {s x : State} (hr : x.responses = s.responses) (c : Chan) :
    Controls s (afterDisable c x) := by
  unfold afterDisable
  split
  · exact controls_returnWord hr 0
  · exact controls_underway hr rfl nofun

/-- The two accesses of an RMW belong to the same command. -/
theorem isLife_rmwWrite (r : NvReg) (mask bits old : Word) (k : After) :
    Phase.isLife (.rmwWrite r mask bits old k) = Phase.isLife (.rmwRead r mask bits k) := by
  cases k <;> rfl

theorem access_controls {s x : State} (h : Controls s x) (hb : x.busy = true) : Controls s (access x) := by
  obtain ⟨hr, hl, hs⟩ := h.underway hb
  have hread (r : Reg) : (memRead r x).2.responses = s.responses := by simpa using hr
  unfold access
  split
  · next hp => exact controls_underway hr hl fun hscan => by rw [hp] at hscan; cases hscan
  · next r mask bits k hp =>
    rw [hp] at hl
    exact controls_underway (hread (.nv r)) ((isLife_rmwWrite r mask bits _ k).trans hl) nofun
  · next r mask bits old k hp =>
    have hwrite : (memWrite r (rmwWord old mask bits) x).responses = s.responses := by simpa using hr
    cases k with
    | done => exact controls_returnWord hwrite 0
    | disable c => exact afterDisable_controls hwrite c
    | polling l => rw [hp] at hl; cases hl
  · next f r hp => exact controls_returnWord (hread _) _
  · next t c on hp => exact afterScan_controls (hread _) ((hs (by rw [hp]; rfl)).after_read _) t c _ on
  · next hp => rw [hp] at hl; cases hl
  · next l hp => rw [hp] at hl; cases hl
  · next r hp => exact controls_returnWord (hread r) _

theorem runFrom_controls {p : Phase} (h : p.isLife = false) (s : State) : Controls s (runFrom p s) :=
  runCommand_keeps (P := Controls s) (fun _ hb hx => access_controls hx hb)
    (controls_underway rfl h fun _ => ⟨(readsOnly_refl s).bank, (readsOnly_refl s).log⟩)

/-! ### The reset sequence -/

/-- The state `x` of a lifecycle command that was accepted in `s` has written only SYSCONFIG, and its ResetTimeout follows
TIMEOUT (44_lifecycle_reset.md R161-R163). -/
def ResetTraced (s x : State) : Prop :=
  ∃ es, x.log = s.log ++ es ∧ (∀ off v, .write off v ∈ es → off = offSysconfig) ∧
    ∀ r, x.responses = s.responses ++ [r] → r.status = .resetTimeout → ∃ pre, es = pre ++ [.timeout]

/-- Events added with no response yet. -/
theorem ResetTraced.add {s x y : State} (h : ResetTraced s x) (hr : y.responses = s.responses) {es : List Event}
    (hlog : y.log = x.log ++ es) (hes : ∀ off v, .write off v ∈ es → off = offSysconfig) : ResetTraced s y := by
  obtain ⟨before, hx, hbefore, -⟩ := h
  refine ⟨before ++ es, by rw [hlog, hx, List.append_assoc], fun off v hm => ?_, fun r h => by simp [hr] at h⟩
  exact (List.mem_append.mp hm).elim (hbefore off v) (hes off v)

theorem conclude_log (l : LifeCmd) (s : State) : (conclude l s).log = s.log := by
  unfold conclude; split <;> rfl

theorem conclude_done_responses (l : LifeCmd) (s : State) :
    (conclude l (s.setSeq .done)).responses = s.responses ++ [⟨.ok, 0, none⟩] := by
  cases l <;> rfl

section
variable {s x : State} (h : ResetTraced s x) (hr : x.responses = s.responses) (l : LifeCmd)
include h hr

theorem pollOrFail_resetTraced : ResetTraced s (pollOrFail l x) := by
  obtain ⟨es, hlog, hes, -⟩ := h
  unfold pollOrFail
  split
  · exact ⟨es, hlog, hes, fun r hq => by simp [hr] at hq⟩
  · refine ⟨es ++ [.timeout], ?_, by simpa using hes, fun _ _ _ => ⟨es, rfl⟩⟩
    rw [conclude_log, setSeq_log, emit_log, hlog, List.append_assoc]

theorem afterPoll_resetTraced (v : Word) : ResetTraced s (afterPoll l v x) := by
  unfold afterPoll
  split
  · obtain ⟨es, hlog, hes, -⟩ := h
    refine ⟨es, (conclude_log l _).trans hlog, hes, fun r hq hst => ?_⟩
    obtain rfl : ⟨.ok, 0, none⟩ = r := by simpa [conclude_done_responses, hr] using hq
    cases hst
  · exact pollOrFail_resetTraced (x := x.setSeq (.resetting (x.seq.polls + 1))) h hr l

end

theorem access_resetTraced {l : LifeCmd} {s x : State} (h : ResetTraced s x) (hx : Resets l s x) (hb : x.busy = true) :
    ResetTraced s (access x) := by
  obtain ⟨-, ⟨-, hr, hph⟩ | ⟨hdone, -⟩⟩ := hx
  · have hread (r : Reg) : (memRead r x).2.responses = s.responses := by simpa using hr
    have hafter (r : Reg) : ResetTraced s (memRead r x).2 := h.add (hread r) (memRead_log r x) (by simp)
    rcases hph with ⟨hph, -⟩ | ⟨-, hph | ⟨old, hph⟩ | ⟨hph, -⟩⟩
    · simp only [access, hph]
      exact (hafter .revision).add (hread .revision) (es := [.rev _ _]) rfl (by simp)
    · simp only [access, hph]
      exact (hafter (.nv .sysconfig)).add (hread (.nv .sysconfig)) (es := []) (List.append_nil _).symm (by simp)
    · simp only [access, hph]
      have hwrite (v : Word) : (memWrite .sysconfig v x).responses = s.responses := by simpa using hr
      exact pollOrFail_resetTraced (h.add (hwrite _) (memWrite_log _ _ _) (by simp [NvReg.offset])) (hwrite _) l
    · simp only [access, hph]
      exact afterPoll_resetTraced (hafter .sysstatus) (hread .sysstatus) l _
  · exact absurd (hb.symm.trans hdone) (by decide)

theorem runCommand_resetTraced {l : LifeCmd} {s x : State} (hx : Resets l s x.lock) (hr : x.responses = s.responses)
    (hlog : x.log = s.log) : ResetTraced s (runCommand x) :=
  (runCommand_keeps (P := fun y => Resets l s y ∧ ResetTraced s y)
    (fun _ hb ⟨hy, ht⟩ => ⟨access_resets hy hb, access_resetTraced ht hy hb⟩)
    ⟨hx, [], by simp [hlog], by simp, fun r h => by simp [hr] at h⟩).2

/-- An error of a completed lifecycle command is its timeout (44_lifecycle_reset.md R163, R166, R168). -/
theorem Concluded.of_error {l : LifeCmd} {s t : State} {r : Response} (h : Concluded l s t) (ht : ResetTraced s t)
    (hr : t.responses = s.responses ++ [r]) (hne : r.status ≠ .ok) :
    r.status = .resetTimeout ∧ t.life = l.lifeFailed ∧
      ∃ es, t.log = s.log ++ es ++ [.timeout] ∧ ∀ off v, .write off v ∈ es → off = offSysconfig := by
  obtain ⟨-, hok, -⟩ | ⟨hlife, hq⟩ := h
  · obtain rfl : r = ⟨.ok, 0, none⟩ := by simpa using hr.symm.trans hok
    exact absurd rfl hne
  · obtain rfl : r = ⟨.resetTimeout, 0, none⟩ := by simpa using hr.symm.trans hq
    obtain ⟨es, hlog, hes, hend⟩ := ht
    obtain ⟨pre, rfl⟩ := hend _ hr rfl
    exact ⟨rfl, hlife, pre, by rw [hlog, List.append_assoc], fun off v hm => hes off v (List.mem_append_left _ hm)⟩

/-! ### Every error -/

/-- What the command `i`, accepted in `s` and ended in `t` with an error, has done, by the status (60_exceptions.md R192). -/
inductive Fails (i : Instr) (s t : State) : Status → Prop
  | atOnce (e : Status) (info : Option Word) : e ∈ [Status.invalidChannel, .invalidValue, .deviceNotReady] →
      t = raise e info s → Fails i s t e
  | afterReads : ReadsOnly s t → Fails i s t .fifoConflict
  | afterReset : (i = .init ∧ t.life = .uninitialized ∨ i = .term ∧ t.life = .terminated) →
      (∃ es, t.log = s.log ++ es ++ [.timeout] ∧ ∀ off v, .write off v ∈ es → off = offSysconfig) →
      Fails i s t .resetTimeout

theorem raise_fails {i : Instr} {s : State} {e : Status} {info : Option Word} {r : Response}
    (he : e ∈ [Status.invalidChannel, .invalidValue, .deviceNotReady])
    (hr : (raise e info s).responses = s.responses ++ [r]) : Fails i s (raise e info s) r.status := by
  obtain rfl : ⟨e, 0, info⟩ = r := by simpa using hr
  exact .atOnce e info he rfl

theorem exec_init_fails {s t : State} {r : Response} (h : exec .init s = .next t)
    (hr : t.responses = s.responses ++ [r]) (hne : r.status ≠ .ok) : Fails .init s t r.status := by
  rcases exec_init_cases h with rfl | rfl
  · exact raise_fails (by simp) hr
  · obtain ⟨-, -, hend⟩ := init_concluded s
    have hstart : Resets .init s (s.setPhase .revRead).lock := ⟨rfl, .inl ⟨rfl, rfl, .inl ⟨rfl, rfl⟩⟩⟩
    obtain ⟨hst, hlife, hes⟩ := hend.of_error (runCommand_resetTraced hstart rfl rfl) hr hne
    exact hst ▸ .afterReset (.inl ⟨rfl, hlife⟩) hes

theorem exec_term_fails {s t : State} {r : Response} (h : exec .term s = .next t)
    (hr : t.responses = s.responses ++ [r]) (hne : r.status ≠ .ok) : Fails .term s t r.status := by
  rw [exec_term] at h
  cases h
  obtain ⟨-, hend⟩ := term_concluded s
  have hstart : Resets .term s (startReset .term s).lock := ⟨rfl, .inl ⟨rfl, rfl, .inr ⟨nofun, .inl rfl⟩⟩⟩
  obtain ⟨hst, hlife, hes⟩ := hend.of_error (runCommand_resetTraced hstart rfl rfl) hr hne
  exact hst ▸ .afterReset (.inr ⟨rfl, hlife⟩) hes

theorem exec_fails {i : Instr} {s t : State} {r : Response} (h : exec i s = .next t)
    (hr : t.responses = s.responses ++ [r]) (hne : r.status ≠ .ok) : Fails i s t r.status := by
  by_cases hi : i = .init
  · subst hi
    exact exec_init_fails h hr hne
  cases answers_of_exec h with
  | error e info he => exact raise_fails he hr
  | getCh hget | setCh c hset =>
    obtain rfl : ⟨.ok, _, none⟩ = r := by simpa using hr
    exact absurd rfl hne
  | run hp =>
    obtain ⟨hst, hreads⟩ := ((runFrom_controls (hp.not_isLife hi) s).answer r hr).resolve_left hne
    exact hst ▸ .afterReads hreads
  | term ht =>
    subst ht
    exact exec_term_fails h hr hne

/-- Settles O50: the result is 0 by `exec_response`, the rest is `Fails` read off status by status. -/
theorem errorsArePrecise : Obligations.ErrorsArePrecise := by
  intro i s t r h hr hne
  obtain ⟨q, hq, hzero⟩ := exec_response h
  obtain rfl : q = r := by simpa using hq.symm.trans hr
  refine ⟨hzero hne, ?_⟩
  have hf := exec_fails h hr hne
  generalize q.status = e at hf
  cases hf with
  | atOnce _ info he ht =>
    subst ht
    simp only [List.mem_cons, List.not_mem_nil, or_false] at he
    rcases he with rfl | rfl | rfl <;> exact ⟨nofun, fun _ => rfl, nofun, nofun⟩
  | afterReads hreads => exact ⟨nofun, by simp, fun _ => ⟨fun hp => (hreads.bank hp).2, hreads.log⟩, nofun⟩
  | afterReset hlife hes => exact ⟨nofun, by simp, nofun, fun _ => ⟨hlife, hes⟩⟩

end Sys2Proof.Machine
end
